-- ==== Sys2Proof/Word.lean ====
section
/-! DEFINITION. The bit-vector types of the MFX unit: what the spec treats as words. A B-bit pattern
read as the natural number `sum p[i]*2^i` (00_scope.md R8 to R10) is a plain `Nat`. -/

namespace Sys2Proof

/-- A byte of the text buffer (10_state.md R27). -/
abbrev Byte := BitVec 8

/-- A limb: W = 64 bits (00_scope.md R5). Also the width of `din` and `dout` (30_encoding.md R70). -/
abbrev Limb := BitVec 64

/-- A command word (30_encoding.md R71). -/
abbrev CmdWord := BitVec 32

/-- The contents of a value register: VLEN = 256 bits (10_state.md R20). -/
abbrev Value := BitVec 256

end Sys2Proof
end

