-- ==== Sys2Proof/Syntax.lean ====
section
/-! DEFINITION. The commands of the MFX unit: one constructor of `Instr` for each row of spec/opcode_table.json. -/

namespace Sys2Proof

/-- The width selector `wsel` of a command that has a width (00_scope.md R6). The reserved value 3 is no width. -/
inductive Width where
  | fx64
  | fx128
  | fx256
  deriving DecidableEq, Repr

/-- The number of a value register, V0 to V15 (10_state.md R20). -/
abbrev VReg := Fin 16

/-- The control registers, numbers 0 to 3 (10_state.md R34). -/
inductive Csr where
  | status
  | epos
  | tlen
  | tcons
  deriving DecidableEq, Repr

/-- A command (30_encoding.md R74). The data word `din` of the transaction is no part of it. -/
inductive Instr where
  /-- 40_limb_vector.md R101 -/
  | put64 (rd : VReg) (limb : Fin 4)
  /-- R102 -/
  | put32 (rd : VReg) (slice : Fin 8)
  /-- R103 -/
  | get64 (ra : VReg) (limb : Fin 4)
  /-- R104 -/
  | get32 (ra : VReg) (slice : Fin 8)
  /-- R105 -/
  | mov (w : Width) (rd ra : VReg)
  /-- R106 -/
  | and (w : Width) (rd ra rb : VReg)
  /-- R107 -/
  | or (w : Width) (rd ra rb : VReg)
  /-- R108 -/
  | xor (w : Width) (rd ra rb : VReg)
  /-- R109 -/
  | shl (w : Width) (rd ra : VReg) (count : BitVec 12)
  /-- R110 -/
  | shr (w : Width) (rd ra : VReg) (count : BitVec 12)
  /-- R111 -/
  | laddc (rd ra rb : VReg) (cin : Bool)
  /-- R112 -/
  | lsubb (rd ra rb : VReg) (bin : Bool)
  /-- R113 -/
  | lmulw (rd ra rb : VReg)
  /-- 41_arithmetic.md R131 -/
  | add (w : Width) (rd ra rb : VReg)
  /-- R132 -/
  | sub (w : Width) (rd ra rb : VReg)
  /-- R133 -/
  | neg (w : Width) (rd ra : VReg)
  /-- R135 -/
  | mul (w : Width) (rd ra rb : VReg)
  /-- R137 -/
  | square (w : Width) (rd ra : VReg)
  /-- R136 -/
  | div (w : Width) (rd ra rb : VReg)
  /-- 44_sqrt.md R212 -/
  | sqrt (w : Width) (rd ra : VReg)
  /-- 42_compare.md R163 -/
  | lt (w : Width) (rd ra rb : VReg)
  /-- R164 -/
  | gt (w : Width) (rd ra rb : VReg)
  /-- R165 -/
  | le (w : Width) (rd ra rb : VReg)
  /-- R166 -/
  | ge (w : Width) (rd ra rb : VReg)
  /-- R167 -/
  | eq (w : Width) (rd ra rb : VReg)
  /-- R168 -/
  | ne (w : Width) (rd ra rb : VReg)
  /-- R169 -/
  | ltu (w : Width) (rd ra rb : VReg)
  /-- R170 -/
  | gtu (w : Width) (rd ra rb : VReg)
  /-- R171 -/
  | leu (w : Width) (rd ra rb : VReg)
  /-- R172 -/
  | geu (w : Width) (rd ra rb : VReg)
  /-- 43_radix.md R183 -/
  | fromint (w : Width) (rd ra : VReg)
  /-- R185; the base is `imm[5:0]` -/
  | tostr (w : Width) (ra : VReg) (base : BitVec 6)
  /-- R190; the base is `imm[5:0]`, `e` ("end offset requested") is `imm[6]` -/
  | fromstr (w : Width) (rd : VReg) (base : BitVec 6) (e : Bool)
  /-- 45_double.md R222 -/
  | todbl (w : Width) (rd ra : VReg)
  /-- R225 -/
  | fromdbl (w : Width) (rd ra : VReg)
  /-- 46_system.md R242 -/
  | csrr (csr : Csr)
  /-- R243 -/
  | csrw (csr : Csr)
  /-- R244 -/
  | tld (addr : BitVec 9)
  /-- R245 -/
  | tst (addr : BitVec 9)
  deriving DecidableEq, Repr

end Sys2Proof
end

