-- ==== Sys2Proof/WellFormed.lean ====
section
/-! DEFINITION. Which terms of `Instr` a legal command word spells: the legal values of 30_encoding.md R73 that the operand
types do not already say. -/

namespace Sys2Proof

/-- "base ∈ [2,36]" (30_encoding.md R73, 43_radix.md R185, R190). -/
def baseLegal (b : BitVec 6) : Bool := decide (2 ≤ b.toNat ∧ b.toNat ≤ 36)

/-- The control registers CSRW may name: STATUS and TLEN (10_state.md R34, 30_encoding.md R73). -/
def Csr.writable : Csr → Bool
  | .status => true
  | .epos => false
  | .tlen => true
  | .tcons => false

/-- The command is one that a legal word spells (30_encoding.md R75, R76). -/
def Instr.wellFormed : Instr → Bool
  | .put64 _ _ => true
  | .put32 _ _ => true
  | .get64 _ _ => true
  | .get32 _ _ => true
  | .mov _ _ _ => true
  | .and _ _ _ _ => true
  | .or _ _ _ _ => true
  | .xor _ _ _ _ => true
  | .shl _ _ _ _ => true
  | .shr _ _ _ _ => true
  | .laddc _ _ _ _ => true
  | .lsubb _ _ _ _ => true
  | .lmulw _ _ _ => true
  | .add _ _ _ _ => true
  | .sub _ _ _ _ => true
  | .neg _ _ _ => true
  | .mul _ _ _ _ => true
  | .square _ _ _ => true
  | .div _ _ _ _ => true
  | .sqrt _ _ _ => true
  | .lt _ _ _ _ => true
  | .gt _ _ _ _ => true
  | .le _ _ _ _ => true
  | .ge _ _ _ _ => true
  | .eq _ _ _ _ => true
  | .ne _ _ _ _ => true
  | .ltu _ _ _ _ => true
  | .gtu _ _ _ _ => true
  | .leu _ _ _ _ => true
  | .geu _ _ _ _ => true
  | .fromint _ _ _ => true
  | .tostr _ _ base => baseLegal base
  | .fromstr _ _ base _ => baseLegal base
  | .todbl _ _ _ => true
  | .fromdbl _ _ _ => true
  | .csrr _ => true
  | .csrw csr => csr.writable
  | .tld _ => true
  | .tst _ => true

end Sys2Proof
end

