-- ==== Sys2Proof/Decode.lean ====
section
/-! DEFINITION. The decoder of 30_encoding.md R70 to R77, total on 32-bit words and rejecting by name; after it the encoder, and
the opcode table as masks and patterns. -/

namespace Sys2Proof

/-- Why a command word is illegal, in the order 30_encoding.md R75 tests (the order is not visible: all give IllegalCommand). -/
inductive IllegalReason where
  /-- item 1: `op` is not in the opcode map -/
  | reservedOpcode
  /-- item 2: `wsel = 3`, or `wsel ≠ 0` in a command without a width -/
  | badWidth
  /-- item 3: a register field the format does not use is non-zero -/
  | unusedRegister
  /-- item 4: unused `imm` bits are non-zero, or `imm` is outside its legal values -/
  | badImmediate
  /-- item 5: CSRW names a read-only control register (its `din` half is decided in the meaning of CSRW) -/
  | readOnlyControl
  deriving DecidableEq, Repr

/-- What decoding a word gives. -/
abbrev Decoded := Except IllegalReason Instr

/-- The fields of a command word (30_encoding.md R71). -/
structure Fields where
  op : BitVec 6
  wsel : BitVec 2
  rd : BitVec 4
  ra : BitVec 4
  rb : BitVec 4
  imm : BitVec 12
  deriving DecidableEq, Repr

/-- The field places of 30_encoding.md R71. -/
def fieldsOf (w : CmdWord) : Fields where
  op := w.extractLsb' 26 6
  wsel := w.extractLsb' 24 2
  rd := w.extractLsb' 20 4
  ra := w.extractLsb' 16 4
  rb := w.extractLsb' 12 4
  imm := w.extractLsb' 0 12

/-- The register a 4-bit field names. -/
def regOf (x : BitVec 4) : VReg := x.toFin

/-- The width a selector names; 3 is reserved (00_scope.md R6). -/
def widthOf (x : BitVec 2) : Option Width :=
  if x = 0 then some .fx64 else if x = 1 then some .fx128 else if x = 2 then some .fx256 else none

/-- The control register a number names; numbers from 4 name none (10_state.md R34). -/
def csrOf (x : BitVec 12) : Option Csr :=
  if x = 0 then some .status else if x = 1 then some .epos else if x = 2 then some .tlen
  else if x = 3 then some .tcons else none

/-! The ten formats of 30_encoding.md R72: each checks width, unused registers and immediate, in R75's order. -/

/-- Format R3. -/
def decodeR3 (f : Fields) (k : Width → VReg → VReg → VReg → Instr) : Decoded :=
  match widthOf f.wsel with
  | none => .error .badWidth
  | some w => if f.imm ≠ 0 then .error .badImmediate else .ok (k w (regOf f.rd) (regOf f.ra) (regOf f.rb))

/-- Format R2. -/
def decodeR2 (f : Fields) (k : Width → VReg → VReg → Instr) : Decoded :=
  match widthOf f.wsel with
  | none => .error .badWidth
  | some w =>
    if f.rb ≠ 0 then .error .unusedRegister
    else if f.imm ≠ 0 then .error .badImmediate
    else .ok (k w (regOf f.rd) (regOf f.ra))

/-- Format RI: every count 0 to 4095 is legal. -/
def decodeRI (f : Fields) (k : Width → VReg → VReg → BitVec 12 → Instr) : Decoded :=
  match widthOf f.wsel with
  | none => .error .badWidth
  | some w => if f.rb ≠ 0 then .error .unusedRegister else .ok (k w (regOf f.rd) (regOf f.ra) f.imm)

/-- Format L3. -/
def decodeL3 (f : Fields) (k : VReg → VReg → VReg → Instr) : Decoded :=
  if f.wsel ≠ 0 then .error .badWidth
  else if f.imm ≠ 0 then .error .badImmediate
  else .ok (k (regOf f.rd) (regOf f.ra) (regOf f.rb))

/-- Format L3I: `imm[0]` is the carry-in or borrow-in, `imm[11:1]` must be zero. -/
def decodeL3I (f : Fields) (k : VReg → VReg → VReg → Bool → Instr) : Decoded :=
  if f.wsel ≠ 0 then .error .badWidth
  else if f.imm.extractLsb' 1 11 ≠ 0 then .error .badImmediate
  else .ok (k (regOf f.rd) (regOf f.ra) (regOf f.rb) (f.imm.getLsbD 0))

/-- Format DI with an index below `n`. -/
def decodeDI (n : Nat) (f : Fields) (k : VReg → Fin n → Instr) : Decoded :=
  if f.wsel ≠ 0 then .error .badWidth
  else if f.ra ≠ 0 ∨ f.rb ≠ 0 then .error .unusedRegister
  else if h : f.imm.toNat < n then .ok (k (regOf f.rd) ⟨f.imm.toNat, h⟩)
  else .error .badImmediate

/-- Format AI with an index below `n`. -/
def decodeAI (n : Nat) (f : Fields) (k : VReg → Fin n → Instr) : Decoded :=
  if f.wsel ≠ 0 then .error .badWidth
  else if f.rd ≠ 0 ∨ f.rb ≠ 0 then .error .unusedRegister
  else if h : f.imm.toNat < n then .ok (k (regOf f.ra) ⟨f.imm.toNat, h⟩)
  else .error .badImmediate

/-- Format SO: the base is `imm[5:0]`, `imm[11:6]` must be zero. -/
def decodeSO (f : Fields) (k : Width → VReg → BitVec 6 → Instr) : Decoded :=
  match widthOf f.wsel with
  | none => .error .badWidth
  | some w =>
    if f.rd ≠ 0 ∨ f.rb ≠ 0 then .error .unusedRegister
    else if f.imm.extractLsb' 6 6 ≠ 0 then .error .badImmediate
    else if baseLegal (f.imm.extractLsb' 0 6) then .ok (k w (regOf f.ra) (f.imm.extractLsb' 0 6))
    else .error .badImmediate

/-- Format SI: the base is `imm[5:0]`, `e` is `imm[6]`, `imm[11:7]` must be zero. -/
def decodeSI (f : Fields) (k : Width → VReg → BitVec 6 → Bool → Instr) : Decoded :=
  match widthOf f.wsel with
  | none => .error .badWidth
  | some w =>
    if f.ra ≠ 0 ∨ f.rb ≠ 0 then .error .unusedRegister
    else if f.imm.extractLsb' 7 5 ≠ 0 then .error .badImmediate
    else if baseLegal (f.imm.extractLsb' 0 6) then
      .ok (k w (regOf f.rd) (f.imm.extractLsb' 0 6) (f.imm.getLsbD 6))
    else .error .badImmediate

/-- Format I before its immediate is read: no width and no register field. -/
def decodeI (f : Fields) (k : Decoded) : Decoded :=
  if f.wsel ≠ 0 then .error .badWidth
  else if f.rd ≠ 0 ∨ f.ra ≠ 0 ∨ f.rb ≠ 0 then .error .unusedRegister
  else k

/-- Format I with a control register number, for CSRR. -/
def decodeCsrr (f : Fields) : Decoded :=
  decodeI f (match csrOf f.imm with
    | none => .error .badImmediate
    | some c => .ok (.csrr c))

/-- Format I with a control register number, for CSRW: EPOS and TCONS are read only (R75 item 5). -/
def decodeCsrw (f : Fields) : Decoded :=
  decodeI f (match csrOf f.imm with
    | none => .error .badImmediate
    | some c => if c.writable then .ok (.csrw c) else .error .readOnlyControl)

/-- Format I with a text-buffer address 0 to 511, for TLD and TST. -/
def decodeText (f : Fields) (k : BitVec 9 → Instr) : Decoded :=
  decodeI f (if f.imm.extractLsb' 9 3 ≠ 0 then .error .badImmediate else .ok (k (f.imm.extractLsb' 0 9)))

/-- The opcode map of 30_encoding.md R74; every other opcode is reserved. -/
def decodeFields (f : Fields) : Decoded :=
  match f.op with
  | 0x01#6 => decodeDI 4 f .put64
  | 0x02#6 => decodeDI 8 f .put32
  | 0x03#6 => decodeAI 4 f .get64
  | 0x04#6 => decodeAI 8 f .get32
  | 0x05#6 => decodeR2 f .mov
  | 0x06#6 => decodeR3 f .and
  | 0x07#6 => decodeR3 f .or
  | 0x08#6 => decodeR3 f .xor
  | 0x09#6 => decodeRI f .shl
  | 0x0A#6 => decodeRI f .shr
  | 0x0B#6 => decodeL3I f .laddc
  | 0x0C#6 => decodeL3I f .lsubb
  | 0x0D#6 => decodeL3 f .lmulw
  | 0x10#6 => decodeR3 f .add
  | 0x11#6 => decodeR3 f .sub
  | 0x12#6 => decodeR2 f .neg
  | 0x13#6 => decodeR3 f .mul
  | 0x14#6 => decodeR2 f .square
  | 0x15#6 => decodeR3 f .div
  | 0x16#6 => decodeR2 f .sqrt
  | 0x18#6 => decodeR3 f .lt
  | 0x19#6 => decodeR3 f .gt
  | 0x1A#6 => decodeR3 f .le
  | 0x1B#6 => decodeR3 f .ge
  | 0x1C#6 => decodeR3 f .eq
  | 0x1D#6 => decodeR3 f .ne
  | 0x1E#6 => decodeR3 f .ltu
  | 0x1F#6 => decodeR3 f .gtu
  | 0x20#6 => decodeR3 f .leu
  | 0x21#6 => decodeR3 f .geu
  | 0x24#6 => decodeR2 f .fromint
  | 0x25#6 => decodeSO f .tostr
  | 0x26#6 => decodeSI f .fromstr
  | 0x27#6 => decodeR2 f .todbl
  | 0x28#6 => decodeR2 f .fromdbl
  | 0x30#6 => decodeCsrr f
  | 0x31#6 => decodeCsrw f
  | 0x32#6 => decodeText f .tld
  | 0x33#6 => decodeText f .tst
  | _ => .error .reservedOpcode

/-- The decoder (30_encoding.md R76: total; every word is one command or illegal). -/
def decode (w : CmdWord) : Decoded := decodeFields (fieldsOf w)

/-- What the decoder reads from a word numbered as spec/opcode_table.json numbers it, for the host. -/
def decodeTableWord (nbits w : Nat) : Option Instr :=
  (decode (BitVec.ofNat 32 (w % 2 ^ nbits))).toOption

/-! The encoder. -/

/-- `op<<26 | wsel<<24 | rd<<20 | ra<<16 | rb<<12 | imm` (30_encoding.md R74). -/
def packWord (f : Fields) : CmdWord := f.op ++ f.wsel ++ f.rd ++ f.ra ++ f.rb ++ f.imm

/-- The selector of a width (00_scope.md R6). -/
def wselOf : Width → BitVec 2
  | .fx64 => 0
  | .fx128 => 1
  | .fx256 => 2

/-- The 4-bit field that names a register. -/
def regField (r : VReg) : BitVec 4 := BitVec.ofFin r

/-- The number of a control register (10_state.md R34). -/
def csrNumber : Csr → BitVec 12
  | .status => 0
  | .epos => 1
  | .tlen => 2
  | .tcons => 3

/-- Fields of format R3. -/
def fieldsR3 (op : BitVec 6) (w : Width) (rd ra rb : VReg) : Fields :=
  ⟨op, wselOf w, regField rd, regField ra, regField rb, 0⟩

/-- Fields of format R2. -/
def fieldsR2 (op : BitVec 6) (w : Width) (rd ra : VReg) : Fields :=
  ⟨op, wselOf w, regField rd, regField ra, 0, 0⟩

/-- Fields of format RI. -/
def fieldsRI (op : BitVec 6) (w : Width) (rd ra : VReg) (imm : BitVec 12) : Fields :=
  ⟨op, wselOf w, regField rd, regField ra, 0, imm⟩

/-- Fields of formats L3 and L3I. -/
def fieldsL3 (op : BitVec 6) (rd ra rb : VReg) (imm : BitVec 12) : Fields :=
  ⟨op, 0, regField rd, regField ra, regField rb, imm⟩

/-- Fields of format DI. -/
def fieldsDI (op : BitVec 6) (rd : VReg) (imm : BitVec 12) : Fields := ⟨op, 0, regField rd, 0, 0, imm⟩

/-- Fields of format AI. -/
def fieldsAI (op : BitVec 6) (ra : VReg) (imm : BitVec 12) : Fields := ⟨op, 0, 0, regField ra, 0, imm⟩

/-- Fields of format I. -/
def fieldsI (op : BitVec 6) (imm : BitVec 12) : Fields := ⟨op, 0, 0, 0, 0, imm⟩

/-- The fields of a command (30_encoding.md R72 to R74), unused fields zero. -/
def fieldsFor : Instr → Fields
  | .put64 rd i => fieldsDI 0x01 rd (BitVec.ofNat 12 i.val)
  | .put32 rd j => fieldsDI 0x02 rd (BitVec.ofNat 12 j.val)
  | .get64 ra i => fieldsAI 0x03 ra (BitVec.ofNat 12 i.val)
  | .get32 ra j => fieldsAI 0x04 ra (BitVec.ofNat 12 j.val)
  | .mov w rd ra => fieldsR2 0x05 w rd ra
  | .and w rd ra rb => fieldsR3 0x06 w rd ra rb
  | .or w rd ra rb => fieldsR3 0x07 w rd ra rb
  | .xor w rd ra rb => fieldsR3 0x08 w rd ra rb
  | .shl w rd ra n => fieldsRI 0x09 w rd ra n
  | .shr w rd ra n => fieldsRI 0x0A w rd ra n
  | .laddc rd ra rb c => fieldsL3 0x0B rd ra rb ((BitVec.ofBool c).setWidth 12)
  | .lsubb rd ra rb c => fieldsL3 0x0C rd ra rb ((BitVec.ofBool c).setWidth 12)
  | .lmulw rd ra rb => fieldsL3 0x0D rd ra rb 0
  | .add w rd ra rb => fieldsR3 0x10 w rd ra rb
  | .sub w rd ra rb => fieldsR3 0x11 w rd ra rb
  | .neg w rd ra => fieldsR2 0x12 w rd ra
  | .mul w rd ra rb => fieldsR3 0x13 w rd ra rb
  | .square w rd ra => fieldsR2 0x14 w rd ra
  | .div w rd ra rb => fieldsR3 0x15 w rd ra rb
  | .sqrt w rd ra => fieldsR2 0x16 w rd ra
  | .lt w rd ra rb => fieldsR3 0x18 w rd ra rb
  | .gt w rd ra rb => fieldsR3 0x19 w rd ra rb
  | .le w rd ra rb => fieldsR3 0x1A w rd ra rb
  | .ge w rd ra rb => fieldsR3 0x1B w rd ra rb
  | .eq w rd ra rb => fieldsR3 0x1C w rd ra rb
  | .ne w rd ra rb => fieldsR3 0x1D w rd ra rb
  | .ltu w rd ra rb => fieldsR3 0x1E w rd ra rb
  | .gtu w rd ra rb => fieldsR3 0x1F w rd ra rb
  | .leu w rd ra rb => fieldsR3 0x20 w rd ra rb
  | .geu w rd ra rb => fieldsR3 0x21 w rd ra rb
  | .fromint w rd ra => fieldsR2 0x24 w rd ra
  | .tostr w ra base => ⟨0x25, wselOf w, 0, regField ra, 0, base.setWidth 12⟩
  | .fromstr w rd base e => ⟨0x26, wselOf w, regField rd, 0, 0, (BitVec.ofBool e ++ base).setWidth 12⟩
  | .todbl w rd ra => fieldsR2 0x27 w rd ra
  | .fromdbl w rd ra => fieldsR2 0x28 w rd ra
  | .csrr c => fieldsI 0x30 (csrNumber c)
  | .csrw c => fieldsI 0x31 (csrNumber c)
  | .tld a => fieldsI 0x32 (a.setWidth 12)
  | .tst a => fieldsI 0x33 (a.setWidth 12)

/-- The word of a command. A word is legal exactly when it is this for a well-formed command. -/
def encode (i : Instr) : CmdWord := packWord (fieldsFor i)

/-! The opcode table: one row for each row of spec/opcode_table.json, independent of the decoder above. -/

/-- A row: the word is the row's when `word AND mask = pattern` and the row's constraints hold. -/
structure OpRow where
  mnemonic : String
  pattern : CmdWord
  mask : CmdWord
  /-- the row's constraint "wsel != 3" -/
  hasWidth : Bool
  /-- the row's constraint "2 <= base <= 36" -/
  hasBase : Bool
  deriving DecidableEq, Repr

/-- PUT64 to LMULW. -/
def limbVectorRows : List OpRow := [
  ⟨"PUT64", 0x04000000#32, 0xFF0FFFFC#32, false, false⟩,
  ⟨"PUT32", 0x08000000#32, 0xFF0FFFF8#32, false, false⟩,
  ⟨"GET64", 0x0C000000#32, 0xFFF0FFFC#32, false, false⟩,
  ⟨"GET32", 0x10000000#32, 0xFFF0FFF8#32, false, false⟩,
  ⟨"MOV", 0x14000000#32, 0xFC00FFFF#32, true, false⟩,
  ⟨"AND", 0x18000000#32, 0xFC000FFF#32, true, false⟩,
  ⟨"OR", 0x1C000000#32, 0xFC000FFF#32, true, false⟩,
  ⟨"XOR", 0x20000000#32, 0xFC000FFF#32, true, false⟩,
  ⟨"SHL", 0x24000000#32, 0xFC00F000#32, true, false⟩,
  ⟨"SHR", 0x28000000#32, 0xFC00F000#32, true, false⟩,
  ⟨"LADDC", 0x2C000000#32, 0xFF000FFE#32, false, false⟩,
  ⟨"LSUBB", 0x30000000#32, 0xFF000FFE#32, false, false⟩,
  ⟨"LMULW", 0x34000000#32, 0xFF000FFF#32, false, false⟩]

/-- ADD to NE. -/
def arithmeticCompareRows : List OpRow := [
  ⟨"ADD", 0x40000000#32, 0xFC000FFF#32, true, false⟩,
  ⟨"SUB", 0x44000000#32, 0xFC000FFF#32, true, false⟩,
  ⟨"NEG", 0x48000000#32, 0xFC00FFFF#32, true, false⟩,
  ⟨"MUL", 0x4C000000#32, 0xFC000FFF#32, true, false⟩,
  ⟨"SQUARE", 0x50000000#32, 0xFC00FFFF#32, true, false⟩,
  ⟨"DIV", 0x54000000#32, 0xFC000FFF#32, true, false⟩,
  ⟨"SQRT", 0x58000000#32, 0xFC00FFFF#32, true, false⟩,
  ⟨"LT", 0x60000000#32, 0xFC000FFF#32, true, false⟩,
  ⟨"GT", 0x64000000#32, 0xFC000FFF#32, true, false⟩,
  ⟨"LE", 0x68000000#32, 0xFC000FFF#32, true, false⟩,
  ⟨"GE", 0x6C000000#32, 0xFC000FFF#32, true, false⟩,
  ⟨"EQ", 0x70000000#32, 0xFC000FFF#32, true, false⟩,
  ⟨"NE", 0x74000000#32, 0xFC000FFF#32, true, false⟩]

/-- LTU to TST. -/
def conversionSystemRows : List OpRow := [
  ⟨"LTU", 0x78000000#32, 0xFC000FFF#32, true, false⟩,
  ⟨"GTU", 0x7C000000#32, 0xFC000FFF#32, true, false⟩,
  ⟨"LEU", 0x80000000#32, 0xFC000FFF#32, true, false⟩,
  ⟨"GEU", 0x84000000#32, 0xFC000FFF#32, true, false⟩,
  ⟨"FROMINT", 0x90000000#32, 0xFC00FFFF#32, true, false⟩,
  ⟨"TOSTR", 0x94000000#32, 0xFCF0FFC0#32, true, true⟩,
  ⟨"FROMSTR", 0x98000000#32, 0xFC0FFF80#32, true, true⟩,
  ⟨"TODBL", 0x9C000000#32, 0xFC00FFFF#32, true, false⟩,
  ⟨"FROMDBL", 0xA0000000#32, 0xFC00FFFF#32, true, false⟩,
  ⟨"CSRR", 0xC0000000#32, 0xFFFFFFFC#32, false, false⟩,
  ⟨"CSRW", 0xC4000000#32, 0xFFFFFFFD#32, false, false⟩,
  ⟨"TLD", 0xC8000000#32, 0xFFFFFE00#32, false, false⟩,
  ⟨"TST", 0xCC000000#32, 0xFFFFFE00#32, false, false⟩]

/-- The 39 rows. -/
def opcodeTable : List OpRow := limbVectorRows ++ arithmeticCompareRows ++ conversionSystemRows

/-- The mnemonic of a command, as its row spells it. -/
def Instr.mnemonic : Instr → String
  | .put64 _ _ => "PUT64"
  | .put32 _ _ => "PUT32"
  | .get64 _ _ => "GET64"
  | .get32 _ _ => "GET32"
  | .mov _ _ _ => "MOV"
  | .and _ _ _ _ => "AND"
  | .or _ _ _ _ => "OR"
  | .xor _ _ _ _ => "XOR"
  | .shl _ _ _ _ => "SHL"
  | .shr _ _ _ _ => "SHR"
  | .laddc _ _ _ _ => "LADDC"
  | .lsubb _ _ _ _ => "LSUBB"
  | .lmulw _ _ _ => "LMULW"
  | .add _ _ _ _ => "ADD"
  | .sub _ _ _ _ => "SUB"
  | .neg _ _ _ => "NEG"
  | .mul _ _ _ _ => "MUL"
  | .square _ _ _ => "SQUARE"
  | .div _ _ _ _ => "DIV"
  | .sqrt _ _ _ => "SQRT"
  | .lt _ _ _ _ => "LT"
  | .gt _ _ _ _ => "GT"
  | .le _ _ _ _ => "LE"
  | .ge _ _ _ _ => "GE"
  | .eq _ _ _ _ => "EQ"
  | .ne _ _ _ _ => "NE"
  | .ltu _ _ _ _ => "LTU"
  | .gtu _ _ _ _ => "GTU"
  | .leu _ _ _ _ => "LEU"
  | .geu _ _ _ _ => "GEU"
  | .fromint _ _ _ => "FROMINT"
  | .tostr _ _ _ => "TOSTR"
  | .fromstr _ _ _ _ => "FROMSTR"
  | .todbl _ _ _ => "TODBL"
  | .fromdbl _ _ _ => "FROMDBL"
  | .csrr _ => "CSRR"
  | .csrw _ => "CSRW"
  | .tld _ => "TLD"
  | .tst _ => "TST"

/-- The word spells the row's command. -/
def OpRow.accepts (r : OpRow) (w : CmdWord) : Bool :=
  w &&& r.mask == r.pattern
    && (!r.hasWidth || w.extractLsb' 24 2 != 3)
    && (!r.hasBase || baseLegal (w.extractLsb' 0 6))

end Sys2Proof
end

