-- ==== Sys2Proof/Config.lean ====
section
/-! DEFINITION. The parameters of the shell (00_scope.md R7) at the values the spec gives them. NVREG = 16 and VLEN = 256
stand in the types `VReg` and `Value`. -/

namespace Sys2Proof.Config

/-- TEXT_CAP: bytes in the text buffer (00_scope.md R7, 10_state.md R27). -/
abbrev textCap : Nat := 512

/-- ROUND_WIDE: whether DIV and SQRT round at FX128 and FX256. The spec's default; assumption log 6. -/
def roundWide : Bool := false

/-- The two tie rules of TODBL that 45_double.md R222 writes out. -/
inductive TieRule where
  | halfUp
  | halfEven
  deriving DecidableEq, Repr

/-- TODBL_TIE: the tie rule of TODBL. The spec's default; assumption log 6. -/
def todblTie : TieRule := .halfUp

end Sys2Proof.Config
end

