-- ==== Sys2Proof/Machine/State.lean ====
section
/-! DEFINITION. The state of the MFX unit (10_state.md), its errors, the reasons a step of the model can stop, and the reset
state. -/

namespace Sys2Proof.Machine

/-- The text buffer TB (10_state.md R27, 20_memory.md R50): (address, byte) cells in canonical form, addresses strictly rising and
below 512, no cell holding what an unlisted address reads as. -/
abbrev Memory := List Host.Cell

/-- What an unlisted address reads as: the reset contents of TB (10_state.md R36). -/
abbrev Memory.unlisted : Byte := 0

/-- The addresses are strictly rising. -/
def Memory.rising : Memory → Bool
  | [] => true
  | [_] => true
  | c :: d :: rest => decide (c.1 < d.1) && Memory.rising (d :: rest)

/-- The canonical form of a text buffer. -/
def Memory.wf (m : Memory) : Bool :=
  Memory.rising m && m.all fun c => decide (c.1 < Config.textCap) && c.2 != Memory.unlisted

/-- What the host does at the command port (30_encoding.md R70, 70_reset_and_hazards.md R290). -/
inductive HostEvent where
  /-- a transaction: a command word and its data word -/
  | command (cmd : CmdWord) (din : Limb)
  /-- the reset -/
  | reset
  deriving DecidableEq, Repr

/-- The response to a transaction (30_encoding.md R70). -/
structure Response where
  dout : Limb
  err : BitVec 3
  deriving DecidableEq, Repr

/-- The errors of the unit (60_exceptions.md R260). Raising one is a next state (R262), not a fault of the model. -/
inductive UnitError where
  /-- FROMSTR, with the text position of 43_radix.md R189 -/
  | parseError (pos : Nat)
  /-- DIV -/
  | divideByZero
  /-- SQRT and FROMDBL -/
  | domainError
  /-- any illegal word -/
  | illegalCommand
  deriving DecidableEq, Repr

/-- The whole state. `v` to `tcons` are the unit's (10_state.md R36); `port`, `din` and `response` are the transaction of
30_encoding.md R70 (assumption log 1, 3, 4). -/
structure State where
  /-- the value registers V0 to V15 (R20) -/
  v : Vector Value 16
  /-- the text buffer (R27) -/
  tb : Memory
  /-- STATUS.ERR, bits 2:0 (R30) -/
  err : BitVec 3
  /-- STATUS.TRUNC, bit 3 (R30) -/
  trunc : Bool
  /-- EPOS (R31) -/
  epos : BitVec 10
  /-- TLEN (R32) -/
  tlen : BitVec 10
  /-- TCONS (R33) -/
  tcons : BitVec 10
  /-- the host's events not yet accepted, oldest first -/
  port : List HostEvent
  /-- the data word of the transaction being executed -/
  din : Limb
  /-- the last response; `none` when nothing has been answered since reset -/
  response : Option Response
  deriving DecidableEq, Repr

/-- Why the model stops. -/
inductive Fault where
  /-- An access to the text buffer reaches address `addr`, which 20_memory.md R50 says does not exist. Raised by the text
  operations of Ops.lean. Safe: no legal command word can name such an address, and no run from reset meets it. -/
  | textAddress (addr : Nat)
  deriving DecidableEq, Repr

/-- Why the model refuses a command. -/
inductive Refusal where
  /-- Raised by an arm of `exec` whose command has no meaning yet. Safe: nothing can be concluded from it. -/
  | notModelled (mnemonic : String)
  deriving DecidableEq, Repr

/-- What a step gives. -/
abbrev Result := Host.Outcome State Fault Refusal

/-- The state right after reset: every piece of state zero (10_state.md R36, 70_reset_and_hazards.md R290). The host has sent
nothing and nothing has been answered (assumption log 1, 3, 4). -/
def State.reset : State where
  v := Vector.replicate 16 0
  tb := []
  err := 0
  trunc := false
  epos := 0
  tlen := 0
  tcons := 0
  port := []
  din := 0
  response := none

end Sys2Proof.Machine
end

