-- ==== Sys2Proof/Machine/Flags.lean ====
section
/-! DEFINITION. The flag-like state of the unit: the error codes, the error record and the words the control registers read as.
The unit has no arithmetic flags (10_state.md R25). -/

namespace Sys2Proof.Machine

/-- The code of an error (60_exceptions.md R260). -/
def errorCode : UnitError → BitVec 3
  | .parseError _ => 1
  | .divideByZero => 2
  | .domainError => 3
  | .illegalCommand => 4

/-- What EPOS records for an error: the text position of a ParseError, else 0 (60_exceptions.md R260, R262). -/
def errorPos : UnitError → BitVec 10
  | .parseError pos => BitVec.ofNat 10 pos
  | .divideByZero => 0
  | .domainError => 0
  | .illegalCommand => 0

/-- STATUS as a 64-bit word: 60 zero bits, TRUNC, ERR (10_state.md R30). -/
def statusWord (s : State) : Limb := (BitVec.ofBool s.trunc ++ s.err).setWidth 64

/-- A control register as CSRR reads it (10_state.md R30 to R33). -/
def csrWord (s : State) : Csr → Limb
  | .status => statusWord s
  | .epos => s.epos.setWidth 64
  | .tlen => s.tlen.setWidth 64
  | .tcons => s.tcons.setWidth 64

end Sys2Proof.Machine
end

