-- ==== Sys2Proof/Machine/Operands.lean ====
section
/-! DEFINITION. What the commands compute with: the formats (00_scope.md R6), the readings of a pattern (R8, R9), limbs and
slices, and the limb cells the engines are built from (40_limb_vector.md R114 to R116). -/

namespace Sys2Proof.Machine

/-! The three formats (00_scope.md R6). -/

/-- INTBITS, `I`. -/
def intBits : Width → Nat
  | .fx64 => 8
  | .fx128 => 32
  | .fx256 => 64

/-- FRACBITS, `F`. -/
def fracBits : Width → Nat
  | .fx64 => 56
  | .fx128 => 96
  | .fx256 => 192

/-- BITS, `B`. -/
def bits : Width → Nat
  | .fx64 => 64
  | .fx128 => 128
  | .fx256 => 256

/-- Limbs per value, `N`. -/
def limbCount : Width → Nat
  | .fx64 => 1
  | .fx128 => 2
  | .fx256 => 4

/-! Readings of a pattern (00_scope.md R8, R9). `B` is the width in bits; a pattern is a natural number below `2^B`. -/

/-- `p[i]` as the number 0 or 1. -/
def bitAt (p : Nat) (i : Nat) : Nat := (p >>> i) % 2

/-- `sign(p) = p[B-1]`. -/
def signBit (B : Nat) (p : Nat) : Bool := p.testBit (B - 1)

/-- `sval(p)`: the two's-complement reading. -/
def sval (B : Nat) (p : Nat) : Int := if signBit B p then (p : Int) - 2 ^ B else p

/-- `neg_B(p) = (2^B - p) mod 2^B`. -/
def negPat (B : Nat) (p : Nat) : Nat := (2 ^ B - p) % 2 ^ B

/-- `mag(p)`: `neg_B(p)` when the sign is set, else `p`; read unsigned, so the minimum value has magnitude `2^(B-1)`. -/
def mag (B : Nat) (p : Nat) : Nat := if signBit B p then negPat B p else p

/-- Put a sign on a magnitude already reduced modulo `2^B`: `neg_B` when `negative`. -/
def withSign (B : Nat) (negative : Bool) (r : Nat) : Nat := if negative then negPat B r else r

/-- `bitlen(x)`: the least `b` with `x < 2^b`. -/
def bitlen (x : Nat) : Nat := if x = 0 then 0 else Nat.log2 x + 1

/-- Drop the low `n` bits and, when `round`, add the highest dropped bit: round-half-up on a magnitude (glossary of 00_scope.md,
41_arithmetic.md R135, R136). -/
def dropBits (n : Nat) (round : Bool) (x : Nat) : Nat := (x >>> n) + if round then bitAt x (n - 1) else 0

/-- The round switch of DIV and SQRT: at FX64 always, at the wider formats as ROUND_WIDE says (41_arithmetic.md R136,
44_sqrt.md R212). -/
def roundsAt (roundWide : Bool) : Width → Bool
  | .fx64 => true
  | .fx128 => roundWide
  | .fx256 => roundWide

/-! Limbs and slices of a register (10_state.md R21). -/

/-- Bits `lo+len-1 : lo` of a register. -/
def slice (x : Value) (lo len : Nat) : BitVec len := x.extractLsb' lo len

/-- The register with bits `lo+len-1 : lo` replaced by `d` and every other bit as before. -/
def withSlice {len : Nat} (x : Value) (lo : Nat) (d : BitVec len) : Value :=
  (x &&& ~~~((BitVec.allOnes len).setWidth 256 <<< lo)) ||| (d.setWidth 256 <<< lo)

/-- Limb `k` of a register: bits `64k+63 : 64k`. -/
def limbOf (x : Value) (k : Nat) : Limb := slice x (64 * k) 64

/-- 32-bit slice `j` of a register: bits `32j+31 : 32j`. -/
def slice32Of (x : Value) (j : Nat) : BitVec 32 := slice x (32 * j) 32

/-! The limb cells (40_limb_vector.md section 1). -/

/-- `addc(x, y, c)` (R114): the sum modulo `2^64` and the carry out. -/
def addc (x y : Limb) (c : Bool) : Limb × Bool :=
  let t := x.toNat + y.toNat + c.toNat
  (BitVec.ofNat 64 t, t >>> 64 == 1)

/-- `subb(x, y, b)` (R115): the difference modulo `2^64` and the borrow out. -/
def subb (x y : Limb) (b : Bool) : Limb × Bool :=
  (BitVec.ofInt 64 ((x.toNat : Int) - y.toNat - b.toNat), decide (x.toNat < y.toNat + b.toNat))

/-- `mulw(x, y)` (R116): the high and the low limb of the exact product. -/
def mulw (x y : Limb) : Limb × Limb :=
  let p := x.toNat * y.toNat
  (BitVec.ofNat 64 (p >>> 64), BitVec.ofNat 64 p)

/-- Limb `i` of a pattern: `p[64i+63 : 64i]` (00_scope.md R8). -/
def limbAt (p : Nat) (i : Nat) : Limb := BitVec.ofNat 64 (p >>> (64 * i))

/-- The limbs of a pattern, limb 0 first. -/
def limbsOf (n : Nat) (p : Nat) : List Limb := (List.range n).map (limbAt p)

/-- The pattern of a list of limbs, limb 0 first. -/
def ofLimbs : List Limb → Nat
  | [] => 0
  | x :: xs => x.toNat + 2 ^ 64 * ofLimbs xs

/-- The ripple of `addc` over limbs, limb 0 first (41_arithmetic.md R131): the sum limbs and the last carry. -/
def rippleAdd (c : Bool) : List Limb → List Limb → List Limb × Bool
  | x :: xs, y :: ys =>
    let s := addc x y c
    let rest := rippleAdd s.2 xs ys
    (s.1 :: rest.1, rest.2)
  | _, _ => ([], c)

/-- The ripple of `subb` over limbs, limb 0 first (41_arithmetic.md R132): the difference limbs and the last borrow. -/
def rippleSub (b : Bool) : List Limb → List Limb → List Limb × Bool
  | x :: xs, y :: ys =>
    let d := subb x y b
    let rest := rippleSub d.2 xs ys
    (d.1 :: rest.1, rest.2)
  | _, _ => ([], b)

/-! The widening product (41_arithmetic.md R134). -/

/-- One partial product of column `k` added to the accumulator. -/
def addPartial (x y : Nat) (k acc i : Nat) : Nat :=
  let p := mulw (limbAt x i) (limbAt y (k - i))
  acc + p.1.toNat * 2 ^ 64 + p.2.toNat

/-- Every `i` with `0 ≤ i ≤ N-1` and `0 ≤ k-i ≤ N-1`, in rising order. -/
def columnRows (n k : Nat) : List Nat := (List.range n).filter fun i => decide (i ≤ k) && decide (k - i < n)

/-- Columns `k` to `k+m-1` of the schoolbook multiply, from accumulator `acc`: the output limbs at their weights. -/
def wideColumns (n : Nat) (x y : Nat) : (m k acc : Nat) → Nat
  | 0, _, _ => 0
  | m + 1, k, acc =>
    let acc' := (columnRows n k).foldl (addPartial x y k) acc
    acc' % 2 ^ 64 * 2 ^ (64 * k) + wideColumns n x y m (k + 1) (acc' >>> 64)

/-- `wideprod(x, y)` of two n-limb numbers: columns 0 to 2n-1, least significant first. -/
def wideProd (n : Nat) (x y : Nat) : Nat := wideColumns n x y (2 * n) 0 0

/-! The two compare primitives (42_compare.md R161, R162). -/

/-- `scmp(a, b)`: the order of the two's-complement readings. -/
def scmp (B : Nat) (a b : Nat) : Ordering := compare (sval B a) (sval B b)

/-- `ucmp(a, b)`: the order of the patterns as natural numbers. -/
def ucmp (a b : Nat) : Ordering := compare a b

end Sys2Proof.Machine
end

