-- ==== Sys2Proof/Machine/Ops.lean ====
section
/-! DEFINITION. The named operations every command is built from: register, text-buffer and control-register access, ending a
command, raising an error (60_exceptions.md R262) and clearing its record, accepting an event of the host, the reset. -/

namespace Sys2Proof.Machine

/-! Value registers. -/

/-- `V[r]`, all 256 bits (00_scope.md R10). -/
def readV (s : State) (r : VReg) : Value := s.v.get r

/-- `V[r] <- x`, all 256 bits. No register is hard-wired (10_state.md R20). -/
def writeV (s : State) (r : VReg) (x : Value) : State := { s with v := s.v.set r.val x r.isLt }

/-- `Vw[r] = V[r][B-1:0]` (10_state.md R23). -/
def readW (s : State) (w : Width) (r : VReg) : Nat := (readV s r).toNat % 2 ^ bits w

/-- `Vw[r] <- n`: `V[r] <- zext_256(n mod 2^B)` (10_state.md R22). -/
def writeW (s : State) (w : Width) (r : VReg) (n : Nat) : State := writeV s r (BitVec.ofNat 256 (n % 2 ^ bits w))

/-- `L[r][k]`. -/
def readLimb (s : State) (r : VReg) (k : Nat) : Limb := limbOf (readV s r) k

/-- Limb 0 and limb 1 written, limbs 2 and 3 zero (10_state.md R24). -/
def writeLimbPair (s : State) (r : VReg) (hi lo : Limb) : State := writeV s r ((hi ++ lo).setWidth 256)

/-- A truth value: the integer 1 or 0 in limb 0 (10_state.md R24). -/
def writeTruth (s : State) (r : VReg) (t : Bool) : State := writeV s r (if t then 1 else 0)

/-! The text buffer. -/

/-- `TB[a]`. -/
def loadByte (m : Memory) (a : Nat) : Byte :=
  match m with
  | [] => Memory.unlisted
  | c :: rest => if c.1 = a then c.2 else loadByte rest a

/-- `TB[a] <- b`, keeping the canonical form. -/
def storeByte (m : Memory) (a : Nat) (b : Byte) : Memory :=
  match m with
  | [] => if b = Memory.unlisted then [] else [(a, b)]
  | c :: rest =>
    if c.1 < a then c :: storeByte rest a b
    else if c.1 = a then (if b = Memory.unlisted then rest else (a, b) :: rest)
    else if b = Memory.unlisted then c :: rest else (a, b) :: c :: rest

/-- `TB[a], TB[a+1], … <- bytes`. -/
def storeBytes (m : Memory) (a : Nat) : List Byte → Memory
  | [] => m
  | b :: bs => storeBytes (storeByte m a b) (a + 1) bs

/-- Bytes 0 to n-1. -/
def loadBytes (m : Memory) (n : Nat) : List Byte := (List.range n).map (loadByte m)

/-- The text buffer with `m` in its place. -/
def setText (s : State) (m : Memory) : State := { s with tb := m }

/-- The string of the text buffer, bytes 0 to TLEN-1 (20_memory.md R51); `none` when it would reach above address 511. -/
def fetchText (s : State) : Option (List Byte) :=
  if s.tlen.toNat ≤ Config.textCap then some (loadBytes s.tb s.tlen.toNat) else none

/-- The string placed at address 0 (43_radix.md R185); `none` when it would reach above address 511. -/
def placeText (s : State) (out : List Byte) : Option State :=
  if out.length ≤ Config.textCap then some (setText s (storeBytes s.tb 0 out)) else none

/-! Control registers. -/

/-- `CSR[TLEN] <- n`. -/
def setTlen (s : State) (n : Nat) : State := { s with tlen := BitVec.ofNat 10 n }

/-- `CSR[TCONS] <- n`. -/
def setTcons (s : State) (n : Nat) : State := { s with tcons := BitVec.ofNat 10 n }

/-- `STATUS.TRUNC <- t`. -/
def setTrunc (s : State) (t : Bool) : State := { s with trunc := t }

/-- STATUS.ERR and EPOS written together (10_state.md R31). -/
def setRecord (s : State) (code : BitVec 3) (pos : BitVec 10) : State := { s with err := code, epos := pos }

/-! Ending a command. -/

/-- The response given. -/
def respond (s : State) (dout : Limb) (err : BitVec 3) : State := { s with response := some ⟨dout, err⟩ }

/-- A command that completes: `err = 0` (30_encoding.md R70). -/
def complete (s : State) (dout : Limb) : Result := .next (respond s dout 0)

/-- `Vw[rd] <- n` and the command completes. -/
def completeW (s : State) (w : Width) (rd : VReg) (n : Nat) : Result := complete (writeW s w rd n) 0

/-- A truth value to `rd` and the command completes. -/
def completeTruth (s : State) (rd : VReg) (t : Bool) : Result := complete (writeTruth s rd t) 0

/-- A limb pair to `rd` and the command completes. -/
def completePair (s : State) (rd : VReg) (hi lo : Limb) : Result := complete (writeLimbPair s rd hi lo) 0

/-- The first error since the last clear is the one kept (60_exceptions.md R262 item 3). -/
def recordError (s : State) (e : UnitError) : State :=
  if s.err = 0 then setRecord s (errorCode e) (errorPos e) else s

/-- `raise e` (60_exceptions.md R262): the error is recorded unless one is already, the response carries its code and
`dout = 0`, nothing else changes, and the unit is ready for the next command. -/
def raise (s : State) (e : UnitError) : Result := .next (respond (recordError s e) 0 (errorCode e))

/-- The clearing of the record by the host (10_state.md R30): ERR, TRUNC and EPOS zero. There is no return from an error to model
beside it (60_exceptions.md R268). -/
def clearRecord (s : State) : State := setTrunc (setRecord s 0 0) false

/-! The command port. -/

/-- The oldest event of the host accepted: the rest stays. -/
def acceptEvent (s : State) (rest : List HostEvent) : State := { s with port := rest }

/-- A transaction accepted (70_reset_and_hazards.md R296): its data word stands at `din`. -/
def acceptCommand (s : State) (rest : List HostEvent) (din : Limb) : State :=
  { acceptEvent s rest with din := din }

/-- The reset (70_reset_and_hazards.md R290): everything takes its reset value. What the host has yet to send is the host's and
stays (assumption log 5). -/
def applyReset (rest : List HostEvent) : State := acceptEvent State.reset rest

end Sys2Proof.Machine
end

