-- ==== Sys2Proof/Machine/Arithmetic.lean ====
section
/-! DEFINITION. The fixed-point arithmetic commands (41_arithmetic.md) and the square root (44_sqrt.md). Overflow wraps and is
never reported (R130). -/

namespace Sys2Proof.Machine

/-! The functions of the commands, on B-bit patterns. -/

/-- ADD (R131). -/
def addPat (B : Nat) (a b : Nat) : Nat := (a + b) % 2 ^ B

/-- SUB (R132): the minuend is `a`. -/
def subPat (B : Nat) (a b : Nat) : Nat := (((a : Int) - b) % 2 ^ B).toNat

/-- MUL (R135): the product of the magnitudes, shifted to F fraction bits, rounded half up on bit F-1, reduced modulo `2^B`,
then negated when the signs differ. -/
def mulPat (w : Width) (a b : Nat) : Nat :=
  let B := bits w
  let p := wideProd (limbCount w) (mag B a) (mag B b)
  withSign B (signBit B a != signBit B b) (dropBits (fracBits w) true p % 2 ^ B)

/-- DIV by a non-zero `b` (R136): the magnitude of `a` widened by B low zero bits, divided, brought back to F fraction bits by
dropping I bits, rounded where the format rounds, reduced, then negated when the signs differ. -/
def divPat (roundWide : Bool) (w : Width) (a b : Nat) : Nat :=
  let B := bits w
  let q := (mag B a <<< B) / mag B b
  withSign B (signBit B a != signBit B b) (dropBits (intBits w) (roundsAt roundWide w) q % 2 ^ B)

/-- The digit-by-digit scan (44_sqrt.md R211) over positions `F-1+n-1` down to `F-1`, from the result so far `c`. `target` is
`T << 2F`; the comparison is exact. -/
def sqrtScan (F target : Nat) : (n c : Nat) → Nat
  | 0, c => c
  | n + 1, c =>
    let cand := c + 2 ^ (F - 1 + n)
    sqrtScan F target n (if cand * cand ≤ target then cand else c)

/-- The scan of R211 on a non-negative pattern: `I/2 + F + 1` positions, from `2F + I/2 - 1` down. -/
def sqrtWide (w : Width) (a : Nat) : Nat :=
  sqrtScan (fracBits w) ((a <<< fracBits w) <<< (2 * fracBits w)) (intBits w / 2 + fracBits w + 1) 0

/-- SQRT of a non-negative pattern (R212). -/
def sqrtPat (roundWide : Bool) (w : Width) (a : Nat) : Nat :=
  dropBits (fracBits w) (roundsAt roundWide w) (sqrtWide w a)

/-! The commands. -/

/-- ADD (41_arithmetic.md R131). -/
def execAdd (w : Width) (rd ra rb : VReg) (s : State) : Result :=
  completeW s w rd (addPat (bits w) (readW s w ra) (readW s w rb))

/-- SUB (R132). -/
def execSub (w : Width) (rd ra rb : VReg) (s : State) : Result :=
  completeW s w rd (subPat (bits w) (readW s w ra) (readW s w rb))

/-- NEG (R133). -/
def execNeg (w : Width) (rd ra : VReg) (s : State) : Result :=
  completeW s w rd (negPat (bits w) (readW s w ra))

/-- MUL (R135). -/
def execMul (w : Width) (rd ra rb : VReg) (s : State) : Result :=
  completeW s w rd (mulPat w (readW s w ra) (readW s w rb))

/-- SQUARE (R137): MUL of the operand with itself. -/
def execSquare (w : Width) (rd ra : VReg) (s : State) : Result :=
  completeW s w rd (mulPat w (readW s w ra) (readW s w ra))

/-- DIV (R136): DivideByZero when the low B bits of the divisor are zero (60_exceptions.md R266). -/
def execDiv (w : Width) (rd ra rb : VReg) (s : State) : Result :=
  if readW s w rb = 0 then raise s .divideByZero
  else completeW s w rd (divPat Config.roundWide w (readW s w ra) (readW s w rb))

/-- SQRT (44_sqrt.md R212): DomainError when bit B-1 of the operand is set (R210, 60_exceptions.md R267). -/
def execSqrt (w : Width) (rd ra : VReg) (s : State) : Result :=
  if signBit (bits w) (readW s w ra) then raise s .domainError
  else completeW s w rd (sqrtPat Config.roundWide w (readW s w ra))

end Sys2Proof.Machine
end

