-- ==== Sys2Proof/Machine/Compare.lean ====
section
/-! DEFINITION. The comparison commands (42_compare.md): a truth value to `rd`, no flag, no error. -/

namespace Sys2Proof.Machine

/-- LT (R163). -/
def execLt (w : Width) (rd ra rb : VReg) (s : State) : Result :=
  completeTruth s rd (scmp (bits w) (readW s w ra) (readW s w rb) == .lt)

/-- GT (R164). -/
def execGt (w : Width) (rd ra rb : VReg) (s : State) : Result :=
  completeTruth s rd (scmp (bits w) (readW s w ra) (readW s w rb) == .gt)

/-- LE (R165). -/
def execLe (w : Width) (rd ra rb : VReg) (s : State) : Result :=
  completeTruth s rd (scmp (bits w) (readW s w ra) (readW s w rb) != .gt)

/-- GE (R166). -/
def execGe (w : Width) (rd ra rb : VReg) (s : State) : Result :=
  completeTruth s rd (scmp (bits w) (readW s w ra) (readW s w rb) != .lt)

/-- EQ (R167): pattern equality over B bits. -/
def execEq (w : Width) (rd ra rb : VReg) (s : State) : Result :=
  completeTruth s rd (readW s w ra == readW s w rb)

/-- NE (R168). -/
def execNe (w : Width) (rd ra rb : VReg) (s : State) : Result :=
  completeTruth s rd (readW s w ra != readW s w rb)

/-- LTU (R169). -/
def execLtu (w : Width) (rd ra rb : VReg) (s : State) : Result :=
  completeTruth s rd (ucmp (readW s w ra) (readW s w rb) == .lt)

/-- GTU (R170). -/
def execGtu (w : Width) (rd ra rb : VReg) (s : State) : Result :=
  completeTruth s rd (ucmp (readW s w ra) (readW s w rb) == .gt)

/-- LEU (R171). -/
def execLeu (w : Width) (rd ra rb : VReg) (s : State) : Result :=
  completeTruth s rd (ucmp (readW s w ra) (readW s w rb) != .gt)

/-- GEU (R172). -/
def execGeu (w : Width) (rd ra rb : VReg) (s : State) : Result :=
  completeTruth s rd (ucmp (readW s w ra) (readW s w rb) != .lt)

end Sys2Proof.Machine
end

