-- ==== Sys2Proof/Machine/Double.lean ====
section
/-! DEFINITION. The double conversions (45_double.md): TODBL and FROMDBL. -/

namespace Sys2Proof.Machine

/-- `pack(s, Mn, E)` (R221): the pattern of `(-1)^s * Mn * 2^(E-52)`, for `2^52 ≤ Mn ≤ 2^53`. -/
def packDouble (s : Bool) (mn : Nat) (e : Int) : Nat :=
  let carried := decide (mn = 2 ^ 53)
  let mn' := if carried then 2 ^ 52 else mn
  let e' := if carried then e + 1 else e
  s.toNat * 2 ^ 63 + (e' + 1023).toNat * 2 ^ 52 + (mn' - 2 ^ 52)

/-- The top 54 bits of a magnitude of bit length `b` (R222): 53 significand bits and the guard bit. -/
def top54 (m b : Nat) : Nat := if b < 54 then m <<< (54 - b) else m >>> (b - 54)

/-- The rounded significand (R222), under either tie rule. -/
def roundSignificand (tie : Config.TieRule) (m b : Nat) : Nat :=
  let t := top54 m b
  match tie with
  | .halfUp => (t + t % 2) >>> 1
  | .halfEven =>
    (t >>> 1) + if t % 2 = 1 ∧ (m % 2 ^ (b - 54) ≠ 0 ∨ (t >>> 1) % 2 = 1) then 1 else 0

/-- TODBL on a pattern (R222): the 64-bit pattern of the double. -/
def todblPat (tie : Config.TieRule) (w : Width) (a : Nat) : Nat :=
  if a = 0 then 0
  else
    let m := mag (bits w) a
    let b := bitlen m
    packDouble (signBit (bits w) a) (roundSignificand tie m b) ((b : Int) - 1 - fracBits w)

/-- Bit 63 of a double, the sign (R220). -/
def doubleSign (d : Limb) : Bool := d.getLsbD 63

/-- Bits 62:52, the biased exponent (R220). -/
def doubleExponent (d : Limb) : Nat := (d.extractLsb' 52 11).toNat

/-- Bits 51:0, the fraction (R220). -/
def doubleFraction (d : Limb) : Nat := (d.extractLsb' 0 52).toNat

/-- `mant` of R224, for an exponent field below 2047. -/
def doubleMantissa (d : Limb) : Nat :=
  if doubleExponent d = 0 then doubleFraction d else 2 ^ 52 + doubleFraction d

/-- `e` of R224: the value is `mant * 2^e`. -/
def doubleScale (d : Limb) : Int := if doubleExponent d = 0 then -1074 else (doubleExponent d : Int) - 1075

/-- FROMDBL on a finite double (R225): `floor(|x| * 2^F)` reduced modulo `2^B`, negated when the sign bit is set. -/
def fromdblPat (w : Width) (d : Limb) : Nat :=
  let sh := doubleScale d + fracBits w
  let mg := if 0 ≤ sh then doubleMantissa d <<< sh.toNat else doubleMantissa d >>> (-sh).toNat
  withSign (bits w) (doubleSign d) (mg % 2 ^ bits w)

/-- TODBL (R222): limb 0 takes the double, limbs 1 to 3 zero. -/
def execTodbl (w : Width) (rd ra : VReg) (s : State) : Result :=
  completePair s rd 0 (BitVec.ofNat 64 (todblPat Config.todblTie w (readW s w ra)))

/-- FROMDBL (R225): DomainError for an infinity or a NaN (60_exceptions.md R267). -/
def execFromdbl (w : Width) (rd ra : VReg) (s : State) : Result :=
  if doubleExponent (readLimb s ra 0) = 2047 then raise s .domainError
  else completeW s w rd (fromdblPat w (readLimb s ra 0))

end Sys2Proof.Machine
end

