-- ==== Sys2Proof/Machine/LimbVector.lean ====
section
/-! DEFINITION. The limb-vector commands (40_limb_vector.md). None raises an error and none writes STATUS (R117). -/

namespace Sys2Proof.Machine

/-- PUT64 (R101): `L[rd][imm] <- din`, the other limbs unchanged. -/
def execPut64 (rd : VReg) (limb : Fin 4) (s : State) : Result :=
  complete (writeV s rd (withSlice (readV s rd) (64 * limb.val) s.din)) 0

/-- PUT32 (R102): 32-bit slice `imm` takes `din[31:0]`, every other bit unchanged. -/
def execPut32 (rd : VReg) (slice : Fin 8) (s : State) : Result :=
  complete (writeV s rd (withSlice (readV s rd) (32 * slice.val) (s.din.setWidth 32))) 0

/-- GET64 (R103): `dout <- L[ra][imm]`. -/
def execGet64 (ra : VReg) (limb : Fin 4) (s : State) : Result :=
  complete s (readLimb s ra limb.val)

/-- GET32 (R104): `dout <- zext_64` of 32-bit slice `imm`. -/
def execGet32 (ra : VReg) (slice : Fin 8) (s : State) : Result :=
  complete s ((slice32Of (readV s ra) slice.val).setWidth 64)

/-- MOV (R105): `Vw[rd] <- Vw[ra]`. -/
def execMov (w : Width) (rd ra : VReg) (s : State) : Result :=
  completeW s w rd (readW s w ra)

/-- AND (R106). -/
def execAnd (w : Width) (rd ra rb : VReg) (s : State) : Result :=
  completeW s w rd (readW s w ra &&& readW s w rb)

/-- OR (R107). -/
def execOr (w : Width) (rd ra rb : VReg) (s : State) : Result :=
  completeW s w rd (readW s w ra ||| readW s w rb)

/-- XOR (R108). -/
def execXor (w : Width) (rd ra rb : VReg) (s : State) : Result :=
  completeW s w rd (readW s w ra ^^^ readW s w rb)

/-- SHL (R109): `(Vw[ra] << imm) mod 2^B`; the count is never reduced modulo `B`. -/
def execShl (w : Width) (rd ra : VReg) (count : BitVec 12) (s : State) : Result :=
  completeW s w rd (readW s w ra <<< count.toNat)

/-- SHR (R110): `Vw[ra] >> imm`, logical. -/
def execShr (w : Width) (rd ra : VReg) (count : BitVec 12) (s : State) : Result :=
  completeW s w rd (readW s w ra >>> count.toNat)

/-- LADDC (R111): limb 0 takes the sum, limb 1 the carry as 0 or 1. -/
def execLaddc (rd ra rb : VReg) (cin : Bool) (s : State) : Result :=
  let r := addc (readLimb s ra 0) (readLimb s rb 0) cin
  completePair s rd ((BitVec.ofBool r.2).setWidth 64) r.1

/-- LSUBB (R112): limb 0 takes the difference, limb 1 the borrow as 0 or 1. -/
def execLsubb (rd ra rb : VReg) (bin : Bool) (s : State) : Result :=
  let r := subb (readLimb s ra 0) (readLimb s rb 0) bin
  completePair s rd ((BitVec.ofBool r.2).setWidth 64) r.1

/-- LMULW (R113): limb 0 takes the low half, limb 1 the high half of the product. -/
def execLmulw (rd ra rb : VReg) (s : State) : Result :=
  let r := mulw (readLimb s ra 0) (readLimb s rb 0)
  completePair s rd r.1 r.2

end Sys2Proof.Machine
end

