-- ==== Sys2Proof/Machine/Radix.lean ====
section
/-! DEFINITION. Integer and radix conversion (43_radix.md): FROMINT, TOSTR, FROMSTR. -/

namespace Sys2Proof.Machine

/-! Characters and digits (R181, R182). -/

/-- The code of `-`. -/
def minusCode : Byte := 0x2D

/-- The code of `.`. -/
def pointCode : Byte := 0x2E

/-- `dv(c)`: the digit value of a byte of `0-9a-z`; no other byte has one. -/
def digitValue (c : Byte) : Option Nat :=
  if 0x30 ≤ c.toNat ∧ c.toNat ≤ 0x39 then some (c.toNat - 0x30)
  else if 0x61 ≤ c.toNat ∧ c.toNat ≤ 0x7A then some (c.toNat - 0x61 + 10)
  else none

/-- `dc(v)`: the character of a digit value 0 to 35. -/
def digitChar (v : Nat) : Byte := BitVec.ofNat 8 (if v ≤ 9 then 0x30 + v else 0x61 + v - 10)

/-! Value to text. -/

/-- The loop of R184: at most `fuel` digits put in front of `ds`, until the quotient is zero. -/
def intDigitsLoop (b : Nat) : (fuel n : Nat) → (ds : List Nat) → List Nat
  | 0, _, ds => ds
  | fuel + 1, n, ds =>
    if n / b = 0 then n % b :: ds else intDigitsLoop b fuel (n / b) (n % b :: ds)

/-- `intdigits(n, b)` (R184), most significant first. For a base of 2 or more `log2 n + 1` digits are enough. -/
def intDigits (n b : Nat) : List Nat := intDigitsLoop b (Nat.log2 n + 1) n []

/-- The loop of R186 with `n` digits left: the digits and the last remainder. -/
def fracDigitsLoop (F b : Nat) : (n r : Nat) → List Nat × Nat
  | 0, r => ([], r)
  | n + 1, r =>
    if r = 0 then ([], 0)
    else
      let rest := fracDigitsLoop F b n (r * b % 2 ^ F)
      ((r * b) >>> F :: rest.1, rest.2)

/-- `fracdigits(f, b)` (R186): at most F digits, and whether the fraction was cut with a remainder. -/
def fracDigits (F f b : Nat) : List Nat × Bool :=
  let r := fracDigitsLoop F b F f
  (r.1, r.2 != 0)

/-- The text of a value (R185). -/
def valueText (w : Width) (b : Nat) (a : Nat) : List Byte :=
  let m := mag (bits w) a
  let fd := (fracDigits (fracBits w) (m % 2 ^ fracBits w) b).1
  (if signBit (bits w) a then [minusCode] else [])
    ++ (intDigits (m >>> fracBits w) b).map digitChar
    ++ (if fd = [] then [] else pointCode :: fd.map digitChar)

/-- The TRUNC bit of that text (R186). -/
def valueTextCut (w : Width) (b : Nat) (a : Nat) : Bool :=
  (fracDigits (fracBits w) (mag (bits w) a % 2 ^ fracBits w) b).2

/-! Text to value. -/

/-- A run of digits read: the number, `base^count`, the position after it, the bytes from there. -/
structure DigitRun where
  value : Nat
  den : Nat
  pos : Nat
  rest : List Byte
  deriving DecidableEq, Repr

/-- A digit loop of R189 from position `pos`: stops at the first byte with no digit value, raises at a digit not below the
base. -/
def scanDigits (b : Nat) (pos value den : Nat) : List Byte → Except Nat DigitRun
  | [] => .ok ⟨value, den, pos, []⟩
  | c :: cs =>
    match digitValue c with
    | none => .ok ⟨value, den, pos, c :: cs⟩
    | some v => if b ≤ v then .error pos else scanDigits b (pos + 1) (value * b + v) (den * b) cs

/-- What a scan yields (R189). -/
structure Scanned where
  neg : Bool
  acc : Nat
  num : Nat
  den : Nat
  pos : Nat
  deriving DecidableEq, Repr

/-- The optional `-`: whether it is there, and the bytes after it. -/
def scanSign : List Byte → Bool × List Byte
  | [] => (false, [])
  | c :: cs => if c = minusCode then (true, cs) else (false, c :: cs)

/-- The optional `.` and fraction digits from position `pos`: a `.` is consumed only before a byte of `0-9a-z`. -/
def scanFraction (b pos : Nat) (rest : List Byte) : Except Nat DigitRun :=
  match rest with
  | p :: c :: cs =>
    if p = pointCode ∧ (digitValue c).isSome then scanDigits b (pos + 1) 0 1 (c :: cs)
    else .ok ⟨0, 1, pos, rest⟩
  | _ => .ok ⟨0, 1, pos, rest⟩

/-- The scan of R189: what it yields, or the position of the ParseError. -/
def scan (b : Nat) (e : Bool) (text : List Byte) : Except Nat Scanned :=
  let start := scanSign text
  let pos0 := start.1.toNat
  match scanDigits b pos0 0 1 start.2 with
  | .error p => .error p
  | .ok int =>
    if int.pos = pos0 then .error pos0
    else
      match scanFraction b int.pos int.rest with
      | .error p => .error p
      | .ok frac =>
        if !e && frac.rest != [] then .error frac.pos
        else .ok ⟨start.1, int.value, frac.value, frac.den, frac.pos⟩

/-- The value of a scanned string (R191): the exact fraction brought to F bits with one round-half-up. -/
def scannedValue (w : Width) (r : Scanned) : Nat :=
  let fr := (2 * r.num * 2 ^ fracBits w + r.den) / (2 * r.den)
  withSign (bits w) r.neg (((r.acc <<< fracBits w) + fr) % 2 ^ bits w)

/-! The commands. -/

/-- FROMINT (R183): the 64-bit integer of limb 0, in units of `2^F`, reduced modulo `2^B`. -/
def execFromint (w : Width) (rd ra : VReg) (s : State) : Result :=
  completeW s w rd ((readLimb s ra 0).toNat <<< fracBits w)

/-- TOSTR (R185): the text at address 0, its length in TLEN, the cut in STATUS.TRUNC. -/
def execTostr (w : Width) (ra : VReg) (base : BitVec 6) (s : State) : Result :=
  if baseLegal base then
    let out := valueText w base.toNat (readW s w ra)
    match placeText s out with
    | none => .fault (.textAddress out.length)
    | some s' => complete (setTrunc (setTlen s' out.length) (valueTextCut w base.toNat (readW s w ra))) 0
  else raise s .illegalCommand

/-- FROMSTR (R190): the value of the string and the bytes consumed, or a ParseError that changes neither. -/
def execFromstr (w : Width) (rd : VReg) (base : BitVec 6) (e : Bool) (s : State) : Result :=
  if baseLegal base then
    match fetchText s with
    | none => .fault (.textAddress s.tlen.toNat)
    | some text =>
      match scan base.toNat e text with
      | .error pos => raise s (.parseError pos)
      | .ok r => complete (setTcons (writeW s w rd (scannedValue w r)) r.pos) 0
  else raise s .illegalCommand

end Sys2Proof.Machine
end

