-- ==== Sys2Proof/Machine/System.lean ====
section
/-! DEFINITION. The system commands (46_system.md): control-register and text-buffer access. -/

namespace Sys2Proof.Machine

/-- CSRR (R242): no state changes; reading STATUS does not clear it. -/
def execCsrr (csr : Csr) (s : State) : Result := complete s (csrWord s csr)

/-- CSRW (R243): STATUS is cleared whatever `din` holds; TLEN takes a `din` of at most 512; anything else is IllegalCommand. -/
def execCsrw (csr : Csr) (s : State) : Result :=
  match csr with
  | .status => complete (clearRecord s) 0
  | .epos => raise s .illegalCommand
  | .tlen =>
    if s.din.toNat ≤ Config.textCap then complete (setTlen s s.din.toNat) 0 else raise s .illegalCommand
  | .tcons => raise s .illegalCommand

/-- TLD (R244): `dout <- zext_64(TB[imm])`. -/
def execTld (addr : BitVec 9) (s : State) : Result :=
  complete s ((loadByte s.tb addr.toNat).setWidth 64)

/-- TST (R245): `TB[imm] <- din[7:0]`; TLEN is not changed. -/
def execTst (addr : BitVec 9) (s : State) : Result :=
  complete (setText s (storeByte s.tb addr.toNat (s.din.setWidth 8))) 0

end Sys2Proof.Machine
end

