-- ==== Sys2Proof/Machine/Dispatch.lean ====
section
/-! DEFINITION. One arm per command: each calls the meaning of its own. -/

namespace Sys2Proof.Machine

def exec (i : Instr) (s : State) : Host.Outcome State Fault Refusal :=
  match i with
  | .put64 rd limb => Sys2Proof.Machine.execPut64 rd limb s
  | .put32 rd slice => Sys2Proof.Machine.execPut32 rd slice s
  | .get64 ra limb => Sys2Proof.Machine.execGet64 ra limb s
  | .get32 ra slice => Sys2Proof.Machine.execGet32 ra slice s
  | .mov w rd ra => Sys2Proof.Machine.execMov w rd ra s
  | .and w rd ra rb => Sys2Proof.Machine.execAnd w rd ra rb s
  | .or w rd ra rb => Sys2Proof.Machine.execOr w rd ra rb s
  | .xor w rd ra rb => Sys2Proof.Machine.execXor w rd ra rb s
  | .shl w rd ra count => Sys2Proof.Machine.execShl w rd ra count s
  | .shr w rd ra count => Sys2Proof.Machine.execShr w rd ra count s
  | .laddc rd ra rb cin => Sys2Proof.Machine.execLaddc rd ra rb cin s
  | .lsubb rd ra rb bin => Sys2Proof.Machine.execLsubb rd ra rb bin s
  | .lmulw rd ra rb => Sys2Proof.Machine.execLmulw rd ra rb s
  | .add w rd ra rb => Sys2Proof.Machine.execAdd w rd ra rb s
  | .sub w rd ra rb => Sys2Proof.Machine.execSub w rd ra rb s
  | .neg w rd ra => Sys2Proof.Machine.execNeg w rd ra s
  | .mul w rd ra rb => Sys2Proof.Machine.execMul w rd ra rb s
  | .square w rd ra => Sys2Proof.Machine.execSquare w rd ra s
  | .div w rd ra rb => Sys2Proof.Machine.execDiv w rd ra rb s
  | .sqrt w rd ra => Sys2Proof.Machine.execSqrt w rd ra s
  | .lt w rd ra rb => Sys2Proof.Machine.execLt w rd ra rb s
  | .gt w rd ra rb => Sys2Proof.Machine.execGt w rd ra rb s
  | .le w rd ra rb => Sys2Proof.Machine.execLe w rd ra rb s
  | .ge w rd ra rb => Sys2Proof.Machine.execGe w rd ra rb s
  | .eq w rd ra rb => Sys2Proof.Machine.execEq w rd ra rb s
  | .ne w rd ra rb => Sys2Proof.Machine.execNe w rd ra rb s
  | .ltu w rd ra rb => Sys2Proof.Machine.execLtu w rd ra rb s
  | .gtu w rd ra rb => Sys2Proof.Machine.execGtu w rd ra rb s
  | .leu w rd ra rb => Sys2Proof.Machine.execLeu w rd ra rb s
  | .geu w rd ra rb => Sys2Proof.Machine.execGeu w rd ra rb s
  | .fromint w rd ra => Sys2Proof.Machine.execFromint w rd ra s
  | .tostr w ra base => Sys2Proof.Machine.execTostr w ra base s
  | .fromstr w rd base e => Sys2Proof.Machine.execFromstr w rd base e s
  | .todbl w rd ra => Sys2Proof.Machine.execTodbl w rd ra s
  | .fromdbl w rd ra => Sys2Proof.Machine.execFromdbl w rd ra s
  | .csrr csr => Sys2Proof.Machine.execCsrr csr s
  | .csrw csr => Sys2Proof.Machine.execCsrw csr s
  | .tld addr => Sys2Proof.Machine.execTld addr s
  | .tst addr => Sys2Proof.Machine.execTst addr s

end Sys2Proof.Machine
end

