-- ==== Sys2Proof/Machine/Step.lean ====
section
/-! DEFINITION. One step of the unit: the oldest event of the host, executed whole (70_reset_and_hazards.md R290, R296). -/

namespace Sys2Proof.Machine

/-- One step. With nothing on the port the unit is idle and nothing changes (assumption log 2). A word the decoder refuses
raises IllegalCommand (60_exceptions.md R264). -/
def step (s : State) : Result :=
  match s.port with
  | [] => .next s
  | .reset :: rest => .next (applyReset rest)
  | .command cmd din :: rest =>
    match decode cmd with
    | .error _ => raise (acceptCommand s rest din) .illegalCommand
    | .ok i => exec i (acceptCommand s rest din)

/-- The host's next event is the command of that table word, with `din = 0`; everything else is as it was (assumption log 1). -/
def State.withFetchWord (s : State) (nbits w : Nat) : State :=
  { s with port := .command (BitVec.ofNat 32 (w % 2 ^ nbits)) 0 :: s.port }

end Sys2Proof.Machine
end

