-- ==== Sys2Proof/Safety.lean ====
section
/-! DEFINITION. The words the statements are made of: the invariant of the unit's states, what a command leaves unchanged, what
an error entry is, the text in the buffer, and the value of a double. -/

namespace Sys2Proof.Machine

/-! The states of the unit. -/

/-- What holds of every state of the unit: the text buffer is in canonical form; TLEN, EPOS and TCONS are 0 to 512 (10_state.md R31
to R33); ERR is 0 to 4 (R30); EPOS is 0 unless a ParseError is recorded (R31); a response carries 0 to 4, and no data with an error
(30_encoding.md R70). -/
abbrev State.Wf (s : State) : Prop :=
  Memory.wf s.tb = true ∧ s.tlen.toNat ≤ 512 ∧ s.epos.toNat ≤ 512 ∧ s.tcons.toNat ≤ 512 ∧ s.err.toNat ≤ 4
    ∧ (s.err ≠ 1 → s.epos = 0) ∧ ∀ r ∈ s.response, r.err.toNat ≤ 4 ∧ (r.err ≠ 0 → r.dout = 0)

/-! What a command leaves unchanged. -/

/-- Every value register but `rd` as before. -/
def SameRegsBut (rd : VReg) (s t : State) : Prop := ∀ r, r ≠ rd → readV t r = readV s r

/-- Every value register as before. -/
def SameRegs (s t : State) : Prop := ∀ r, readV t r = readV s r

/-- Every byte of the text buffer reads as before. -/
def SameText (s t : State) : Prop := ∀ a, loadByte t.tb a = loadByte s.tb a

/-- STATUS and EPOS as before. -/
def SameRecord (s t : State) : Prop := t.err = s.err ∧ t.trunc = s.trunc ∧ t.epos = s.epos

/-- TLEN and TCONS as before. -/
def SameLengths (s t : State) : Prop := t.tlen = s.tlen ∧ t.tcons = s.tcons

/-- The host's events and the data word as before. -/
def SamePort (s t : State) : Prop := t.port = s.port ∧ t.din = s.din

/-- The command wrote register `rd` at most, and answered. -/
def WritesOnly (rd : VReg) (s t : State) : Prop :=
  SameRegsBut rd s t ∧ SameText s t ∧ SameRecord s t ∧ SameLengths s t ∧ SamePort s t

/-- The command answered and wrote nothing. -/
def WritesNothing (s t : State) : Prop :=
  SameRegs s t ∧ SameText s t ∧ SameRecord s t ∧ SameLengths s t ∧ SamePort s t

/-- The response of a command that completes with data word `d` (30_encoding.md R70). -/
def Answers (t : State) (d : Limb) : Prop := t.response = some ⟨d, 0⟩

/-- The command completes: `V[rd]` is the number `n` in all its 256 bits, `dout = 0`, and nothing else changes. -/
def CompletesWith (i : Instr) (s : State) (rd : VReg) (n : Nat) : Prop :=
  ∃ t, exec i s = .next t ∧ (readV t rd).toNat = n ∧ WritesOnly rd s t ∧ Answers t 0

/-- Error entry (60_exceptions.md R262): no register, no byte, not TLEN, TCONS, TRUNC; the response carries the code and
`dout = 0`; the record takes code and position if it was empty, else stays. -/
def ErrorEntry (s t : State) (code : BitVec 3) (pos : BitVec 10) : Prop :=
  SameRegs s t ∧ SameText s t ∧ SameLengths s t ∧ SamePort s t ∧ t.trunc = s.trunc
    ∧ t.response = some ⟨0, code⟩
    ∧ (s.err = 0 → t.err = code ∧ t.epos = pos) ∧ (s.err ≠ 0 → t.err = s.err ∧ t.epos = s.epos)

/-- The command raises the error of that code and position. -/
def RaisesError (i : Instr) (s : State) (code : BitVec 3) (pos : BitVec 10) : Prop :=
  ∃ t, exec i s = .next t ∧ ErrorEntry s t code pos

/-- Two states that differ at most in STATUS, EPOS and the last response. -/
def SameButRecord (s t : State) : Prop :=
  t.v = s.v ∧ t.tb = s.tb ∧ t.tlen = s.tlen ∧ t.tcons = s.tcons ∧ t.port = s.port ∧ t.din = s.din

/-! What a command reads and writes, from the formats (30_encoding.md R72) and 10_state.md R22 to R24. -/

/-- The registers a command reads, each with the number of its low bits that take part. -/
def sourceBits : Instr → List (VReg × Nat)
  | .put64 rd _ => [(rd, 256)]
  | .put32 rd _ => [(rd, 256)]
  | .get64 ra _ => [(ra, 256)]
  | .get32 ra _ => [(ra, 256)]
  | .mov w _ ra => [(ra, bits w)]
  | .and w _ ra rb => [(ra, bits w), (rb, bits w)]
  | .or w _ ra rb => [(ra, bits w), (rb, bits w)]
  | .xor w _ ra rb => [(ra, bits w), (rb, bits w)]
  | .shl w _ ra _ => [(ra, bits w)]
  | .shr w _ ra _ => [(ra, bits w)]
  | .laddc _ ra rb _ => [(ra, 64), (rb, 64)]
  | .lsubb _ ra rb _ => [(ra, 64), (rb, 64)]
  | .lmulw _ ra rb => [(ra, 64), (rb, 64)]
  | .add w _ ra rb => [(ra, bits w), (rb, bits w)]
  | .sub w _ ra rb => [(ra, bits w), (rb, bits w)]
  | .neg w _ ra => [(ra, bits w)]
  | .mul w _ ra rb => [(ra, bits w), (rb, bits w)]
  | .square w _ ra => [(ra, bits w)]
  | .div w _ ra rb => [(ra, bits w), (rb, bits w)]
  | .sqrt w _ ra => [(ra, bits w)]
  | .lt w _ ra rb => [(ra, bits w), (rb, bits w)]
  | .gt w _ ra rb => [(ra, bits w), (rb, bits w)]
  | .le w _ ra rb => [(ra, bits w), (rb, bits w)]
  | .ge w _ ra rb => [(ra, bits w), (rb, bits w)]
  | .eq w _ ra rb => [(ra, bits w), (rb, bits w)]
  | .ne w _ ra rb => [(ra, bits w), (rb, bits w)]
  | .ltu w _ ra rb => [(ra, bits w), (rb, bits w)]
  | .gtu w _ ra rb => [(ra, bits w), (rb, bits w)]
  | .leu w _ ra rb => [(ra, bits w), (rb, bits w)]
  | .geu w _ ra rb => [(ra, bits w), (rb, bits w)]
  | .fromint _ _ ra => [(ra, 64)]
  | .tostr w ra _ => [(ra, bits w)]
  | .fromstr _ _ _ _ => []
  | .todbl w _ ra => [(ra, bits w)]
  | .fromdbl _ _ ra => [(ra, 64)]
  | .csrr _ => []
  | .csrw _ => []
  | .tld _ => []
  | .tst _ => []

/-- The register a command writes. -/
def destination : Instr → Option VReg
  | .put64 rd _ => some rd
  | .put32 rd _ => some rd
  | .get64 _ _ => none
  | .get32 _ _ => none
  | .mov _ rd _ => some rd
  | .and _ rd _ _ => some rd
  | .or _ rd _ _ => some rd
  | .xor _ rd _ _ => some rd
  | .shl _ rd _ _ => some rd
  | .shr _ rd _ _ => some rd
  | .laddc rd _ _ _ => some rd
  | .lsubb rd _ _ _ => some rd
  | .lmulw rd _ _ => some rd
  | .add _ rd _ _ => some rd
  | .sub _ rd _ _ => some rd
  | .neg _ rd _ => some rd
  | .mul _ rd _ _ => some rd
  | .square _ rd _ => some rd
  | .div _ rd _ _ => some rd
  | .sqrt _ rd _ => some rd
  | .lt _ rd _ _ => some rd
  | .gt _ rd _ _ => some rd
  | .le _ rd _ _ => some rd
  | .ge _ rd _ _ => some rd
  | .eq _ rd _ _ => some rd
  | .ne _ rd _ _ => some rd
  | .ltu _ rd _ _ => some rd
  | .gtu _ rd _ _ => some rd
  | .leu _ rd _ _ => some rd
  | .geu _ rd _ _ => some rd
  | .fromint _ rd _ => some rd
  | .tostr _ _ _ => none
  | .fromstr _ rd _ _ => some rd
  | .todbl _ rd _ => some rd
  | .fromdbl _ rd _ => some rd
  | .csrr _ => none
  | .csrw _ => none
  | .tld _ => none
  | .tst _ => none

/-- The commands that use `din`: PUT64, PUT32, CSRW and TST (30_encoding.md R70). -/
def usesDin : Instr → Bool
  | .put64 _ _ => true
  | .put32 _ _ => true
  | .get64 _ _ => false
  | .get32 _ _ => false
  | .mov _ _ _ => false
  | .and _ _ _ _ => false
  | .or _ _ _ _ => false
  | .xor _ _ _ _ => false
  | .shl _ _ _ _ => false
  | .shr _ _ _ _ => false
  | .laddc _ _ _ _ => false
  | .lsubb _ _ _ _ => false
  | .lmulw _ _ _ => false
  | .add _ _ _ _ => false
  | .sub _ _ _ _ => false
  | .neg _ _ _ => false
  | .mul _ _ _ _ => false
  | .square _ _ _ => false
  | .div _ _ _ _ => false
  | .sqrt _ _ _ => false
  | .lt _ _ _ _ => false
  | .gt _ _ _ _ => false
  | .le _ _ _ _ => false
  | .ge _ _ _ _ => false
  | .eq _ _ _ _ => false
  | .ne _ _ _ _ => false
  | .ltu _ _ _ _ => false
  | .gtu _ _ _ _ => false
  | .leu _ _ _ _ => false
  | .geu _ _ _ _ => false
  | .fromint _ _ _ => false
  | .tostr _ _ _ => false
  | .fromstr _ _ _ _ => false
  | .todbl _ _ _ => false
  | .fromdbl _ _ _ => false
  | .csrr _ => false
  | .csrw _ => true
  | .tld _ => false
  | .tst _ => true

/-- Two states agree on all a command may read to find the value it writes (00_scope.md R11): its source bits; `din`, for a command
that uses it (30_encoding.md R70); the string of the text buffer, for FROMSTR (20_memory.md R51, R52). -/
def OperandsAgree (i : Instr) (s s' : State) : Prop :=
  (∀ p ∈ sourceBits i, (readV s' p.1).toNat % 2 ^ p.2 = (readV s p.1).toNat % 2 ^ p.2)
    ∧ (usesDin i = true → s'.din = s.din)
    ∧ (∀ w rd b e, i = .fromstr w rd b e → s'.tlen = s.tlen ∧ ∀ a < s.tlen.toNat, loadByte s'.tb a = loadByte s.tb a)

/-! Text. -/

/-- The string in the text buffer is `text`. -/
def TextIs (s : State) (text : List Byte) : Prop :=
  text.length ≤ 512 ∧ s.tlen.toNat = text.length ∧ ∀ k (h : k < text.length), loadByte s.tb k = text[k]

/-- The optional sign of the text format. -/
def signText (neg : Bool) : List Byte := if neg then [0x2D] else []

/-- The optional fraction of the text format. -/
def fractionText (fs : List Nat) : List Byte := if fs = [] then [] else 0x2E :: fs.map digitChar

/-- A text of the format of 43_radix.md R188: sign, integer digits `ds`, fraction digits `fs`. -/
def numeral (neg : Bool) (ds fs : List Nat) : List Byte := signText neg ++ ds.map digitChar ++ fractionText fs

/-- Digit values of a base. -/
def DigitsBelow (b : Nat) (ds : List Nat) : Prop := ∀ d ∈ ds, d < b

/-- The number of a list of digits, most significant first. -/
def numberOf (b : Nat) (ds : List Nat) : Nat := Nat.ofDigits b ds.reverse

/-- The pattern of a numeral (43_radix.md R191). -/
def numeralPattern (w : Width) (b : Nat) (neg : Bool) (ds fs : List Nat) : Nat :=
  let fr := (2 * numberOf b fs * 2 ^ fracBits w + b ^ fs.length) / (2 * b ^ fs.length)
  let mg := (numberOf b ds * 2 ^ fracBits w + fr) % 2 ^ bits w
  if neg then (2 ^ bits w - mg) % 2 ^ bits w else mg

/-! Doubles. -/

/-- The exponent field of a double, bits 62:52 (45_double.md R220). -/
def exponentField (d : Limb) : Nat := d.toNat / 2 ^ 52 % 2048

/-- The value of a double whose exponent field is below 2047 (45_double.md R220). -/
def doubleValue (d : Limb) : ℚ :=
  (if d.toNat < 2 ^ 63 then 1 else -1) *
    (if exponentField d = 0 then (d.toNat % 2 ^ 52 : ℕ) * (2 : ℚ) ^ (-1074 : ℤ)
     else (2 ^ 52 + d.toNat % 2 ^ 52 : ℕ) * (2 : ℚ) ^ ((exponentField d : ℤ) - 1075))

end Sys2Proof.Machine
end

