-- ==== Sys2Proof/Certificates/Slice0/Obligations.lean ====
section
/-! DEFINITION. The statements for the provers. Each cites in its docstring the rule of spec/ it comes from. -/

open Sys2Proof Sys2Proof.Machine

/-! ## Encoding (30_encoding.md) -/

/-- Decoding the word of a well-formed command gives the command, with every operand at every value its field admits. -/
def Obligations.DecodeOfEncodeGivesTheCommand : Prop :=
  ∀ i : Instr, i.wellFormed = true → decode (encode i) = .ok i

/-- R76: decoding is total; every word is exactly one command with legal fields, or illegal; no two commands share a word. Whether
a transaction is answered IllegalCommand depends on its word alone, but for CSRW to TLEN, which also looks at `din`. -/
def Obligations.EveryWordIsOneCommandOrIllegal : Prop :=
  ∀ w : CmdWord,
    ((∃ i : Instr, i.wellFormed = true ∧ encode i = w ∧ decode w = .ok i
        ∧ ∀ j : Instr, j.wellFormed = true → encode j = w → j = i)
      ∨ ((∀ i : Instr, i.wellFormed = true → encode i ≠ w) ∧ ∃ e, decode w = .error e))
    ∧ ∀ (s t : State) (din : Limb) (rest : List HostEvent), s.port = .command w din :: rest → step s = .next t →
        ((∃ d, t.response = some ⟨d, 4⟩) ↔ (∃ e, decode w = .error e) ∨ (w = 0xC4000002 ∧ 512 < din.toNat))

/-- R74, R75: the decoder accepts exactly the words that a row of the opcode table accepts, exactly one row accepts such a word,
and the row carries the mnemonic of the command decoded. -/
def Obligations.DecoderAgreesWithTheOpcodeTable : Prop :=
  ∀ w : CmdWord, (opcodeTable.filter fun r => r.accepts w).map OpRow.mnemonic =
    match decode w with
    | .ok i => [i.mnemonic]
    | .error _ => []

/-- R78: words the spec writes out, one of each format. -/
def Obligations.SpecExampleWordsDecode : Prop :=
  decode 0x40312000 = .ok (.add .fx64 3 1 2) ∧ decode 0x49440000 = .ok (.neg .fx128 4 4)
    ∧ decode 0x2A0100C0 = .ok (.shr .fx256 0 1 192) ∧ decode 0x34201000 = .ok (.lmulw 2 0 1)
    ∧ decode 0x2C201001 = .ok (.laddc 2 0 1 true) ∧ decode 0x04100000 = .ok (.put64 1 0)
    ∧ decode 0x0C030000 = .ok (.get64 3 0) ∧ decode 0x94010010 = .ok (.tostr .fx64 1 16)
    ∧ decode 0x9820004A = .ok (.fromstr .fx64 2 10 true) ∧ decode 0xC4000002 = .ok (.csrw .tlen)

/-! ## The step (30_encoding.md R70, 60_exceptions.md, 70_reset_and_hazards.md) -/

/-- R296: when the host's next event is a transaction whose word decodes, the step is that command executed at the state with the
event taken off the port and its data word at `din`. -/
def Obligations.StepRunsTheDecodedCommand : Prop :=
  ∀ (s : State) (cmd : CmdWord) (din : Limb) (rest : List HostEvent) (i : Instr),
    s.port = .command cmd din :: rest → decode cmd = .ok i →
      step s = exec i { s with port := rest, din := din }

/-- R264: what R75 calls illegal, a word that no row of the opcode table accepts (items 1 to 5) or CSRW to TLEN with `din > 512`
(item 5), raises IllegalCommand, whatever the state, and executes as nothing else. -/
def Obligations.IllegalWordRaisesIllegalCommand : Prop :=
  ∀ (s : State) (cmd : CmdWord) (din : Limb) (rest : List HostEvent),
    s.port = .command cmd din :: rest →
    (∀ r ∈ opcodeTable, r.accepts cmd = false) ∨ (cmd = 0xC4000002 ∧ 512 < din.toNat) →
      ∃ t, step s = .next t ∧ ErrorEntry { s with port := rest, din := din } t 4 0

/-- A command no legal word spells (a base outside 2 to 36, CSRW of a read-only register) raises IllegalCommand in its meaning
too. The model's choice, assumption log 9. -/
def Obligations.IllFormedCommandRaisesIllegalCommand : Prop :=
  ∀ (i : Instr) (s : State), i.wellFormed = false → RaisesError i s 4 0

/-- R36: after reset every piece of state holds zero. -/
def Obligations.ResetStateIsAllZero : Prop :=
  (∀ r, readV State.reset r = 0) ∧ (∀ a, loadByte State.reset.tb a = 0) ∧ State.reset.err = 0 ∧ State.reset.trunc = false
    ∧ State.reset.epos = 0 ∧ State.reset.tlen = 0 ∧ State.reset.tcons = 0

/-- R290: the reset, applied at any state, zeroes every register, every byte and every control register. What is left of the
host's events stays and no response stands: the model's choices, assumption log 3 and 5. -/
def Obligations.ResetEventClearsEverything : Prop :=
  ∀ (s : State) (rest : List HostEvent), s.port = .reset :: rest →
    ∃ t, step s = .next t ∧ (∀ r, readV t r = 0) ∧ (∀ a, loadByte t.tb a = 0) ∧ t.err = 0 ∧ t.trunc = false
      ∧ t.epos = 0 ∧ t.tlen = 0 ∧ t.tcons = 0 ∧ t.port = rest ∧ t.response = none

/-- The invariant holds at reset. -/
def Obligations.ResetStateIsWellFormed : Prop := State.Wf State.reset

/-- The invariant (R30 to R33, R50, R70, and the canonical form of the text buffer) is kept by every step. -/
def Obligations.EveryStepKeepsTheInvariant : Prop :=
  ∀ s t : State, State.Wf s → step s = .next t → State.Wf t

/-- R297, R262 item 4: no command can hang or stop the unit: from every state that meets the invariant a step gives a next state;
when the host's next event is a transaction, it is taken off the port and answered with one of the codes of R260. -/
def Obligations.EveryStepGoesOnAndAnswers : Prop :=
  ∀ s : State, State.Wf s →
    ∃ t, step s = .next t ∧
      ∀ cmd din rest, s.port = .command cmd din :: rest →
        t.port = rest ∧ ∃ r, t.response = some r ∧ r.err.toNat ≤ 4

/-- R262: a command that answers a non-zero code changes no value register, no byte, not TLEN, TCONS, TRUNC; gives `dout = 0`;
and is recorded exactly when no error was. The position recorded is 0 but for a ParseError. -/
def Obligations.RaisingCommandChangesOnlyTheRecord : Prop :=
  ∀ (s t : State) (cmd : CmdWord) (din : Limb) (rest : List HostEvent) (d : Limb) (code : BitVec 3),
    s.port = .command cmd din :: rest → step s = .next t → t.response = some ⟨d, code⟩ → code ≠ 0 →
      ∃ pos, ErrorEntry { s with port := rest, din := din } t code pos ∧ (code ≠ 1 → pos = 0)

/-- R30: a command that completes never changes ERR or EPOS, but for CSRW to STATUS; TRUNC is written by TOSTR and that clear
alone. -/
def Obligations.CompletedCommandKeepsTheRecord : Prop :=
  ∀ (i : Instr) (s t : State) (d : Limb), exec i s = .next t → Answers t d →
    (i ≠ .csrw .status → t.err = s.err ∧ t.epos = s.epos)
      ∧ ((∀ w ra b, i ≠ .tostr w ra b) → i ≠ .csrw .status → t.trunc = s.trunc)

/-- R260: which commands can answer which code. -/
def Obligations.ErrorCodesComeFromTheirCommands : Prop :=
  ∀ (i : Instr) (s t : State) (r : Response), exec i s = .next t → t.response = some r →
    (r.err = 1 → ∃ w rd b e, i = .fromstr w rd b e)
      ∧ (r.err = 2 → ∃ w rd ra rb, i = .div w rd ra rb)
      ∧ (r.err = 3 → (∃ w rd ra, i = .sqrt w rd ra) ∨ ∃ w rd ra, i = .fromdbl w rd ra)
      ∧ (r.err = 4 → i.wellFormed = false ∨ i = .csrw .tlen)
      ∧ r.err.toNat ≤ 4

/-- R52, R32, R33: TST and TOSTR alone write the text buffer, TST its one byte and TOSTR the bytes of its string; TOSTR and CSRW
alone write TLEN; FROMSTR alone writes TCONS. -/
def Obligations.WritersOfTextAndLengths : Prop :=
  ∀ (i : Instr) (s t : State), exec i s = .next t →
    ((∀ a, i ≠ .tst a) → (∀ w ra b, i ≠ .tostr w ra b) → SameText s t)
      ∧ (∀ a, i = .tst a → ∀ k, k ≠ a.toNat → loadByte t.tb k = loadByte s.tb k)
      ∧ (∀ w ra b, i = .tostr w ra b → ∀ k, (valueText w b.toNat (readW s w ra)).length ≤ k →
          loadByte t.tb k = loadByte s.tb k)
      ∧ ((∀ w ra b, i ≠ .tostr w ra b) → (∀ c, i ≠ .csrw c) → t.tlen = s.tlen)
      ∧ ((∀ w rd b e, i ≠ .fromstr w rd b e) → t.tcons = s.tcons)

/-- R268, R30: the error record does not steer. From two states that differ at most in STATUS, EPOS and the last response, every
command but CSRR of STATUS or EPOS gives next states that differ at most there, and the same response. -/
def Obligations.ErrorRecordDoesNotSteer : Prop :=
  ∀ (i : Instr) (s s' t : State), SameButRecord s s' → i ≠ .csrr .status → i ≠ .csrr .epos → exec i s = .next t →
    ∃ t', exec i s' = .next t' ∧ SameButRecord t t' ∧ t'.response = t.response

/-- R11, R23, R24, R70: what a command writes to its register, and the error it raises, depend on its operands alone: the low B bits
(or limb 0, or the whole register, as the command reads it) of its sources, `din` for the commands that use it, and for FROMSTR the
text and TLEN. -/
def Obligations.ResultDependsOnOperandsOnly : Prop :=
  ∀ (i : Instr) (s s' t : State), OperandsAgree i s s' → exec i s = .next t →
    ∃ t', exec i s' = .next t' ∧ t'.response.map Response.err = t.response.map Response.err
      ∧ (t.response.map Response.err = some 0 → ∀ rd, destination i = some rd → readV t' rd = readV t rd)

/-! ## Limb vector (40_limb_vector.md) -/

/-- R101, R102: PUT64 and PUT32 set the bits of their slice to `din` (its low 32 bits) and leave every other bit. -/
def Obligations.PutWritesItsSliceOnly : Prop :=
  ∀ (s : State) (rd : VReg),
    (∀ k : Fin 4, ∃ t, exec (.put64 rd k) s = .next t ∧ WritesOnly rd s t ∧ Answers t 0 ∧
      ∀ j < 256, (readV t rd).getLsbD j =
        if 64 * k.val ≤ j ∧ j < 64 * k.val + 64 then s.din.getLsbD (j - 64 * k.val) else (readV s rd).getLsbD j)
    ∧ ∀ k : Fin 8, ∃ t, exec (.put32 rd k) s = .next t ∧ WritesOnly rd s t ∧ Answers t 0 ∧
      ∀ j < 256, (readV t rd).getLsbD j =
        if 32 * k.val ≤ j ∧ j < 32 * k.val + 32 then s.din.getLsbD (j - 32 * k.val) else (readV s rd).getLsbD j

/-- R103, R104: GET64 and GET32 answer their slice, GET32 zero-extended, and change nothing. -/
def Obligations.GetReadsItsSlice : Prop :=
  ∀ (s : State) (ra : VReg),
    (∀ k : Fin 4, ∃ t d, exec (.get64 ra k) s = .next t ∧ WritesNothing s t ∧ Answers t d ∧
      d.toNat = (readV s ra).toNat / 2 ^ (64 * k.val) % 2 ^ 64)
    ∧ ∀ k : Fin 8, ∃ t d, exec (.get32 ra k) s = .next t ∧ WritesNothing s t ∧ Answers t d ∧
      d.toNat = (readV s ra).toNat / 2 ^ (32 * k.val) % 2 ^ 32

/-- R53: a value written with PUT32 into slices 2k and 2k+1 reads back with GET64 from limb k as the two, high slice first. -/
def Obligations.TwoPut32ReadBackAsOneLimb : Prop :=
  ∀ (s : State) (r : VReg) (k : Fin 4) (lo hi : Limb) (i j : Fin 8), i.val = 2 * k.val → j.val = 2 * k.val + 1 →
    ∃ t u x, exec (.put32 r i) { s with din := lo } = .next t ∧ exec (.put32 r j) { t with din := hi } = .next u
      ∧ exec (.get64 r k) u = .next x ∧ Answers x (hi.setWidth 32 ++ lo.setWidth 32)

/-- R105: MOV copies the low B bits and zeroes the bits above. -/
def Obligations.MovCopiesAtItsWidth : Prop :=
  ∀ (s : State) (w : Width) (rd ra : VReg), CompletesWith (.mov w rd ra) s rd (readW s w ra)

/-- R106, R107, R108: AND, OR and XOR bit by bit over B bits, every bit above zero. -/
def Obligations.BitwiseCommandsWorkBitByBit : Prop :=
  ∀ (s : State) (w : Width) (rd ra rb : VReg) (i : Instr) (f : Bool → Bool → Bool),
    (i = .and w rd ra rb ∧ f = Bool.and) ∨ (i = .or w rd ra rb ∧ f = Bool.or) ∨ (i = .xor w rd ra rb ∧ f = Bool.xor) →
      ∃ t, exec i s = .next t ∧ WritesOnly rd s t ∧ Answers t 0 ∧
        ∀ j, (readV t rd).getLsbD j = (decide (j < bits w) && f ((readV s ra).getLsbD j) ((readV s rb).getLsbD j))

/-- R109, R110: SHL and SHR move bit k to bit k+imm or k-imm whichever limbs they are in; zeros enter, bits past the ends are
lost, and a count of B or more gives 0. -/
def Obligations.ShiftsSpanLimbBoundaries : Prop :=
  ∀ (s : State) (w : Width) (rd ra : VReg) (n : BitVec 12),
    (∃ t, exec (.shl w rd ra n) s = .next t ∧ WritesOnly rd s t ∧ Answers t 0 ∧
      ∀ j, (readV t rd).getLsbD j =
        (decide (j < bits w) && decide (n.toNat ≤ j) && (readV s ra).getLsbD (j - n.toNat)))
    ∧ ∃ t, exec (.shr w rd ra n) s = .next t ∧ WritesOnly rd s t ∧ Answers t 0 ∧
      ∀ j, (readV t rd).getLsbD j = (decide (j + n.toNat < bits w) && (readV s ra).getLsbD (j + n.toNat))

/-- R114, R115, R116: the limb cells lose nothing: sum and carry are `x + y + c`, difference and borrow are `x - y - b`, the limb
pair is `x * y`; the carry is 1 exactly when the sum reaches `2^64`, the borrow exactly when `x < y + b`. -/
def Obligations.LimbCellsAreExact : Prop :=
  ∀ (x y : Limb) (c : Bool),
    ((addc x y c).1.toNat + (addc x y c).2.toNat * 2 ^ 64 = x.toNat + y.toNat + c.toNat)
      ∧ ((x.toNat : Int) - y.toNat - c.toNat = (subb x y c).1.toNat - (subb x y c).2.toNat * 2 ^ 64)
      ∧ ((subb x y c).2 = true ↔ x.toNat < y.toNat + c.toNat)
      ∧ ((mulw x y).1.toNat * 2 ^ 64 + (mulw x y).2.toNat = x.toNat * y.toNat)

/-- R111: LADDC puts the sum in limb 0 and the carry in limb 1: the register is the exact sum `x + y + c`. -/
def Obligations.LaddcDeliversSumAndCarry : Prop :=
  ∀ (s : State) (rd ra rb : VReg) (c : Bool),
    CompletesWith (.laddc rd ra rb c) s rd ((readV s ra).toNat % 2 ^ 64 + (readV s rb).toNat % 2 ^ 64 + c.toNat)

/-- R112: LSUBB puts the difference modulo `2^64` in limb 0 and the borrow as 0 or 1 in limb 1. -/
def Obligations.LsubbDeliversDifferenceAndBorrow : Prop :=
  ∀ (s : State) (rd ra rb : VReg) (b : Bool) (x y : Nat), x = (readV s ra).toNat % 2 ^ 64 → y = (readV s rb).toNat % 2 ^ 64 →
    CompletesWith (.lsubb rd ra rb b) s rd
      (if x < y + b.toNat then 2 ^ 64 + (2 ^ 64 + x - (y + b.toNat)) else x - (y + b.toNat))

/-- R113: LMULW puts the exact product of the two limbs in limbs 1 and 0. -/
def Obligations.LmulwDeliversTheProduct : Prop :=
  ∀ (s : State) (rd ra rb : VReg),
    CompletesWith (.lmulw rd ra rb) s rd ((readV s ra).toNat % 2 ^ 64 * ((readV s rb).toNat % 2 ^ 64))

/-! ## Arithmetic (41_arithmetic.md) -/

/-- R131: ADD is the sum modulo `2^B`, and so is the ripple of `addc` over the limbs with the last carry dropped. -/
def Obligations.AddIsTheRippleSum : Prop :=
  ∀ (s : State) (w : Width) (rd ra rb : VReg),
    CompletesWith (.add w rd ra rb) s rd ((readW s w ra + readW s w rb) % 2 ^ bits w)
      ∧ ofLimbs (rippleAdd false (limbsOf (limbCount w) (readW s w ra)) (limbsOf (limbCount w) (readW s w rb))).1
        = (readW s w ra + readW s w rb) % 2 ^ bits w

/-- R132: SUB is the difference modulo `2^B`, and so is the ripple of `subb` over the limbs with the last borrow dropped. -/
def Obligations.SubIsTheRippleDifference : Prop :=
  ∀ (s : State) (w : Width) (rd ra rb : VReg),
    CompletesWith (.sub w rd ra rb) s rd ((2 ^ bits w + readW s w ra - readW s w rb) % 2 ^ bits w)
      ∧ ofLimbs (rippleSub false (limbsOf (limbCount w) (readW s w ra)) (limbsOf (limbCount w) (readW s w rb))).1
        = (2 ^ bits w + readW s w ra - readW s w rb) % 2 ^ bits w

/-- R133: NEG is the two's complement: complement plus 1, the pattern whose sum with the operand is 0; 0 and the minimum value map
to themselves. -/
def Obligations.NegIsTheTwosComplement : Prop :=
  ∀ (s : State) (w : Width) (rd ra : VReg) (n : Nat), n = ((2 ^ bits w - 1) ^^^ readW s w ra) + 1 →
    CompletesWith (.neg w rd ra) s rd (n % 2 ^ bits w)
      ∧ (readW s w ra + n % 2 ^ bits w) % 2 ^ bits w = 0
      ∧ (readW s w ra = 0 → n % 2 ^ bits w = 0)
      ∧ (readW s w ra = 2 ^ (bits w - 1) → n % 2 ^ bits w = 2 ^ (bits w - 1))

/-- 41_arithmetic.md section 3: the schoolbook multiply of R134 gives the exact product, a number below `2^(2B)`, as the spec derives
there: no carry is dropped between columns. -/
def Obligations.WideProductIsExact : Prop :=
  ∀ (w : Width) (x y : Nat), x < 2 ^ bits w → y < 2 ^ bits w →
    wideProd (limbCount w) x y = x * y ∧ wideProd (limbCount w) x y < 2 ^ (2 * bits w)

/-- R135: MUL is the product of the magnitudes with its low F bits cut off, plus 1 when the highest of them was 1, modulo `2^B`,
negated when the signs differ. -/
def Obligations.MulRoundsTheMagnitudeProduct : Prop :=
  ∀ (s : State) (w : Width) (rd ra rb : VReg) (a b p r : Nat), a = readW s w ra → b = readW s w rb →
    p = mag (bits w) a * mag (bits w) b →
    r = (p / 2 ^ fracBits w + p / 2 ^ (fracBits w - 1) % 2) % 2 ^ bits w →
      CompletesWith (.mul w rd ra rb) s rd
        (if signBit (bits w) a = signBit (bits w) b then r else (2 ^ bits w - r) % 2 ^ bits w)

/-- R137: SQUARE is the product of the operand with itself, never negated. -/
def Obligations.SquareRoundsTheSquaredMagnitude : Prop :=
  ∀ (s : State) (w : Width) (rd ra : VReg) (m : Nat), m = mag (bits w) (readW s w ra) →
    CompletesWith (.square w rd ra) s rd ((m * m / 2 ^ fracBits w + m * m / 2 ^ (fracBits w - 1) % 2) % 2 ^ bits w)

/-- R138 and the glossary: where the rounded product fits, MUL gives a nearest representable value, in the signed reading. A positive
product fits when it rounds below `2^(B-1)`, one of operands whose signs differ also when it rounds to the minimum value. -/
def Obligations.MulIsNearestWhereItFits : Prop :=
  ∀ (s t : State) (w : Width) (rd ra rb : VReg) (a b p : Nat), exec (.mul w rd ra rb) s = .next t →
    a = readW s w ra → b = readW s w rb → p = mag (bits w) a * mag (bits w) b + 2 ^ (fracBits w - 1) →
    p < 2 ^ (bits w - 1) * 2 ^ fracBits w
      ∨ (signBit (bits w) a ≠ signBit (bits w) b ∧ p < (2 ^ (bits w - 1) + 1) * 2 ^ fracBits w) →
      2 * |sval (bits w) (readW t w rd) * 2 ^ fracBits w - sval (bits w) a * sval (bits w) b| ≤ 2 ^ fracBits w

/-- R136: DIV by a non-zero divisor is the floor quotient of the magnitudes at scale `2^F`, plus at FX64 the first bit cut off,
modulo `2^B`, negated when the signs differ. -/
def Obligations.DivIsTheScaledQuotient : Prop :=
  ∀ (s : State) (w : Width) (rd ra rb : VReg) (a b q r : Nat), a = readW s w ra → b = readW s w rb → b ≠ 0 →
    q = mag (bits w) a * 2 ^ fracBits w / mag (bits w) b →
    r = (q + if w = .fx64 ∧ 2 * (mag (bits w) a * 2 ^ fracBits w % mag (bits w) b) ≥ mag (bits w) b then 1 else 0)
          % 2 ^ bits w →
      CompletesWith (.div w rd ra rb) s rd
        (if signBit (bits w) a = signBit (bits w) b then r else (2 ^ bits w - r) % 2 ^ bits w)

/-- R266: DIV raises DivideByZero when the divisor's low B bits are all zero, whatever the dividend, and completes otherwise. -/
def Obligations.DivideByZeroIsDecidedByTheDivisor : Prop :=
  ∀ (s : State) (w : Width) (rd ra rb : VReg),
    (readW s w rb = 0 → RaisesError (.div w rd ra rb) s 2 0)
      ∧ (readW s w rb ≠ 0 → ∃ t, exec (.div w rd ra rb) s = .next t ∧ Answers t 0)

/-! ## Comparison (42_compare.md) -/

/-- R161, R163 to R168: the signed relations and the equalities compare the low B bits read as two's complement. -/
def Obligations.SignedRelationsCompareAsIntegers : Prop :=
  ∀ (s : State) (w : Width) (rd ra rb : VReg) (x y : Int),
    x = ((readV s ra).setWidth (bits w)).toInt → y = ((readV s rb).setWidth (bits w)).toInt →
      CompletesWith (.lt w rd ra rb) s rd (if x < y then 1 else 0)
        ∧ CompletesWith (.gt w rd ra rb) s rd (if y < x then 1 else 0)
        ∧ CompletesWith (.le w rd ra rb) s rd (if x ≤ y then 1 else 0)
        ∧ CompletesWith (.ge w rd ra rb) s rd (if y ≤ x then 1 else 0)
        ∧ CompletesWith (.eq w rd ra rb) s rd (if x = y then 1 else 0)
        ∧ CompletesWith (.ne w rd ra rb) s rd (if x = y then 0 else 1)

/-- R162, R169 to R172: the unsigned relations compare the low B bits read as natural numbers. -/
def Obligations.UnsignedRelationsComparePatterns : Prop :=
  ∀ (s : State) (w : Width) (rd ra rb : VReg) (x y : Nat),
    x = ((readV s ra).setWidth (bits w)).toNat → y = ((readV s rb).setWidth (bits w)).toNat →
      CompletesWith (.ltu w rd ra rb) s rd (if x < y then 1 else 0)
        ∧ CompletesWith (.gtu w rd ra rb) s rd (if y < x then 1 else 0)
        ∧ CompletesWith (.leu w rd ra rb) s rd (if x ≤ y then 1 else 0)
        ∧ CompletesWith (.geu w rd ra rb) s rd (if y ≤ x then 1 else 0)

/-- R160: both orders are total orders on the patterns, equality is the same in both and is pattern equality, they agree on equal
signs and diverge as stated when one sign is set. -/
def Obligations.TheTwoOrdersAgreeOnEqualSigns : Prop :=
  ∀ (w : Width) (a b c : Nat), a < 2 ^ bits w → b < 2 ^ bits w → c < 2 ^ bits w →
    (scmp (bits w) a b = .eq ↔ a = b) ∧ (ucmp a b = .eq ↔ a = b)
      ∧ scmp (bits w) b a = (scmp (bits w) a b).swap ∧ ucmp b a = (ucmp a b).swap
      ∧ (scmp (bits w) a b = .lt → scmp (bits w) b c = .lt → scmp (bits w) a c = .lt)
      ∧ (ucmp a b = .lt → ucmp b c = .lt → ucmp a c = .lt)
      ∧ (signBit (bits w) a = signBit (bits w) b → scmp (bits w) a b = ucmp a b)
      ∧ (signBit (bits w) a = true → signBit (bits w) b = false → scmp (bits w) a b = .lt ∧ ucmp a b = .gt)

/-! ## Radix conversion (43_radix.md) -/

/-- R183: FROMINT gives `(n mod 2^I) << F` of the integer in limb 0. -/
def Obligations.FromintScalesTheLowIntegerBits : Prop :=
  ∀ (s : State) (w : Width) (rd ra : VReg),
    CompletesWith (.fromint w rd ra) s rd ((readV s ra).toNat % 2 ^ 64 % 2 ^ intBits w * 2 ^ fracBits w)

/-- R184: the integer digits are the numeral of the number in the base: digits below the base that spell it, [0] for zero, and no
leading zero and `floor(log_b n) + 1` of them otherwise. -/
def Obligations.IntegerDigitsAreTheNumeral : Prop :=
  ∀ n b : Nat, 2 ≤ b →
    DigitsBelow b (intDigits n b) ∧ numberOf b (intDigits n b) = n ∧ (n = 0 → intDigits n b = [0])
      ∧ (n ≠ 0 → (∃ d ds, intDigits n b = d :: ds ∧ d ≠ 0) ∧ (intDigits n b).length = Nat.log b n + 1)

/-- R186: the fraction digits are digits below the base, at most F of them, none exactly when the fraction is zero; they are the
expansion cut off. As the spec derives there, for an even base they are exact, end in no zero and are not cut; for an odd base and a
non-zero fraction there are exactly F and the cut is reported. -/
def Obligations.FractionDigitsAreExactOrCut : Prop :=
  ∀ F f b : Nat, 2 ≤ b → f < 2 ^ F →
    DigitsBelow b (fracDigits F f b).1 ∧ (fracDigits F f b).1.length ≤ F ∧ ((fracDigits F f b).1 = [] ↔ f = 0)
      ∧ numberOf b (fracDigits F f b).1 = f * b ^ (fracDigits F f b).1.length / 2 ^ F
      ∧ (Even b → (fracDigits F f b).2 = false
          ∧ numberOf b (fracDigits F f b).1 * 2 ^ F = f * b ^ (fracDigits F f b).1.length
          ∧ (fracDigits F f b).1.getLast? ≠ some 0)
      ∧ (Odd b → f ≠ 0 → (fracDigits F f b).2 = true ∧ (fracDigits F f b).1.length = F)

/-- R185: TOSTR completes for every value in every legal base: its text at address 0 and in TLEN, the cut in TRUNC, every byte above
and every register as before; over a text buffer in canonical form.
The character codes are those of R181, assumption log 11. -/
def Obligations.TostrPlacesTheText : Prop :=
  ∀ (s : State) (w : Width) (ra : VReg) (base : BitVec 6) (b a m : Nat) (text : List Byte),
    Memory.wf s.tb = true → b = base.toNat → 2 ≤ b → b ≤ 36 → a = readW s w ra → m = mag (bits w) a →
    text = numeral (signBit (bits w) a) (intDigits (m / 2 ^ fracBits w) b)
      (fracDigits (fracBits w) (m % 2 ^ fracBits w) b).1 →
      ∃ t, exec (.tostr w ra base) s = .next t ∧ TextIs t text
        ∧ (∀ k, text.length ≤ k → loadByte t.tb k = loadByte s.tb k)
        ∧ t.trunc = (fracDigits (fracBits w) (m % 2 ^ fracBits w) b).2
        ∧ SameRegs s t ∧ t.err = s.err ∧ t.epos = s.epos ∧ t.tcons = s.tcons ∧ SamePort s t ∧ Answers t 0

/-- 43_radix.md section 3, a bound the spec marks as derived (R187): TOSTR completes and writes at most B+1 bytes; of a non-negative
value at most B; of the minimum value at most I+1, and in base 2 just that many. All fit the buffer. -/
def Obligations.TostrLengthBound : Prop :=
  ∀ (s : State) (w : Width) (ra : VReg) (base : BitVec 6), 2 ≤ base.toNat → base.toNat ≤ 36 →
    ∃ t, exec (.tostr w ra base) s = .next t ∧ Answers t 0 ∧ t.tlen.toNat ≤ bits w + 1 ∧ bits w + 1 ≤ 257
      ∧ (∀ k, t.tlen.toNat ≤ k → loadByte t.tb k = loadByte s.tb k)
      ∧ (readW s w ra < 2 ^ (bits w - 1) → t.tlen.toNat ≤ bits w)
      ∧ (readW s w ra = 2 ^ (bits w - 1) → t.tlen.toNat ≤ intBits w + 1
          ∧ (base = 2 → t.tlen.toNat = intBits w + 1))

/-- R188 to R191: FROMSTR accepts every text of the format, with or without `e`: the exact value of the numeral with one
round-half-up of its fraction, all of the text consumed, nothing else changed.
The character codes are those of R181, assumption log 11. -/
def Obligations.FromstrReadsEveryNumeral : Prop :=
  ∀ (s : State) (w : Width) (rd : VReg) (base : BitVec 6) (e neg : Bool) (b : Nat) (ds fs : List Nat),
    b = base.toNat → 2 ≤ b → b ≤ 36 → ds ≠ [] → DigitsBelow b ds → DigitsBelow b fs → TextIs s (numeral neg ds fs) →
      ∃ t, exec (.fromstr w rd base e) s = .next t ∧ (readV t rd).toNat = numeralPattern w b neg ds fs
        ∧ t.tcons.toNat = (numeral neg ds fs).length ∧ t.tlen = s.tlen
        ∧ SameRegsBut rd s t ∧ SameText s t ∧ SameRecord s t ∧ SamePort s t ∧ Answers t 0

/-- R189: with `e` a numeral may be followed by more, left unconsumed: by a byte outside the digit alphabet, a point included unless
it would start a fraction, and anything after it; without `e` that byte is a ParseError at its position.
The character codes are those of R181, assumption log 11. -/
def Obligations.FromstrStopsAtTrailingBytes : Prop :=
  ∀ (s : State) (w : Width) (rd : VReg) (base : BitVec 6) (e neg : Bool) (b : Nat) (ds fs : List Nat) (c : Byte)
    (rest : List Byte),
    b = base.toNat → 2 ≤ b → b ≤ 36 → ds ≠ [] → DigitsBelow b ds → DigitsBelow b fs → digitValue c = none →
    (fs = [] → c = 0x2E → ∀ d ∈ rest.head?, digitValue d = none) → TextIs s (numeral neg ds fs ++ c :: rest) →
      if e = true then
        ∃ t, exec (.fromstr w rd base e) s = .next t ∧ (readV t rd).toNat = numeralPattern w b neg ds fs
          ∧ t.tcons.toNat = (numeral neg ds fs).length ∧ t.tlen = s.tlen
          ∧ SameRegsBut rd s t ∧ SameText s t ∧ SameRecord s t ∧ SamePort s t ∧ Answers t 0
      else RaisesError (.fromstr w rd base e) s 1 (BitVec.ofNat 10 (numeral neg ds fs).length)

/-- R189, R265: no digit where the first is expected is a ParseError there (at 0, or at 1 after a `-`), with or without `e`.
The character codes are those of R181, assumption log 11. -/
def Obligations.FromstrWithoutDigitsRaisesParseError : Prop :=
  ∀ (s : State) (w : Width) (rd : VReg) (base : BitVec 6) (e neg : Bool) (text : List Byte),
    2 ≤ base.toNat → base.toNat ≤ 36 → (∀ c ∈ text.head?, digitValue c = none ∧ (neg = false → c ≠ 0x2D)) →
    TextIs s (signText neg ++ text) →
      RaisesError (.fromstr w rd base e) s 1 (if neg then 1 else 0)

/-- R189, R265: a byte of the alphabet whose value is not below the base, where an integer or a fraction digit could stand, is a
ParseError at its position, with or without `e`.
The character codes are those of R181, assumption log 11. -/
def Obligations.FromstrDigitOutOfRangeRaisesParseError : Prop :=
  ∀ (s : State) (w : Width) (rd : VReg) (base : BitVec 6) (e neg : Bool) (b v : Nat) (pre ds fs : List Nat)
    (before : List Byte) (c : Byte) (rest : List Byte),
    b = base.toNat → 2 ≤ b → b ≤ 36 → DigitsBelow b pre → ds ≠ [] → DigitsBelow b ds → DigitsBelow b fs →
    digitValue c = some v → b ≤ v →
    (before = signText neg ++ pre.map digitChar ∨
      before = signText neg ++ ds.map digitChar ++ 0x2E :: fs.map digitChar) →
    TextIs s (before ++ c :: rest) →
      RaisesError (.fromstr w rd base e) s 1 (BitVec.ofNat 10 before.length)

/-- 43_radix.md section 4, a property the spec marks as derived (R192): TOSTR of a value in a base, then FROMSTR in
that base with `e = 0`, completes without error and yields the value; over a text buffer in canonical form. -/
def Obligations.RoundTripThroughText : Prop :=
  ∀ (s : State) (w : Width) (rd ra : VReg) (base : BitVec 6),
    Memory.wf s.tb = true → 2 ≤ base.toNat → base.toNat ≤ 36 →
      ∃ t u, exec (.tostr w ra base) s = .next t ∧ Answers t 0 ∧ exec (.fromstr w rd base false) t = .next u ∧ Answers u 0
        ∧ (readV u rd).toNat = readW s w ra

/-! ## Square root (44_sqrt.md) -/

/-- 44_sqrt.md, a closed form the spec marks as derived (R213): the digit-by-digit scan of R211 gives `isqrt(a << (F+2))` in units
of `2^(F-1)`. -/
def Obligations.SqrtScanIsTheIntegerRoot : Prop :=
  ∀ (w : Width) (a : Nat), a < 2 ^ (bits w - 1) →
    sqrtWide w a = Nat.sqrt (a * 2 ^ (fracBits w + 2)) * 2 ^ (fracBits w - 1)

/-- R212: SQRT of a non-negative value: the integer root of R213, rounded to nearest at FX64, cut down at FX128 and FX256. -/
def Obligations.SqrtRoundsAtFx64AndCutsElsewhere : Prop :=
  ∀ (s : State) (w : Width) (rd ra : VReg) (k : Nat), readW s w ra < 2 ^ (bits w - 1) →
    k = Nat.sqrt (readW s w ra * 2 ^ (fracBits w + 2)) →
      CompletesWith (.sqrt w rd ra) s rd (if w = .fx64 then (k + 1) / 2 else k / 2)

/-- 90_conflicts.md C4: SQRT of an exact square is its root at every width. -/
def Obligations.SqrtOfExactSquareIsTheRoot : Prop :=
  ∀ (s : State) (w : Width) (rd ra : VReg) (r : Nat), r * r = readW s w ra * 2 ^ fracBits w →
    readW s w ra < 2 ^ (bits w - 1) → CompletesWith (.sqrt w rd ra) s rd r

/-! ## Double conversion (45_double.md) -/

/-- R222: TODBL gives +0.0 for zero; else a normal double of the value's sign, at most half a unit of its 53-bit significand away
from the value, and not below it in magnitude at exactly half: the nearest double, ties away from zero.
The layout is that of R220, assumption log 11. -/
def Obligations.TodblIsNearestTiesAway : Prop :=
  ∀ (s : State) (w : Width) (rd ra : VReg) (a m h : Nat), a = readW s w ra → m = mag (bits w) a → h = bitlen m →
    ∃ (t : State) (d : Limb), exec (.todbl w rd ra) s = .next t ∧ (readV t rd).toNat = d.toNat ∧ WritesOnly rd s t ∧ Answers t 0
      ∧ (a = 0 → d = 0)
      ∧ (a ≠ 0 → 1 ≤ exponentField d ∧ exponentField d ≤ 2046
          ∧ (signBit (bits w) a = true ↔ 2 ^ 63 ≤ d.toNat)
          ∧ |doubleValue d * 2 ^ fracBits w - sval (bits w) a| * 2 ^ 54 ≤ 2 ^ h
          ∧ (|doubleValue d * 2 ^ fracBits w - sval (bits w) a| * 2 ^ 54 = 2 ^ h →
              (m : ℚ) ≤ |doubleValue d| * 2 ^ fracBits w))

/-- R225: FROMDBL of a finite double is `floor(|x| * 2^F)` modulo `2^B`, negated when the sign bit is set.
The layout is that of R220, assumption log 11. -/
def Obligations.FromdblCutsTowardZero : Prop :=
  ∀ (s : State) (w : Width) (rd ra : VReg) (d : Limb) (r : Nat), d = readLimb s ra 0 → exponentField d ≠ 2047 →
    r = ⌊|doubleValue d| * 2 ^ fracBits w⌋₊ % 2 ^ bits w →
      CompletesWith (.fromdbl w rd ra) s rd (if d.toNat < 2 ^ 63 then r else (2 ^ bits w - r) % 2 ^ bits w)

/-- R267: SQRT raises DomainError exactly when bit B-1 of its operand is 1, FROMDBL exactly when the exponent field is 2047; either
completes otherwise. -/
def Obligations.DomainErrorIsDecidedByTheOperand : Prop :=
  ∀ (s : State) (w : Width) (rd ra : VReg),
    ((readV s ra).getLsbD (bits w - 1) = true → RaisesError (.sqrt w rd ra) s 3 0)
      ∧ ((readV s ra).getLsbD (bits w - 1) = false → ∃ t, exec (.sqrt w rd ra) s = .next t ∧ Answers t 0)
      ∧ (exponentField (readLimb s ra 0) = 2047 → RaisesError (.fromdbl w rd ra) s 3 0)
      ∧ (exponentField (readLimb s ra 0) ≠ 2047 → ∃ t, exec (.fromdbl w rd ra) s = .next t ∧ Answers t 0)

/-- 45_double.md section 3, a bound the spec marks as derived (R226): FROMDBL then TODBL of a finite double below
`2^(I-1)` in magnitude gives a double less than `2^-F` away.
The layout is that of R220, assumption log 11. -/
def Obligations.DoubleRoundTripBound : Prop :=
  ∀ (s : State) (w : Width) (rv rd ra : VReg) (x : Limb), x = readLimb s ra 0 → exponentField x ≠ 2047 →
    |doubleValue x| < 2 ^ (intBits w - 1) →
      ∃ t u, exec (.fromdbl w rv ra) s = .next t ∧ Answers t 0 ∧ exec (.todbl w rd rv) t = .next u ∧ Answers u 0
        ∧ |doubleValue (readLimb u rd 0) - doubleValue x| * 2 ^ fracBits w < 1

/-! ## System commands (46_system.md) -/

/-- R242: CSRR answers the register and changes nothing: STATUS is ERR plus 8 times TRUNC, the others their ten bits. -/
def Obligations.CsrrAnswersTheRegister : Prop :=
  ∀ (s : State) (c : Csr), ∃ t d, exec (.csrr c) s = .next t ∧ WritesNothing s t ∧ Answers t d ∧
    d.toNat = match c with
      | .status => s.err.toNat + 8 * s.trunc.toNat
      | .epos => s.epos.toNat
      | .tlen => s.tlen.toNat
      | .tcons => s.tcons.toNat

/-- R243: CSRW to STATUS clears ERR, TRUNC and EPOS whatever `din` holds; CSRW to TLEN takes a `din` of at most 512 and raises
IllegalCommand above; CSRW to EPOS or TCONS raises IllegalCommand. -/
def Obligations.CsrwWritesStatusAndTlenOnly : Prop :=
  ∀ s : State,
    (∃ t, exec (.csrw .status) s = .next t ∧ t.err = 0 ∧ t.trunc = false ∧ t.epos = 0 ∧ SameRegs s t ∧ SameText s t
        ∧ SameLengths s t ∧ SamePort s t ∧ Answers t 0)
      ∧ (s.din.toNat ≤ 512 → ∃ t, exec (.csrw .tlen) s = .next t ∧ t.tlen.toNat = s.din.toNat ∧ t.tcons = s.tcons
        ∧ SameRegs s t ∧ SameText s t ∧ SameRecord s t ∧ SamePort s t ∧ Answers t 0)
      ∧ (512 < s.din.toNat → RaisesError (.csrw .tlen) s 4 0)
      ∧ RaisesError (.csrw .epos) s 4 0 ∧ RaisesError (.csrw .tcons) s 4 0

/-- R244, R245: TST stores `din[7:0]` at its address and nowhere else (over a text buffer in canonical form); TLD answers the byte of
its address, zero-extended, and changes nothing. -/
def Obligations.TextBytesAreStoredAndLoaded : Prop :=
  ∀ (s : State) (a : BitVec 9),
    (Memory.wf s.tb = true → ∃ t, exec (.tst a) s = .next t ∧ (loadByte t.tb a.toNat).toNat = s.din.toNat % 256
        ∧ (∀ k, k ≠ a.toNat → loadByte t.tb k = loadByte s.tb k)
        ∧ SameRegs s t ∧ SameRecord s t ∧ SameLengths s t ∧ SamePort s t ∧ Answers t 0)
      ∧ ∃ t d, exec (.tld a) s = .next t ∧ WritesNothing s t ∧ Answers t d ∧ d.toNat = (loadByte s.tb a.toNat).toNat
end

