-- ==== Sys2Proof/Laws/Encoding.lean ====
section
/-! SUPPORT. The fields of a command word: packing and reading them are inverse, and a mask acts on a packed word field by field. -/

namespace Sys2Proof

theorem toNat_append_add {n m : Nat} (x : BitVec n) (y : BitVec m) : (x ++ y).toNat = x.toNat * 2 ^ m + y.toNat := by
  rw [BitVec.toNat_append, ← Nat.shiftLeft_add_eq_or_of_lt y.isLt, Nat.shiftLeft_eq]

/-- A packed word as a number (30_encoding.md R74). -/
theorem packWord_toNat (f : Fields) :
    (packWord f).toNat = f.op.toNat * 2 ^ 26 + f.wsel.toNat * 2 ^ 24 + f.rd.toNat * 2 ^ 20 + f.ra.toNat * 2 ^ 16
      + f.rb.toNat * 2 ^ 12 + f.imm.toNat := by
  simp only [packWord, toNat_append_add]
  ring

/-- Reading the fields of a packed word gives the fields. -/
@[simp] theorem fieldsOf_packWord (f : Fields) : fieldsOf (packWord f) = f := by
  have h := packWord_toNat f
  obtain ⟨op, ws, rd, ra, rb, imm⟩ := f
  simp only at h
  simp only [fieldsOf, Fields.mk.injEq]
  refine ⟨?_, ?_, ?_, ?_, ?_, ?_⟩ <;>
    · apply BitVec.eq_of_toNat_eq
      rw [BitVec.extractLsb'_toNat, h, Nat.shiftRight_eq_div_pow]
      omega

/-- Packing the fields of a word gives the word: no bit of a command word is outside the fields. -/
@[simp] theorem packWord_fieldsOf (w : CmdWord) : packWord (fieldsOf w) = w := by
  apply BitVec.eq_of_toNat_eq
  rw [packWord_toNat]
  simp only [fieldsOf, BitVec.extractLsb'_toNat, Nat.shiftRight_eq_div_pow]
  omega

/-- The conjunction of two packed words, field by field. -/
theorem packWord_and (f g : Fields) :
    packWord f &&& packWord g =
      packWord ⟨f.op &&& g.op, f.wsel &&& g.wsel, f.rd &&& g.rd, f.ra &&& g.ra, f.rb &&& g.rb, f.imm &&& g.imm⟩ := by
  apply BitVec.eq_of_getLsbD_eq
  intro i hi
  simp only [packWord, BitVec.getLsbD_and, BitVec.getLsbD_append]
  split_ifs <;> rfl

/-- Two packed words are equal exactly when their fields are. -/
theorem packWord_inj (f g : Fields) : packWord f = packWord g ↔ f = g :=
  ⟨fun h => by rw [← fieldsOf_packWord f, h, fieldsOf_packWord], fun h => h ▸ rfl⟩

end Sys2Proof
end

