-- ==== Sys2Proof/Laws/Memory.lean ====
section
/-! SUPPORT. The laws of the text buffer: what a load gives after a store, and that every store keeps the canonical form. -/

namespace Sys2Proof.Machine

/-! The canonical form, cell by cell. -/

/-- Every address of the list is above `a`. -/
def Memory.above (a : Nat) (m : Memory) : Prop := ∀ c ∈ m, a < c.1

theorem Memory.rising_cons (c : Host.Cell) (m : Memory) :
    Memory.rising (c :: m) = true ↔ Memory.above c.1 m ∧ Memory.rising m = true := by
  induction m generalizing c with
  | nil => simp [Memory.rising, Memory.above]
  | cons d m ih =>
    rw [Memory.rising, Bool.and_eq_true, decide_eq_true_eq, ih]
    simp only [Memory.above, List.forall_mem_cons]
    constructor
    · rintro ⟨hcd, had, hr⟩
      exact ⟨⟨hcd, fun e he => Nat.lt_trans hcd (had e he)⟩, had, hr⟩
    · rintro ⟨⟨hcd, -⟩, had, hr⟩
      exact ⟨hcd, had, hr⟩

theorem Memory.wf_iff (m : Memory) :
    Memory.wf m = true ↔ Memory.rising m = true ∧ ∀ c ∈ m, c.1 < 512 ∧ c.2 ≠ 0 := by
  simp [Memory.wf, List.all_eq_true]

theorem loadByte_above (m : Memory) (a : Nat) (h : Memory.above a m) : loadByte m a = 0 := by
  induction m with
  | nil => rfl
  | cons c m ih =>
    simp only [Memory.above, List.forall_mem_cons] at h
    rw [loadByte, if_neg (Nat.ne_of_gt h.1), ih h.2]

/-! One byte. -/

/-- Every cell of the text buffer after a store was there before, or is the one stored. -/
theorem mem_storeByte (m : Memory) (a : Nat) (b : Byte) (c : Host.Cell) (h : c ∈ storeByte m a b) :
    c ∈ m ∨ c = (a, b) ∧ b ≠ 0 := by
  induction m with
  | nil =>
    rw [storeByte] at h
    split at h <;> simp_all
  | cons d m ih =>
    rw [storeByte] at h
    split at h
    · rcases List.mem_cons.1 h with rfl | h
      · simp
      · rcases ih h with h | h
        · exact .inl (List.mem_cons_of_mem _ h)
        · exact .inr h
    · split at h <;> split at h <;> simp_all [List.mem_cons] <;> tauto

theorem storeByte_rising (m : Memory) (a : Nat) (b : Byte) (hm : Memory.rising m = true) :
    Memory.rising (storeByte m a b) = true := by
  induction m with
  | nil => rw [storeByte]; split <;> rfl
  | cons d m ih =>
    have hd := (Memory.rising_cons d m).1 hm
    rw [storeByte]
    split
    · rename_i hlt
      refine (Memory.rising_cons _ _).2 ⟨fun c hc => ?_, ih hd.2⟩
      rcases mem_storeByte m a b c hc with h | ⟨rfl, -⟩
      · exact hd.1 c h
      · exact hlt
    · rename_i hge
      split
      · rename_i heq
        split
        · exact hd.2
        · exact (Memory.rising_cons _ _).2 ⟨fun c hc => heq ▸ hd.1 c hc, hd.2⟩
      · rename_i hne
        split
        · exact hm
        · refine (Memory.rising_cons _ _).2 ⟨fun c hc => ?_, hm⟩
          have had : a < d.1 := by omega
          rcases List.mem_cons.1 hc with rfl | hc
          · exact had
          · exact Nat.lt_trans had (hd.1 c hc)

/-- A store at an address below 512 keeps the canonical form. -/
theorem storeByte_wf (m : Memory) (a : Nat) (b : Byte) (ha : a < 512) (hm : Memory.wf m = true) :
    Memory.wf (storeByte m a b) = true := by
  rw [Memory.wf_iff] at hm ⊢
  refine ⟨storeByte_rising m a b hm.1, fun c hc => ?_⟩
  rcases mem_storeByte m a b c hc with h | ⟨rfl, hb⟩
  · exact hm.2 c h
  · exact ⟨ha, hb⟩

/-- At every other address a store leaves the byte as it was. -/
theorem loadByte_storeByte_ne (m : Memory) (a : Nat) (b : Byte) (k : Nat) (hk : k ≠ a) :
    loadByte (storeByte m a b) k = loadByte m k := by
  induction m with
  | nil =>
    rw [storeByte]
    split
    · rfl
    · simp [loadByte, Ne.symm hk]
  | cons d m ih =>
    rw [storeByte]
    split
    · simp only [loadByte, ih]
    · split
      · rename_i heq
        split <;> simp [loadByte, heq, Ne.symm hk]
      · split <;> simp [loadByte, Ne.symm hk]

/-- At the address stored to, a load gives the byte stored. -/
theorem loadByte_storeByte_eq (m : Memory) (a : Nat) (b : Byte) (hm : Memory.rising m = true) :
    loadByte (storeByte m a b) a = b := by
  induction m with
  | nil =>
    rw [storeByte]
    split
    · simp_all [loadByte]
    · simp [loadByte]
  | cons d m ih =>
    have hd := (Memory.rising_cons d m).1 hm
    rw [storeByte]
    split
    · rename_i hlt
      rw [loadByte, if_neg (Nat.ne_of_lt hlt), ih hd.2]
    · split
      · rename_i heq
        split
        · rename_i hb
          rw [loadByte_above m a (heq ▸ hd.1), hb]
        · simp [loadByte]
      · split
        · rename_i hb
          have had : Memory.above a (d :: m) := by
            intro c hc
            rcases List.mem_cons.1 hc with rfl | hc
            · omega
            · have := hd.1 c hc; omega
          rw [loadByte_above _ a had, hb]
        · simp [loadByte]

/-! Several bytes. -/

theorem storeBytes_wf (bs : List Byte) (m : Memory) (a : Nat) (ha : a + bs.length ≤ 512)
    (hm : Memory.wf m = true) : Memory.wf (storeBytes m a bs) = true := by
  induction bs generalizing m a with
  | nil => exact hm
  | cons b bs ih =>
    rw [List.length_cons] at ha
    exact ih _ _ (by omega) (storeByte_wf m a b (by omega) hm)

theorem storeBytes_rising (bs : List Byte) (m : Memory) (a : Nat) (hm : Memory.rising m = true) :
    Memory.rising (storeBytes m a bs) = true := by
  induction bs generalizing m a with
  | nil => exact hm
  | cons b bs ih => exact ih _ _ (storeByte_rising m a b hm)

/-- Outside the bytes stored, a store leaves every byte as it was. -/
theorem loadByte_storeBytes_out (bs : List Byte) (m : Memory) (a k : Nat) (hk : k < a ∨ a + bs.length ≤ k) :
    loadByte (storeBytes m a bs) k = loadByte m k := by
  induction bs generalizing m a with
  | nil => rfl
  | cons b bs ih =>
    rw [List.length_cons] at hk
    rw [storeBytes, ih _ _ (by omega), loadByte_storeByte_ne _ _ _ _ (by omega)]

/-- Inside, a load gives the byte stored. -/
theorem loadByte_storeBytes_in (bs : List Byte) (m : Memory) (a k : Nat) (hm : Memory.rising m = true)
    (hk : k < bs.length) : loadByte (storeBytes m a bs) (a + k) = bs[k] := by
  induction bs generalizing m a k with
  | nil => simp at hk
  | cons b bs ih =>
    cases k with
    | zero =>
      rw [storeBytes, loadByte_storeBytes_out _ _ _ _ (by omega)]
      exact loadByte_storeByte_eq m a b hm
    | succ k =>
      have := ih (storeByte m a b) (a + 1) k (storeByte_rising m a b hm) (by simpa using hk)
      rw [storeBytes, show a + (k + 1) = a + 1 + k by omega, this, List.getElem_cons_succ]

/-- The string stored at address 0 is the string loaded from there. -/
theorem loadBytes_storeBytes (bs : List Byte) (m : Memory) (hm : Memory.rising m = true) :
    loadBytes (storeBytes m 0 bs) bs.length = bs := by
  refine List.ext_getElem (by simp [loadBytes]) fun k h1 h2 => ?_
  have := loadByte_storeBytes_in bs m 0 k hm h2
  simpa [loadBytes] using this

end Sys2Proof.Machine
end

