-- ==== Sys2Proof/Laws/State.lean ====
section
/-! SUPPORT. One lemma per field per update of State, each true by rfl, so that no proof unfolds a record update. -/

namespace Sys2Proof.Machine

section
variable (s : State)

@[simp] theorem writeV_v (r : VReg) (x : Value) : (writeV s r x).v = s.v.set r.val x r.isLt := rfl
@[simp] theorem writeV_tb (r : VReg) (x : Value) : (writeV s r x).tb = s.tb := rfl
@[simp] theorem writeV_err (r : VReg) (x : Value) : (writeV s r x).err = s.err := rfl
@[simp] theorem writeV_trunc (r : VReg) (x : Value) : (writeV s r x).trunc = s.trunc := rfl
@[simp] theorem writeV_epos (r : VReg) (x : Value) : (writeV s r x).epos = s.epos := rfl
@[simp] theorem writeV_tlen (r : VReg) (x : Value) : (writeV s r x).tlen = s.tlen := rfl
@[simp] theorem writeV_tcons (r : VReg) (x : Value) : (writeV s r x).tcons = s.tcons := rfl
@[simp] theorem writeV_port (r : VReg) (x : Value) : (writeV s r x).port = s.port := rfl
@[simp] theorem writeV_din (r : VReg) (x : Value) : (writeV s r x).din = s.din := rfl
@[simp] theorem writeV_response (r : VReg) (x : Value) : (writeV s r x).response = s.response := rfl

@[simp] theorem setText_v (m : Memory) : (setText s m).v = s.v := rfl
@[simp] theorem setText_tb (m : Memory) : (setText s m).tb = m := rfl
@[simp] theorem setText_err (m : Memory) : (setText s m).err = s.err := rfl
@[simp] theorem setText_trunc (m : Memory) : (setText s m).trunc = s.trunc := rfl
@[simp] theorem setText_epos (m : Memory) : (setText s m).epos = s.epos := rfl
@[simp] theorem setText_tlen (m : Memory) : (setText s m).tlen = s.tlen := rfl
@[simp] theorem setText_tcons (m : Memory) : (setText s m).tcons = s.tcons := rfl
@[simp] theorem setText_port (m : Memory) : (setText s m).port = s.port := rfl
@[simp] theorem setText_din (m : Memory) : (setText s m).din = s.din := rfl
@[simp] theorem setText_response (m : Memory) : (setText s m).response = s.response := rfl
@[simp] theorem readV_setText (m : Memory) (q : VReg) : readV (setText s m) q = readV s q := rfl

@[simp] theorem setTlen_v (n : Nat) : (setTlen s n).v = s.v := rfl
@[simp] theorem setTlen_tb (n : Nat) : (setTlen s n).tb = s.tb := rfl
@[simp] theorem setTlen_err (n : Nat) : (setTlen s n).err = s.err := rfl
@[simp] theorem setTlen_trunc (n : Nat) : (setTlen s n).trunc = s.trunc := rfl
@[simp] theorem setTlen_epos (n : Nat) : (setTlen s n).epos = s.epos := rfl
@[simp] theorem setTlen_tlen (n : Nat) : (setTlen s n).tlen = BitVec.ofNat 10 n := rfl
@[simp] theorem setTlen_tcons (n : Nat) : (setTlen s n).tcons = s.tcons := rfl
@[simp] theorem setTlen_port (n : Nat) : (setTlen s n).port = s.port := rfl
@[simp] theorem setTlen_din (n : Nat) : (setTlen s n).din = s.din := rfl
@[simp] theorem setTlen_response (n : Nat) : (setTlen s n).response = s.response := rfl
@[simp] theorem readV_setTlen (n : Nat) (q : VReg) : readV (setTlen s n) q = readV s q := rfl

@[simp] theorem setTcons_v (n : Nat) : (setTcons s n).v = s.v := rfl
@[simp] theorem setTcons_tb (n : Nat) : (setTcons s n).tb = s.tb := rfl
@[simp] theorem setTcons_err (n : Nat) : (setTcons s n).err = s.err := rfl
@[simp] theorem setTcons_trunc (n : Nat) : (setTcons s n).trunc = s.trunc := rfl
@[simp] theorem setTcons_epos (n : Nat) : (setTcons s n).epos = s.epos := rfl
@[simp] theorem setTcons_tlen (n : Nat) : (setTcons s n).tlen = s.tlen := rfl
@[simp] theorem setTcons_tcons (n : Nat) : (setTcons s n).tcons = BitVec.ofNat 10 n := rfl
@[simp] theorem setTcons_port (n : Nat) : (setTcons s n).port = s.port := rfl
@[simp] theorem setTcons_din (n : Nat) : (setTcons s n).din = s.din := rfl
@[simp] theorem setTcons_response (n : Nat) : (setTcons s n).response = s.response := rfl
@[simp] theorem readV_setTcons (n : Nat) (q : VReg) : readV (setTcons s n) q = readV s q := rfl

@[simp] theorem setTrunc_v (b : Bool) : (setTrunc s b).v = s.v := rfl
@[simp] theorem setTrunc_tb (b : Bool) : (setTrunc s b).tb = s.tb := rfl
@[simp] theorem setTrunc_err (b : Bool) : (setTrunc s b).err = s.err := rfl
@[simp] theorem setTrunc_trunc (b : Bool) : (setTrunc s b).trunc = b := rfl
@[simp] theorem setTrunc_epos (b : Bool) : (setTrunc s b).epos = s.epos := rfl
@[simp] theorem setTrunc_tlen (b : Bool) : (setTrunc s b).tlen = s.tlen := rfl
@[simp] theorem setTrunc_tcons (b : Bool) : (setTrunc s b).tcons = s.tcons := rfl
@[simp] theorem setTrunc_port (b : Bool) : (setTrunc s b).port = s.port := rfl
@[simp] theorem setTrunc_din (b : Bool) : (setTrunc s b).din = s.din := rfl
@[simp] theorem setTrunc_response (b : Bool) : (setTrunc s b).response = s.response := rfl
@[simp] theorem readV_setTrunc (b : Bool) (q : VReg) : readV (setTrunc s b) q = readV s q := rfl

@[simp] theorem setRecord_v (c : BitVec 3) (p : BitVec 10) : (setRecord s c p).v = s.v := rfl
@[simp] theorem setRecord_tb (c : BitVec 3) (p : BitVec 10) : (setRecord s c p).tb = s.tb := rfl
@[simp] theorem setRecord_err (c : BitVec 3) (p : BitVec 10) : (setRecord s c p).err = c := rfl
@[simp] theorem setRecord_trunc (c : BitVec 3) (p : BitVec 10) : (setRecord s c p).trunc = s.trunc := rfl
@[simp] theorem setRecord_epos (c : BitVec 3) (p : BitVec 10) : (setRecord s c p).epos = p := rfl
@[simp] theorem setRecord_tlen (c : BitVec 3) (p : BitVec 10) : (setRecord s c p).tlen = s.tlen := rfl
@[simp] theorem setRecord_tcons (c : BitVec 3) (p : BitVec 10) : (setRecord s c p).tcons = s.tcons := rfl
@[simp] theorem setRecord_port (c : BitVec 3) (p : BitVec 10) : (setRecord s c p).port = s.port := rfl
@[simp] theorem setRecord_din (c : BitVec 3) (p : BitVec 10) : (setRecord s c p).din = s.din := rfl
@[simp] theorem setRecord_response (c : BitVec 3) (p : BitVec 10) : (setRecord s c p).response = s.response := rfl
@[simp] theorem readV_setRecord (c : BitVec 3) (p : BitVec 10) (q : VReg) : readV (setRecord s c p) q = readV s q := rfl

@[simp] theorem respond_v (d : Limb) (e : BitVec 3) : (respond s d e).v = s.v := rfl
@[simp] theorem respond_tb (d : Limb) (e : BitVec 3) : (respond s d e).tb = s.tb := rfl
@[simp] theorem respond_err (d : Limb) (e : BitVec 3) : (respond s d e).err = s.err := rfl
@[simp] theorem respond_trunc (d : Limb) (e : BitVec 3) : (respond s d e).trunc = s.trunc := rfl
@[simp] theorem respond_epos (d : Limb) (e : BitVec 3) : (respond s d e).epos = s.epos := rfl
@[simp] theorem respond_tlen (d : Limb) (e : BitVec 3) : (respond s d e).tlen = s.tlen := rfl
@[simp] theorem respond_tcons (d : Limb) (e : BitVec 3) : (respond s d e).tcons = s.tcons := rfl
@[simp] theorem respond_port (d : Limb) (e : BitVec 3) : (respond s d e).port = s.port := rfl
@[simp] theorem respond_din (d : Limb) (e : BitVec 3) : (respond s d e).din = s.din := rfl
@[simp] theorem respond_response (d : Limb) (e : BitVec 3) : (respond s d e).response = some ⟨d, e⟩ := rfl
@[simp] theorem readV_respond (d : Limb) (e : BitVec 3) (q : VReg) : readV (respond s d e) q = readV s q := rfl

@[simp] theorem acceptEvent_v (l : List HostEvent) : (acceptEvent s l).v = s.v := rfl
@[simp] theorem acceptEvent_tb (l : List HostEvent) : (acceptEvent s l).tb = s.tb := rfl
@[simp] theorem acceptEvent_err (l : List HostEvent) : (acceptEvent s l).err = s.err := rfl
@[simp] theorem acceptEvent_trunc (l : List HostEvent) : (acceptEvent s l).trunc = s.trunc := rfl
@[simp] theorem acceptEvent_epos (l : List HostEvent) : (acceptEvent s l).epos = s.epos := rfl
@[simp] theorem acceptEvent_tlen (l : List HostEvent) : (acceptEvent s l).tlen = s.tlen := rfl
@[simp] theorem acceptEvent_tcons (l : List HostEvent) : (acceptEvent s l).tcons = s.tcons := rfl
@[simp] theorem acceptEvent_port (l : List HostEvent) : (acceptEvent s l).port = l := rfl
@[simp] theorem acceptEvent_din (l : List HostEvent) : (acceptEvent s l).din = s.din := rfl
@[simp] theorem acceptEvent_response (l : List HostEvent) : (acceptEvent s l).response = s.response := rfl
@[simp] theorem readV_acceptEvent (l : List HostEvent) (q : VReg) : readV (acceptEvent s l) q = readV s q := rfl

@[simp] theorem acceptCommand_v (l : List HostEvent) (d : Limb) : (acceptCommand s l d).v = s.v := rfl
@[simp] theorem acceptCommand_tb (l : List HostEvent) (d : Limb) : (acceptCommand s l d).tb = s.tb := rfl
@[simp] theorem acceptCommand_err (l : List HostEvent) (d : Limb) : (acceptCommand s l d).err = s.err := rfl
@[simp] theorem acceptCommand_trunc (l : List HostEvent) (d : Limb) : (acceptCommand s l d).trunc = s.trunc := rfl
@[simp] theorem acceptCommand_epos (l : List HostEvent) (d : Limb) : (acceptCommand s l d).epos = s.epos := rfl
@[simp] theorem acceptCommand_tlen (l : List HostEvent) (d : Limb) : (acceptCommand s l d).tlen = s.tlen := rfl
@[simp] theorem acceptCommand_tcons (l : List HostEvent) (d : Limb) : (acceptCommand s l d).tcons = s.tcons := rfl
@[simp] theorem acceptCommand_port (l : List HostEvent) (d : Limb) : (acceptCommand s l d).port = l := rfl
@[simp] theorem acceptCommand_din (l : List HostEvent) (d : Limb) : (acceptCommand s l d).din = d := rfl
@[simp] theorem acceptCommand_response (l : List HostEvent) (d : Limb) : (acceptCommand s l d).response = s.response := rfl
@[simp] theorem readV_acceptCommand (l : List HostEvent) (d : Limb) (q : VReg) : readV (acceptCommand s l d) q = readV s q := rfl

end

/-! The reset state. -/

@[simp] theorem reset_tb : State.reset.tb = [] := rfl
@[simp] theorem reset_err : State.reset.err = 0 := rfl
@[simp] theorem reset_trunc : State.reset.trunc = false := rfl
@[simp] theorem reset_epos : State.reset.epos = 0 := rfl
@[simp] theorem reset_tlen : State.reset.tlen = 0 := rfl
@[simp] theorem reset_tcons : State.reset.tcons = 0 := rfl
@[simp] theorem reset_port : State.reset.port = [] := rfl
@[simp] theorem reset_din : State.reset.din = 0 := rfl
@[simp] theorem reset_response : State.reset.response = none := rfl

@[simp] theorem readV_reset (r : VReg) : readV State.reset r = 0 := by
  simp [readV, State.reset, Vector.get]

end Sys2Proof.Machine
end

