-- ==== Sys2Proof/Laws/Ops.lean ====
section
/-! SUPPORT. What each shared operation can do, said once: the statements' proofs cite these instead of unfolding the operations. -/

namespace Sys2Proof.Machine

/-! Value registers. -/

@[simp] theorem readV_writeV_same (s : State) (r : VReg) (x : Value) : readV (writeV s r x) r = x := by
  simp only [readV, writeV, Vector.get_eq_getElem]
  exact Vector.getElem_set_self _

theorem readV_writeV_ne (s : State) (r q : VReg) (x : Value) (h : q ≠ r) :
    readV (writeV s r x) q = readV s q := by
  have : r.val ≠ q.val := fun e => h (Fin.ext e.symm)
  simp only [readV, writeV, Vector.get_eq_getElem]
  exact Vector.getElem_set_ne _ _ this

theorem readW_lt (s : State) (w : Width) (r : VReg) : readW s w r < 2 ^ bits w :=
  Nat.mod_lt _ (Nat.two_pow_pos _)

theorem bits_le (w : Width) : bits w ≤ 256 := by cases w <;> decide

/-- A number below `2^B` written at width B is read back, all 256 bits. -/
theorem readV_writeW_toNat (s : State) (w : Width) (r : VReg) (n : Nat) :
    (readV (writeW s w r n) r).toNat = n % 2 ^ bits w := by
  have h1 : n % 2 ^ bits w < 2 ^ bits w := Nat.mod_lt _ (Nat.two_pow_pos _)
  have h2 : (2 : Nat) ^ bits w ≤ 2 ^ 256 := Nat.pow_le_pow_right (by decide) (bits_le w)
  rw [writeW, readV_writeV_same, BitVec.toNat_ofNat, Nat.mod_eq_of_lt (Nat.lt_of_lt_of_le h1 h2)]

/-! Ending a command. -/

theorem complete_eq (s : State) (d : Limb) : complete s d = .next (respond s d 0) := rfl

/-- A command that writes one register and completes. -/
theorem complete_writeV (s : State) (rd : VReg) (x : Value) :
    ∃ t, complete (writeV s rd x) 0 = .next t ∧ readV t rd = x ∧ WritesOnly rd s t ∧ Answers t 0 :=
  ⟨_, rfl, by simp, ⟨fun r hr => by simp [readV_writeV_ne _ _ _ _ hr], fun _ => rfl, ⟨rfl, rfl, rfl⟩, ⟨rfl, rfl⟩,
    ⟨rfl, rfl⟩⟩, rfl⟩

/-- A command that gives a pattern of width `w` and completes. -/
theorem completeW_spec (s : State) (w : Width) (rd : VReg) (n : Nat) :
    ∃ t, completeW s w rd n = .next t ∧ (readV t rd).toNat = n % 2 ^ bits w ∧ WritesOnly rd s t ∧ Answers t 0 := by
  obtain ⟨t, h, hv, hw⟩ := complete_writeV s rd (BitVec.ofNat 256 (n % 2 ^ bits w))
  refine ⟨t, h, ?_, hw⟩
  rw [hv]
  exact (congrArg BitVec.toNat (readV_writeV_same s rd _)).symm.trans (readV_writeW_toNat s w rd n)

/-- A command that gives a truth value and completes. -/
theorem completeTruth_spec (s : State) (rd : VReg) (b : Bool) :
    ∃ t, completeTruth s rd b = .next t ∧ (readV t rd).toNat = b.toNat ∧ WritesOnly rd s t ∧ Answers t 0 := by
  obtain ⟨t, h, hv, hw⟩ := complete_writeV s rd (if b then 1 else 0)
  exact ⟨t, h, by rw [hv]; cases b <;> rfl, hw⟩

/-- A command that gives a limb pair and completes. -/
theorem completePair_spec (s : State) (rd : VReg) (hi lo : Limb) :
    ∃ t, completePair s rd hi lo = .next t ∧ (readV t rd).toNat = hi.toNat * 2 ^ 64 + lo.toNat
      ∧ WritesOnly rd s t ∧ Answers t 0 := by
  obtain ⟨t, h, hv, hw⟩ := complete_writeV s rd ((hi ++ lo).setWidth 256)
  refine ⟨t, h, ?_, hw⟩
  have h1 := hi.isLt
  have h2 := lo.isLt
  rw [hv, BitVec.toNat_setWidth, BitVec.toNat_append, ← Nat.shiftLeft_add_eq_or_of_lt h2, Nat.shiftLeft_eq]
  omega

/-- Raising an error (60_exceptions.md R262). -/
theorem raise_spec (s : State) (e : UnitError) :
    ∃ t, raise s e = .next t ∧ ErrorEntry s t (errorCode e) (errorPos e) := by
  refine ⟨_, rfl, ?_⟩
  unfold ErrorEntry recordError
  split <;> simp_all [SameRegs, SameText, SameLengths, SamePort]

/-! The text buffer. -/

/-- The string of the text buffer, when it is `text`. -/
theorem fetchText_of_textIs (s : State) (text : List Byte) (h : TextIs s text) : fetchText s = some text := by
  obtain ⟨hl, ht, hb⟩ := h
  rw [fetchText, if_pos (by rw [ht]; exact hl), ht]
  refine congrArg some (List.ext_getElem (by simp [loadBytes]) fun k h1 h2 => ?_)
  simpa [loadBytes] using hb k h2

/-- A string of at most 512 bytes placed in the text buffer. -/
theorem placeText_spec (s : State) (out : List Byte) (h : out.length ≤ 512) :
    placeText s out = some (setText s (storeBytes s.tb 0 out)) := if_pos h

/-! Numbers. -/

theorem negPat_lt (B : Nat) (p : Nat) : negPat B p < 2 ^ B := Nat.mod_lt _ (Nat.two_pow_pos _)

theorem withSign_lt (B : Nat) (n : Bool) (r : Nat) (h : r < 2 ^ B) : withSign B n r < 2 ^ B := by
  unfold withSign
  split
  · exact negPat_lt B r
  · exact h

theorem signBit_eq (B : Nat) (p : Nat) (h : p < 2 ^ B) (hB : 0 < B) : signBit B p = decide (2 ^ (B - 1) ≤ p) := by
  obtain ⟨n, rfl⟩ : ∃ n, B = n + 1 := ⟨B - 1, by omega⟩
  rw [signBit, Nat.add_sub_cancel]
  rw [Nat.pow_succ] at h
  by_cases hp : 2 ^ n ≤ p
  · rw [decide_eq_true hp, Nat.testBit_eq_decide_div_mod_eq]
    have : p / 2 ^ n = 1 := Nat.div_eq_of_lt_le (by omega) (by omega)
    simp [this]
  · rw [decide_eq_false hp]
    exact Nat.testBit_lt_two_pow (by omega)

/-- The magnitude of a pattern is at most `2^(B-1)` (00_scope.md R9). -/
theorem mag_le (B : Nat) (p : Nat) (h : p < 2 ^ B) (hB : 0 < B) : mag B p ≤ 2 ^ (B - 1) := by
  have hs := signBit_eq B p h hB
  obtain ⟨n, rfl⟩ : ∃ n, B = n + 1 := ⟨B - 1, by omega⟩
  rw [Nat.pow_succ] at h
  rw [Nat.add_sub_cancel] at hs ⊢
  unfold mag negPat
  rw [hs]
  by_cases hp : 2 ^ n ≤ p
  · rw [if_pos (by simpa using hp)]
    refine (Nat.mod_le _ _).trans ?_
    rw [Nat.pow_succ]
    omega
  · rw [if_neg (by simpa using hp)]
    omega

/-! Slices, rounding, and the events that are not commands. -/

theorem slice_toNat (x : Value) (lo len : Nat) : (slice x lo len).toNat = x.toNat / 2 ^ lo % 2 ^ len := by
  simp [slice, Nat.shiftRight_eq_div_pow]

theorem readLimb_toNat (s : State) (r : VReg) (k : Nat) :
    (readLimb s r k).toNat = (readV s r).toNat / 2 ^ (64 * k) % 2 ^ 64 := slice_toNat _ _ _

/-- A replaced slice: the new bits inside it, the old ones outside. -/
theorem getLsbD_withSlice {len : Nat} (x : Value) (lo : Nat) (d : BitVec len) (j : Nat) (hj : j < 256) :
    (withSlice x lo d).getLsbD j = if lo ≤ j ∧ j < lo + len then d.getLsbD (j - lo) else x.getLsbD j := by
  by_cases h1 : lo ≤ j
  · by_cases h2 : j < lo + len
    · have h3 : j - lo < len := by omega
      simp [withSlice, hj, h1, h2, h3, Nat.not_lt.mpr h1]
    · have h3 : ¬ j - lo < len := by omega
      simp [withSlice, hj, h2, h3, Nat.not_lt.mpr h1, BitVec.getLsbD_of_ge d (j - lo) (by omega)]
  · simp [withSlice, hj, h1, Nat.lt_of_not_le h1]

/-- Dropping bits with the highest dropped bit added (41_arithmetic.md R135, R136), as division. -/
theorem dropBits_eq (n : Nat) (round : Bool) (x : Nat) :
    dropBits n round x = x / 2 ^ n + if round then x / 2 ^ (n - 1) % 2 else 0 := by
  simp only [dropBits, bitAt, Nat.shiftRight_eq_div_pow]

/-- A cleared error record (46_system.md R243). -/
@[simp] theorem clearRecord_fields (s : State) :
    (clearRecord s).err = 0 ∧ (clearRecord s).trunc = false ∧ (clearRecord s).epos = 0 ∧ (clearRecord s).v = s.v
      ∧ (clearRecord s).tb = s.tb ∧ (clearRecord s).tlen = s.tlen ∧ (clearRecord s).tcons = s.tcons
      ∧ (clearRecord s).port = s.port ∧ (clearRecord s).din = s.din := ⟨rfl, rfl, rfl, rfl, rfl, rfl, rfl, rfl, rfl⟩

end Sys2Proof.Machine
end

