-- ==== Sys2Proof/Laws/PerInstr.lean ====
section
/-! SUPPORT. One family of facts about every command as syntax: the word of a well-formed command lies in its row of the opcode
table. -/

namespace Sys2Proof.Laws.EncodingFitsRow

/-- The row of spec/opcode_table.json that carries the command's mnemonic accepts the word of the command. -/
def Statement (i : Instr) : Prop :=
  i.wellFormed = true → ∃ r ∈ opcodeTable, r.mnemonic = i.mnemonic ∧ r.accepts (encode i) = true

/-- A mask acts on the word of a command field by field. -/
theorem encode_and_mask (i : Instr) (m : Fields) :
    encode i &&& packWord m = packWord ⟨(fieldsFor i).op &&& m.op, (fieldsFor i).wsel &&& m.wsel, (fieldsFor i).rd &&& m.rd,
      (fieldsFor i).ra &&& m.ra, (fieldsFor i).rb &&& m.rb, (fieldsFor i).imm &&& m.imm⟩ := packWord_and _ _

theorem wselOf_ne_three (w : Width) : wselOf w ≠ 3 := by cases w <;> decide

theorem encode_wsel (i : Instr) : (encode i).extractLsb' 24 2 = (fieldsFor i).wsel :=
  congrArg Fields.wsel (fieldsOf_packWord (fieldsFor i))

theorem encode_base (i : Instr) : (encode i).extractLsb' 0 6 = (fieldsFor i).imm.extractLsb' 0 6 := by
  have h := congrArg Fields.imm (fieldsOf_packWord (fieldsFor i))
  change (encode i).extractLsb' 0 12 = _ at h
  rw [← h]
  apply BitVec.eq_of_toNat_eq
  simp only [BitVec.extractLsb'_toNat, Nat.shiftRight_eq_div_pow]
  omega

/-- A row's mask, pattern and constraints compared with a command's fields. -/
theorem of_fields (i : Instr) (r : OpRow) (m p : Fields) (hr : r ∈ opcodeTable) (hn : r.mnemonic = i.mnemonic)
    (hm : r.mask = packWord m) (hp : r.pattern = packWord p)
    (hw : r.hasWidth = true → (fieldsFor i).wsel ≠ 3)
    (hb : r.hasBase = true → i.wellFormed = true → baseLegal ((fieldsFor i).imm.extractLsb' 0 6) = true)
    (h : i.wellFormed = true → (⟨(fieldsFor i).op &&& m.op, (fieldsFor i).wsel &&& m.wsel, (fieldsFor i).rd &&& m.rd,
      (fieldsFor i).ra &&& m.ra, (fieldsFor i).rb &&& m.rb, (fieldsFor i).imm &&& m.imm⟩ : Fields) = p) : Statement i := by
  intro wf
  refine ⟨r, hr, hn, ?_⟩
  have h1 : encode i &&& r.mask = r.pattern := by rw [hm, hp, encode_and_mask, h wf]
  simp only [OpRow.accepts, h1, encode_wsel, encode_base, beq_self_eq_true, Bool.true_and, Bool.and_eq_true, Bool.or_eq_true,
    Bool.not_eq_true', bne_iff_ne]
  constructor
  · cases hh : r.hasWidth
    · exact .inl rfl
    · exact .inr (hw hh)
  · cases hh : r.hasBase
    · exact .inl rfl
    · exact .inr (hb hh wf)

theorem put64 (rd : VReg) (limb : Fin 4) : Statement (.put64 rd limb) :=
  of_fields _ ⟨"PUT64", 0x04000000#32, 0xFF0FFFFC#32, false, false⟩
    ⟨0x3F, 3, 0, 15, 15, 0xFFC⟩ ⟨0x01, 0, 0, 0, 0, 0x000⟩
    (by decide) rfl (by decide) (by decide) (nofun) (nofun) (by fin_cases limb <;> simp [fieldsFor, fieldsDI])

theorem put32 (rd : VReg) (slice : Fin 8) : Statement (.put32 rd slice) :=
  of_fields _ ⟨"PUT32", 0x08000000#32, 0xFF0FFFF8#32, false, false⟩
    ⟨0x3F, 3, 0, 15, 15, 0xFF8⟩ ⟨0x02, 0, 0, 0, 0, 0x000⟩
    (by decide) rfl (by decide) (by decide) (nofun) (nofun) (by fin_cases slice <;> simp [fieldsFor, fieldsDI])

theorem get64 (ra : VReg) (limb : Fin 4) : Statement (.get64 ra limb) :=
  of_fields _ ⟨"GET64", 0x0C000000#32, 0xFFF0FFFC#32, false, false⟩
    ⟨0x3F, 3, 15, 0, 15, 0xFFC⟩ ⟨0x03, 0, 0, 0, 0, 0x000⟩
    (by decide) rfl (by decide) (by decide) (nofun) (nofun) (by fin_cases limb <;> simp [fieldsFor, fieldsAI])

theorem get32 (ra : VReg) (slice : Fin 8) : Statement (.get32 ra slice) :=
  of_fields _ ⟨"GET32", 0x10000000#32, 0xFFF0FFF8#32, false, false⟩
    ⟨0x3F, 3, 15, 0, 15, 0xFF8⟩ ⟨0x04, 0, 0, 0, 0, 0x000⟩
    (by decide) rfl (by decide) (by decide) (nofun) (nofun) (by fin_cases slice <;> simp [fieldsFor, fieldsAI])

theorem mov (w : Width) (rd ra : VReg) : Statement (.mov w rd ra) :=
  of_fields _ ⟨"MOV", 0x14000000#32, 0xFC00FFFF#32, true, false⟩
    ⟨0x3F, 0, 0, 0, 15, 0xFFF⟩ ⟨0x05, 0, 0, 0, 0, 0x000⟩
    (by decide) rfl (by decide) (by decide) (fun _ => wselOf_ne_three w) (nofun) (by simp [fieldsFor, fieldsR2])

theorem and (w : Width) (rd ra rb : VReg) : Statement (.and w rd ra rb) :=
  of_fields _ ⟨"AND", 0x18000000#32, 0xFC000FFF#32, true, false⟩
    ⟨0x3F, 0, 0, 0, 0, 0xFFF⟩ ⟨0x06, 0, 0, 0, 0, 0x000⟩
    (by decide) rfl (by decide) (by decide) (fun _ => wselOf_ne_three w) (nofun) (by simp [fieldsFor, fieldsR3])

theorem or (w : Width) (rd ra rb : VReg) : Statement (.or w rd ra rb) :=
  of_fields _ ⟨"OR", 0x1C000000#32, 0xFC000FFF#32, true, false⟩
    ⟨0x3F, 0, 0, 0, 0, 0xFFF⟩ ⟨0x07, 0, 0, 0, 0, 0x000⟩
    (by decide) rfl (by decide) (by decide) (fun _ => wselOf_ne_three w) (nofun) (by simp [fieldsFor, fieldsR3])

theorem xor (w : Width) (rd ra rb : VReg) : Statement (.xor w rd ra rb) :=
  of_fields _ ⟨"XOR", 0x20000000#32, 0xFC000FFF#32, true, false⟩
    ⟨0x3F, 0, 0, 0, 0, 0xFFF⟩ ⟨0x08, 0, 0, 0, 0, 0x000⟩
    (by decide) rfl (by decide) (by decide) (fun _ => wselOf_ne_three w) (nofun) (by simp [fieldsFor, fieldsR3])

theorem shl (w : Width) (rd ra : VReg) (count : BitVec 12) : Statement (.shl w rd ra count) :=
  of_fields _ ⟨"SHL", 0x24000000#32, 0xFC00F000#32, true, false⟩
    ⟨0x3F, 0, 0, 0, 15, 0x000⟩ ⟨0x09, 0, 0, 0, 0, 0x000⟩
    (by decide) rfl (by decide) (by decide) (fun _ => wselOf_ne_three w) (nofun) (by simp [fieldsFor, fieldsRI])

theorem shr (w : Width) (rd ra : VReg) (count : BitVec 12) : Statement (.shr w rd ra count) :=
  of_fields _ ⟨"SHR", 0x28000000#32, 0xFC00F000#32, true, false⟩
    ⟨0x3F, 0, 0, 0, 15, 0x000⟩ ⟨0x0A, 0, 0, 0, 0, 0x000⟩
    (by decide) rfl (by decide) (by decide) (fun _ => wselOf_ne_three w) (nofun) (by simp [fieldsFor, fieldsRI])

theorem laddc (rd ra rb : VReg) (cin : Bool) : Statement (.laddc rd ra rb cin) :=
  of_fields _ ⟨"LADDC", 0x2C000000#32, 0xFF000FFE#32, false, false⟩
    ⟨0x3F, 3, 0, 0, 0, 0xFFE⟩ ⟨0x0B, 0, 0, 0, 0, 0x000⟩
    (by decide) rfl (by decide) (by decide) (nofun) (nofun) (by cases cin <;> simp [fieldsFor, fieldsL3])

theorem lsubb (rd ra rb : VReg) (bin : Bool) : Statement (.lsubb rd ra rb bin) :=
  of_fields _ ⟨"LSUBB", 0x30000000#32, 0xFF000FFE#32, false, false⟩
    ⟨0x3F, 3, 0, 0, 0, 0xFFE⟩ ⟨0x0C, 0, 0, 0, 0, 0x000⟩
    (by decide) rfl (by decide) (by decide) (nofun) (nofun) (by cases bin <;> simp [fieldsFor, fieldsL3])

theorem lmulw (rd ra rb : VReg) : Statement (.lmulw rd ra rb) :=
  of_fields _ ⟨"LMULW", 0x34000000#32, 0xFF000FFF#32, false, false⟩
    ⟨0x3F, 3, 0, 0, 0, 0xFFF⟩ ⟨0x0D, 0, 0, 0, 0, 0x000⟩
    (by decide) rfl (by decide) (by decide) (nofun) (nofun) (by simp [fieldsFor, fieldsL3])

theorem add (w : Width) (rd ra rb : VReg) : Statement (.add w rd ra rb) :=
  of_fields _ ⟨"ADD", 0x40000000#32, 0xFC000FFF#32, true, false⟩
    ⟨0x3F, 0, 0, 0, 0, 0xFFF⟩ ⟨0x10, 0, 0, 0, 0, 0x000⟩
    (by decide) rfl (by decide) (by decide) (fun _ => wselOf_ne_three w) (nofun) (by simp [fieldsFor, fieldsR3])

theorem sub (w : Width) (rd ra rb : VReg) : Statement (.sub w rd ra rb) :=
  of_fields _ ⟨"SUB", 0x44000000#32, 0xFC000FFF#32, true, false⟩
    ⟨0x3F, 0, 0, 0, 0, 0xFFF⟩ ⟨0x11, 0, 0, 0, 0, 0x000⟩
    (by decide) rfl (by decide) (by decide) (fun _ => wselOf_ne_three w) (nofun) (by simp [fieldsFor, fieldsR3])

theorem neg (w : Width) (rd ra : VReg) : Statement (.neg w rd ra) :=
  of_fields _ ⟨"NEG", 0x48000000#32, 0xFC00FFFF#32, true, false⟩
    ⟨0x3F, 0, 0, 0, 15, 0xFFF⟩ ⟨0x12, 0, 0, 0, 0, 0x000⟩
    (by decide) rfl (by decide) (by decide) (fun _ => wselOf_ne_three w) (nofun) (by simp [fieldsFor, fieldsR2])

theorem mul (w : Width) (rd ra rb : VReg) : Statement (.mul w rd ra rb) :=
  of_fields _ ⟨"MUL", 0x4C000000#32, 0xFC000FFF#32, true, false⟩
    ⟨0x3F, 0, 0, 0, 0, 0xFFF⟩ ⟨0x13, 0, 0, 0, 0, 0x000⟩
    (by decide) rfl (by decide) (by decide) (fun _ => wselOf_ne_three w) (nofun) (by simp [fieldsFor, fieldsR3])

theorem square (w : Width) (rd ra : VReg) : Statement (.square w rd ra) :=
  of_fields _ ⟨"SQUARE", 0x50000000#32, 0xFC00FFFF#32, true, false⟩
    ⟨0x3F, 0, 0, 0, 15, 0xFFF⟩ ⟨0x14, 0, 0, 0, 0, 0x000⟩
    (by decide) rfl (by decide) (by decide) (fun _ => wselOf_ne_three w) (nofun) (by simp [fieldsFor, fieldsR2])

theorem div (w : Width) (rd ra rb : VReg) : Statement (.div w rd ra rb) :=
  of_fields _ ⟨"DIV", 0x54000000#32, 0xFC000FFF#32, true, false⟩
    ⟨0x3F, 0, 0, 0, 0, 0xFFF⟩ ⟨0x15, 0, 0, 0, 0, 0x000⟩
    (by decide) rfl (by decide) (by decide) (fun _ => wselOf_ne_three w) (nofun) (by simp [fieldsFor, fieldsR3])

theorem sqrt (w : Width) (rd ra : VReg) : Statement (.sqrt w rd ra) :=
  of_fields _ ⟨"SQRT", 0x58000000#32, 0xFC00FFFF#32, true, false⟩
    ⟨0x3F, 0, 0, 0, 15, 0xFFF⟩ ⟨0x16, 0, 0, 0, 0, 0x000⟩
    (by decide) rfl (by decide) (by decide) (fun _ => wselOf_ne_three w) (nofun) (by simp [fieldsFor, fieldsR2])

theorem lt (w : Width) (rd ra rb : VReg) : Statement (.lt w rd ra rb) :=
  of_fields _ ⟨"LT", 0x60000000#32, 0xFC000FFF#32, true, false⟩
    ⟨0x3F, 0, 0, 0, 0, 0xFFF⟩ ⟨0x18, 0, 0, 0, 0, 0x000⟩
    (by decide) rfl (by decide) (by decide) (fun _ => wselOf_ne_three w) (nofun) (by simp [fieldsFor, fieldsR3])

theorem gt (w : Width) (rd ra rb : VReg) : Statement (.gt w rd ra rb) :=
  of_fields _ ⟨"GT", 0x64000000#32, 0xFC000FFF#32, true, false⟩
    ⟨0x3F, 0, 0, 0, 0, 0xFFF⟩ ⟨0x19, 0, 0, 0, 0, 0x000⟩
    (by decide) rfl (by decide) (by decide) (fun _ => wselOf_ne_three w) (nofun) (by simp [fieldsFor, fieldsR3])

theorem le (w : Width) (rd ra rb : VReg) : Statement (.le w rd ra rb) :=
  of_fields _ ⟨"LE", 0x68000000#32, 0xFC000FFF#32, true, false⟩
    ⟨0x3F, 0, 0, 0, 0, 0xFFF⟩ ⟨0x1A, 0, 0, 0, 0, 0x000⟩
    (by decide) rfl (by decide) (by decide) (fun _ => wselOf_ne_three w) (nofun) (by simp [fieldsFor, fieldsR3])

theorem ge (w : Width) (rd ra rb : VReg) : Statement (.ge w rd ra rb) :=
  of_fields _ ⟨"GE", 0x6C000000#32, 0xFC000FFF#32, true, false⟩
    ⟨0x3F, 0, 0, 0, 0, 0xFFF⟩ ⟨0x1B, 0, 0, 0, 0, 0x000⟩
    (by decide) rfl (by decide) (by decide) (fun _ => wselOf_ne_three w) (nofun) (by simp [fieldsFor, fieldsR3])

theorem eq (w : Width) (rd ra rb : VReg) : Statement (.eq w rd ra rb) :=
  of_fields _ ⟨"EQ", 0x70000000#32, 0xFC000FFF#32, true, false⟩
    ⟨0x3F, 0, 0, 0, 0, 0xFFF⟩ ⟨0x1C, 0, 0, 0, 0, 0x000⟩
    (by decide) rfl (by decide) (by decide) (fun _ => wselOf_ne_three w) (nofun) (by simp [fieldsFor, fieldsR3])

theorem ne (w : Width) (rd ra rb : VReg) : Statement (.ne w rd ra rb) :=
  of_fields _ ⟨"NE", 0x74000000#32, 0xFC000FFF#32, true, false⟩
    ⟨0x3F, 0, 0, 0, 0, 0xFFF⟩ ⟨0x1D, 0, 0, 0, 0, 0x000⟩
    (by decide) rfl (by decide) (by decide) (fun _ => wselOf_ne_three w) (nofun) (by simp [fieldsFor, fieldsR3])

theorem ltu (w : Width) (rd ra rb : VReg) : Statement (.ltu w rd ra rb) :=
  of_fields _ ⟨"LTU", 0x78000000#32, 0xFC000FFF#32, true, false⟩
    ⟨0x3F, 0, 0, 0, 0, 0xFFF⟩ ⟨0x1E, 0, 0, 0, 0, 0x000⟩
    (by decide) rfl (by decide) (by decide) (fun _ => wselOf_ne_three w) (nofun) (by simp [fieldsFor, fieldsR3])

theorem gtu (w : Width) (rd ra rb : VReg) : Statement (.gtu w rd ra rb) :=
  of_fields _ ⟨"GTU", 0x7C000000#32, 0xFC000FFF#32, true, false⟩
    ⟨0x3F, 0, 0, 0, 0, 0xFFF⟩ ⟨0x1F, 0, 0, 0, 0, 0x000⟩
    (by decide) rfl (by decide) (by decide) (fun _ => wselOf_ne_three w) (nofun) (by simp [fieldsFor, fieldsR3])

theorem leu (w : Width) (rd ra rb : VReg) : Statement (.leu w rd ra rb) :=
  of_fields _ ⟨"LEU", 0x80000000#32, 0xFC000FFF#32, true, false⟩
    ⟨0x3F, 0, 0, 0, 0, 0xFFF⟩ ⟨0x20, 0, 0, 0, 0, 0x000⟩
    (by decide) rfl (by decide) (by decide) (fun _ => wselOf_ne_three w) (nofun) (by simp [fieldsFor, fieldsR3])

theorem geu (w : Width) (rd ra rb : VReg) : Statement (.geu w rd ra rb) :=
  of_fields _ ⟨"GEU", 0x84000000#32, 0xFC000FFF#32, true, false⟩
    ⟨0x3F, 0, 0, 0, 0, 0xFFF⟩ ⟨0x21, 0, 0, 0, 0, 0x000⟩
    (by decide) rfl (by decide) (by decide) (fun _ => wselOf_ne_three w) (nofun) (by simp [fieldsFor, fieldsR3])

theorem fromint (w : Width) (rd ra : VReg) : Statement (.fromint w rd ra) :=
  of_fields _ ⟨"FROMINT", 0x90000000#32, 0xFC00FFFF#32, true, false⟩
    ⟨0x3F, 0, 0, 0, 15, 0xFFF⟩ ⟨0x24, 0, 0, 0, 0, 0x000⟩
    (by decide) rfl (by decide) (by decide) (fun _ => wselOf_ne_three w) (nofun) (by simp [fieldsFor, fieldsR2])

theorem tostr (w : Width) (ra : VReg) (base : BitVec 6) : Statement (.tostr w ra base) :=
  of_fields _ ⟨"TOSTR", 0x94000000#32, 0xFCF0FFC0#32, true, true⟩
    ⟨0x3F, 0, 15, 0, 15, 0xFC0⟩ ⟨0x25, 0, 0, 0, 0, 0x000⟩
    (by decide) rfl (by decide) (by decide) (fun _ => wselOf_ne_three w) (fun _ h => by
    have e : ∀ b : BitVec 6, (b.setWidth 12).extractLsb' 0 6 = b := by decide
    simpa only [fieldsFor, e, Instr.wellFormed] using h) (by
    have h : ∀ b : BitVec 6, b.setWidth 12 &&& 0xFC0#12 = 0 := by decide
    simp [fieldsFor, h])

theorem fromstr (w : Width) (rd : VReg) (base : BitVec 6) (e : Bool) : Statement (.fromstr w rd base e) :=
  of_fields _ ⟨"FROMSTR", 0x98000000#32, 0xFC0FFF80#32, true, true⟩
    ⟨0x3F, 0, 0, 15, 15, 0xF80⟩ ⟨0x26, 0, 0, 0, 0, 0x000⟩
    (by decide) rfl (by decide) (by decide) (fun _ => wselOf_ne_three w) (fun _ h => by
    have k : ∀ (e : Bool) (b : BitVec 6), ((BitVec.ofBool e ++ b).setWidth 12).extractLsb' 0 6 = b := by decide
    simpa only [fieldsFor, k, Instr.wellFormed] using h) (by
    have h : ∀ (e : Bool) (b : BitVec 6), (BitVec.ofBool e ++ b).setWidth 12 &&& 0xF80#12 = 0 := by decide
    simp [fieldsFor, h])

theorem todbl (w : Width) (rd ra : VReg) : Statement (.todbl w rd ra) :=
  of_fields _ ⟨"TODBL", 0x9C000000#32, 0xFC00FFFF#32, true, false⟩
    ⟨0x3F, 0, 0, 0, 15, 0xFFF⟩ ⟨0x27, 0, 0, 0, 0, 0x000⟩
    (by decide) rfl (by decide) (by decide) (fun _ => wselOf_ne_three w) (nofun) (by simp [fieldsFor, fieldsR2])

theorem fromdbl (w : Width) (rd ra : VReg) : Statement (.fromdbl w rd ra) :=
  of_fields _ ⟨"FROMDBL", 0xA0000000#32, 0xFC00FFFF#32, true, false⟩
    ⟨0x3F, 0, 0, 0, 15, 0xFFF⟩ ⟨0x28, 0, 0, 0, 0, 0x000⟩
    (by decide) rfl (by decide) (by decide) (fun _ => wselOf_ne_three w) (nofun) (by simp [fieldsFor, fieldsR2])

theorem csrr (csr : Csr) : Statement (.csrr csr) :=
  of_fields _ ⟨"CSRR", 0xC0000000#32, 0xFFFFFFFC#32, false, false⟩
    ⟨0x3F, 3, 15, 15, 15, 0xFFC⟩ ⟨0x30, 0, 0, 0, 0, 0x000⟩
    (by decide) rfl (by decide) (by decide) (nofun) (nofun) (by cases csr <;> simp [fieldsFor, fieldsI, csrNumber])

theorem csrw (csr : Csr) : Statement (.csrw csr) :=
  of_fields _ ⟨"CSRW", 0xC4000000#32, 0xFFFFFFFD#32, false, false⟩
    ⟨0x3F, 3, 15, 15, 15, 0xFFD⟩ ⟨0x31, 0, 0, 0, 0, 0x000⟩
    (by decide) rfl (by decide) (by decide) (nofun) (nofun) (by cases csr <;> simp [fieldsFor, fieldsI, csrNumber, Instr.wellFormed, Csr.writable])

theorem tld (addr : BitVec 9) : Statement (.tld addr) :=
  of_fields _ ⟨"TLD", 0xC8000000#32, 0xFFFFFE00#32, false, false⟩
    ⟨0x3F, 3, 15, 15, 15, 0xE00⟩ ⟨0x32, 0, 0, 0, 0, 0x000⟩
    (by decide) rfl (by decide) (by decide) (nofun) (nofun) (by
    have h : ∀ a : BitVec 9, a.setWidth 12 &&& 0xE00#12 = 0 := by decide
    simp [fieldsFor, fieldsI, h])

theorem tst (addr : BitVec 9) : Statement (.tst addr) :=
  of_fields _ ⟨"TST", 0xCC000000#32, 0xFFFFFE00#32, false, false⟩
    ⟨0x3F, 3, 15, 15, 15, 0xE00⟩ ⟨0x33, 0, 0, 0, 0, 0x000⟩
    (by decide) rfl (by decide) (by decide) (nofun) (nofun) (by
    have h : ∀ a : BitVec 9, a.setWidth 12 &&& 0xE00#12 = 0 := by decide
    simp [fieldsFor, fieldsI, h])

end Sys2Proof.Laws.EncodingFitsRow
end

