-- ==== Sys2Proof/Tests/Slice0.lean ====
section
/-! SUPPORT. The model's own tests: the well-formedness smoke test, words written out from the spec's encoding, one or two steps of
each command with values from the spec's vectors (95_test_vectors.md, 96_test_vectors_conversions.md), and for every statement with
hypotheses a state and operands that meet them. -/

namespace Sys2Proof.Tests

open Sys2Proof Sys2Proof.Machine

/-! ## Well-formedness: each check refuses an ill-formed term -/

theorem test_wf_tostr_base_1 : (Instr.tostr .fx64 1 1).wellFormed = false := by decide
theorem test_wf_tostr_base_37 : (Instr.tostr .fx64 1 37).wellFormed = false := by decide
theorem test_wf_tostr_base_36 : (Instr.tostr .fx64 1 36).wellFormed = true := by decide
theorem test_wf_fromstr_base_0 : (Instr.fromstr .fx64 1 0 true).wellFormed = false := by decide
theorem test_wf_fromstr_base_2 : (Instr.fromstr .fx64 1 2 true).wellFormed = true := by decide
theorem test_wf_csrw_epos : (Instr.csrw .epos).wellFormed = false := by decide
theorem test_wf_csrw_tcons : (Instr.csrw .tcons).wellFormed = false := by decide

/-! ## Decoding: words written out field by field (30_encoding.md R71, R72, R74), every constructor -/

/-- `op` `wsel` `rd` `ra` `rb` `imm`, as R71 lays them out. -/
def w6 (op : BitVec 6) (wsel : BitVec 2) (rd ra rb : BitVec 4) (imm : BitVec 12) : CmdWord :=
  op ++ wsel ++ rd ++ ra ++ rb ++ imm

theorem test_decode_limb_vector :
    decode (w6 0x01 0 1 0 0 3) = .ok (.put64 1 3) ∧ decode (w6 0x02 0 15 0 0 7) = .ok (.put32 15 7)
      ∧ decode (w6 0x03 0 0 3 0 0) = .ok (.get64 3 0) ∧ decode (w6 0x04 0 0 3 0 7) = .ok (.get32 3 7)
      ∧ decode (w6 0x05 2 2 1 0 0) = .ok (.mov .fx256 2 1) ∧ decode (w6 0x06 0 3 1 2 0) = .ok (.and .fx64 3 1 2)
      ∧ decode (w6 0x07 1 3 1 2 0) = .ok (.or .fx128 3 1 2) ∧ decode (w6 0x08 0 3 1 2 0) = .ok (.xor .fx64 3 1 2)
      ∧ decode (w6 0x09 0 1 1 0 0xFFF) = .ok (.shl .fx64 1 1 4095)
      ∧ decode (w6 0x0A 2 0 1 0 192) = .ok (.shr .fx256 0 1 192)
      ∧ decode (w6 0x0B 0 2 0 1 1) = .ok (.laddc 2 0 1 true) ∧ decode (w6 0x0C 0 2 0 1 0) = .ok (.lsubb 2 0 1 false)
      ∧ decode (w6 0x0D 0 2 0 1 0) = .ok (.lmulw 2 0 1) := by decide

theorem test_decode_arithmetic :
    decode (w6 0x10 0 3 1 2 0) = .ok (.add .fx64 3 1 2) ∧ decode (w6 0x11 1 3 1 2 0) = .ok (.sub .fx128 3 1 2)
      ∧ decode (w6 0x12 1 4 4 0 0) = .ok (.neg .fx128 4 4) ∧ decode (w6 0x13 2 15 14 13 0) = .ok (.mul .fx256 15 14 13)
      ∧ decode (w6 0x14 1 4 2 0 0) = .ok (.square .fx128 4 2) ∧ decode (w6 0x15 0 6 1 2 0) = .ok (.div .fx64 6 1 2)
      ∧ decode (w6 0x16 1 2 1 0 0) = .ok (.sqrt .fx128 2 1) := by decide

theorem test_decode_compare :
    decode (w6 0x18 0 8 4 6 0) = .ok (.lt .fx64 8 4 6) ∧ decode (w6 0x19 0 8 4 6 0) = .ok (.gt .fx64 8 4 6)
      ∧ decode (w6 0x1A 0 8 4 6 0) = .ok (.le .fx64 8 4 6) ∧ decode (w6 0x1B 1 7 6 2 0) = .ok (.ge .fx128 7 6 2)
      ∧ decode (w6 0x1C 0 5 3 4 0) = .ok (.eq .fx64 5 3 4) ∧ decode (w6 0x1D 0 5 3 4 0) = .ok (.ne .fx64 5 3 4)
      ∧ decode (w6 0x1E 0 9 4 6 0) = .ok (.ltu .fx64 9 4 6) ∧ decode (w6 0x1F 0 9 4 6 0) = .ok (.gtu .fx64 9 4 6)
      ∧ decode (w6 0x20 0 9 4 6 0) = .ok (.leu .fx64 9 4 6) ∧ decode (w6 0x21 0 9 4 6 0) = .ok (.geu .fx64 9 4 6) := by
  decide

theorem test_decode_conversion :
    decode (w6 0x24 0 1 0 0 0) = .ok (.fromint .fx64 1 0) ∧ decode (w6 0x25 0 0 1 0 0x024) = .ok (.tostr .fx64 1 36)
      ∧ decode (w6 0x26 2 2 0 0 0x042) = .ok (.fromstr .fx256 2 2 true)
      ∧ decode (w6 0x26 0 4 0 0 0x010) = .ok (.fromstr .fx64 4 16 false)
      ∧ decode (w6 0x27 1 3 2 0 0) = .ok (.todbl .fx128 3 2) ∧ decode (w6 0x28 1 6 3 0 0) = .ok (.fromdbl .fx128 6 3) := by
  decide

theorem test_decode_system :
    decode (w6 0x30 0 0 0 0 3) = .ok (.csrr .tcons) ∧ decode (w6 0x31 0 0 0 0 0) = .ok (.csrw .status)
      ∧ decode (w6 0x31 0 0 0 0 2) = .ok (.csrw .tlen) ∧ decode (w6 0x32 0 0 0 0 15) = .ok (.tld 15)
      ∧ decode (w6 0x33 0 0 0 0 0x1FF) = .ok (.tst 511) := by decide

/-- T34 to T43 (95_test_vectors.md section 2), with the item of R75 that refuses each. -/
theorem test_decode_illegal :
    decode 0x00000000 = .error .reservedOpcode ∧ decode 0xFFFFFFFF = .error .reservedOpcode
      ∧ decode 0x5C000000 = .error .reservedOpcode ∧ decode 0x43312000 = .error .badWidth
      ∧ decode 0x35201000 = .error .badWidth ∧ decode 0x48441000 = .error .unusedRegister
      ∧ decode 0x40312001 = .error .badImmediate ∧ decode 0x2C201002 = .error .badImmediate
      ∧ decode 0x04100004 = .error .badImmediate ∧ decode 0x10030008 = .error .badImmediate := by decide

/-- T44 to T53. -/
theorem test_decode_illegal_operands :
    decode 0x0C130000 = .error .unusedRegister ∧ decode 0x94010001 = .error .badImmediate
      ∧ decode 0x94010025 = .error .badImmediate ∧ decode 0x9401004A = .error .badImmediate
      ∧ decode 0x9820008A = .error .badImmediate ∧ decode 0x9821000A = .error .unusedRegister
      ∧ decode 0xC0000004 = .error .badImmediate ∧ decode 0xC4000001 = .error .readOnlyControl
      ∧ decode 0xC4000003 = .error .readOnlyControl ∧ decode 0xC8000200 = .error .badImmediate := by decide

/-! ## One step of each command -/

/-- The reset unit with some registers set. -/
def unit (regs : List (VReg × Value)) : State := regs.foldl (fun s p => writeV s p.1 p.2) State.reset

/-- The reset unit with some registers set and a data word. -/
def unitDin (regs : List (VReg × Value)) (din : Limb) : State := { unit regs with din := din }

/-- The reset unit with a text. -/
def unitText (text : List Byte) : State := setTlen (setText State.reset (storeBytes [] 0 text)) text.length

/-- The value of a register after a step, when it completes. -/
def after (r : Result) (rd : VReg) : Option Value :=
  match r with
  | .next t => if t.response = some ⟨0, 0⟩ then some (readV t rd) else none
  | _ => none

/-- The response of a step. -/
def answer (r : Result) : Option Response :=
  match r with
  | .next t => t.response
  | _ => none

/-- STATUS, EPOS, TLEN, TCONS after a step. -/
def control (r : Result) : Option (Nat × Nat × Nat × Nat) :=
  match r with
  | .next t => some ((statusWord t).toNat, t.epos.toNat, t.tlen.toNat, t.tcons.toNat)
  | _ => none

/-- The string in the text buffer after a step. -/
def textAfter (r : Result) : Option (List Byte) :=
  match r with
  | .next t => fetchText t
  | _ => none

/-- T55. -/
theorem test_put64 : after (exec (.put64 1 2)
    (unitDin [(1, 0x0000000000000007000000000000000500000000000000030000000000000001)] 0xAAAABBBBCCCCDDDD)) 1
      = some 0x0000000000000007AAAABBBBCCCCDDDD00000000000000030000000000000001 := by decide

/-- T56: only `din[31:0]` is used. -/
theorem test_put32 : after (exec (.put32 1 1)
    (unitDin [(1, 0x0000000000000007AAAABBBBCCCCDDDD00000000000000030000000000000001)] 0x1234567889ABCDEF)) 1
      = some 0x0000000000000007AAAABBBBCCCCDDDD000000000000000389ABCDEF00000001 := by decide

/-- T57. -/
theorem test_get64 : answer (exec (.get64 1 2)
    (unit [(1, 0x0000000000000007AAAABBBBCCCCDDDD000000000000000389ABCDEF00000001)]))
      = some ⟨0xAAAABBBBCCCCDDDD, 0⟩ := by decide

/-- T58. -/
theorem test_get32 : answer (exec (.get32 1 5)
    (unit [(1, 0x0000000000000007AAAABBBBCCCCDDDD000000000000000389ABCDEF00000001)]))
      = some ⟨0x00000000AAAABBBB, 0⟩ := by decide

/-- T61: the upper limbs are zeroed. -/
theorem test_mov_narrow : after (exec (.mov .fx128 1 1)
    (unit [(1, 0x0000000000000007AAAABBBBCCCCDDDD000000000000000389ABCDEF00000001)])) 1
      = some 0x000000000000000389ABCDEF00000001 := by decide

/-- T62. -/
theorem test_and : after (exec (.and .fx64 3 1 2) (unit [(1, 0xFF00000000000000), (2, 0x0180000000000000)])) 3
    = some 0x0100000000000000 := by decide

/-- T63. -/
theorem test_or : after (exec (.or .fx64 3 1 2) (unit [(1, 0x0100000000000000), (2, 0x0080000000000000)])) 3
    = some 0x0180000000000000 := by decide

/-- T64. -/
theorem test_xor : after (exec (.xor .fx64 3 1 2) (unit [(1, 0xFF00000000000000), (2, 0x0180000000000000)])) 3
    = some 0xFE80000000000000 := by decide

/-- T66: across the limb boundary. -/
theorem test_shl : after (exec (.shl .fx128 3 1 1) (unit [(1, 0x00000000000000008000000000000001)])) 3
    = some 0x00000000000000010000000000000002 := by decide

/-- T72: a count of B gives 0. -/
theorem test_shl_width : after (exec (.shl .fx64 3 1 64) (unit [(1, 0xFFFFFFFFFFFFFFFF)])) 3 = some 0 := by decide

/-- T67. -/
theorem test_shr : after (exec (.shr .fx128 3 1 1) (unit [(1, 0x00000000000000010000000000000002)])) 3
    = some 0x00000000000000008000000000000001 := by decide

/-- T68: logical, not arithmetic. -/
theorem test_shr_logical : after (exec (.shr .fx64 3 1 56) (unit [(1, 0xFF00000000000000)])) 3 = some 0xFF := by decide

/-- T80. -/
theorem test_laddc : after (exec (.laddc 2 0 1 true) (unit [(0, 0xFFFFFFFFFFFFFFFF), (1, 0xFFFFFFFFFFFFFFFF)])) 2
    = some 0x1FFFFFFFFFFFFFFFF := by decide

/-- T88. -/
theorem test_lsubb : after (exec (.lsubb 2 0 1 true) (unit [(0, 3), (1, 0xFFFFFFFFFFFFFFFF)])) 2
    = some 0x10000000000000003 := by decide

/-- T90. -/
theorem test_lmulw : after (exec (.lmulw 2 0 1) (unit [(0, 0xFFFFFFFFFFFFFFFF), (1, 0xFFFFFFFFFFFFFFFF)])) 2
    = some 0xFFFFFFFFFFFFFFFE0000000000000001 := by decide

/-- T94: the source is also the destination. -/
theorem test_lmulw_same_register : after (exec (.lmulw 0 0 0) (unit [(0, 3)])) 0 = some 9 := by decide

/-- T96: MAX + ulp wraps to MIN. -/
theorem test_add_wraps : after (exec (.add .fx64 3 1 2) (unit [(1, 0x7FFFFFFFFFFFFFFF), (2, 1)])) 3
    = some 0x8000000000000000 := by decide

/-- T102: the carry crosses three limb boundaries. -/
theorem test_add_carry : after (exec (.add .fx256 3 1 2)
    (unit [(1, 0x0000000000000000FFFFFFFFFFFFFFFFFFFFFFFFFFFFFFFFFFFFFFFFFFFFFFFF), (2, 1)])) 3
      = some 0x0000000000000001000000000000000000000000000000000000000000000000 := by decide

/-- T104. -/
theorem test_sub : after (exec (.sub .fx64 3 1 2) (unit [(1, 0x0180000000000000), (2, 0x0280000000000000)])) 3
    = some 0xFF00000000000000 := by decide

/-- T109: the borrow crosses the limb boundary. -/
theorem test_sub_borrow : after (exec (.sub .fx128 3 1 2) (unit [(1, 0x10000000000000000), (2, 1)])) 3
    = some 0xFFFFFFFFFFFFFFFF := by decide

/-- T112. -/
theorem test_neg : after (exec (.neg .fx64 3 1) (unit [(1, 0x0100000000000000)])) 3 = some 0xFF00000000000000 := by decide

/-- T114: MIN maps to itself. -/
theorem test_neg_min : after (exec (.neg .fx64 3 1) (unit [(1, 0x8000000000000000)])) 3
    = some 0x8000000000000000 := by decide

/-- T121: -1.5 * 2.5. -/
theorem test_mul_sign : after (exec (.mul .fx64 3 1 2) (unit [(1, 0xFE80000000000000), (2, 0x0280000000000000)])) 3
    = some 0xFC40000000000000 := by decide +kernel

/-- T126: a half rounds away from zero. -/
theorem test_mul_half : after (exec (.mul .fx64 3 1 2) (unit [(1, 0xFFFFFFFFFFFFFFFF), (2, 0x0080000000000000)])) 3
    = some 0xFFFFFFFFFFFFFFFF := by decide +kernel

/-- T153. -/
theorem test_square : after (exec (.square .fx64 3 1) (unit [(1, 0x0000000010000000)])) 3 = some 1 := by decide +kernel

/-- T150. -/
theorem test_square_negative : after (exec (.square .fx64 3 1) (unit [(1, 0xFE80000000000000)])) 3
    = some 0x0240000000000000 := by decide +kernel

/-- T160: 2.0 / -3.0 rounds away from zero at FX64. -/
theorem test_div_rounds : after (exec (.div .fx64 3 1 2) (unit [(1, 0x0200000000000000), (2, 0xFD00000000000000)])) 3
    = some 0xFF55555555555555 := by decide +kernel

/-- T177: 2.0 / 3.0 is cut at FX128. -/
theorem test_div_cuts : after (exec (.div .fx128 3 1 2)
    (unit [(1, 0x00000002000000000000000000000000), (2, 0x00000003000000000000000000000000)])) 3
      = some 0x00000000AAAAAAAAAAAAAAAAAAAAAAAA := by decide +kernel

/-- T314: at FX64 an odd `k` rounds up. -/
theorem test_sqrt_rounds : after (exec (.sqrt .fx64 3 1) (unit [(1, 7)])) 3 = some 0x2A54FF54 := by decide +kernel

/-- T330: at FX128 the half is dropped. -/
theorem test_sqrt_cuts : after (exec (.sqrt .fx128 3 1) (unit [(1, 0x00000002000000000000000000000000)])) 3
    = some 0x000000016A09E667F3BCC908B2FB1366 := by decide +kernel

/-- T186 and T194: LT, GT, LE, GE, EQ, NE. -/
def negOne : State := unit [(1, 0xFF00000000000000), (2, 0x0100000000000000)]

theorem test_lt : after (exec (.lt .fx64 3 1 2) negOne) 3 = some 1 := by decide
theorem test_gt : after (exec (.gt .fx64 3 1 2) negOne) 3 = some 0 := by decide
theorem test_le : after (exec (.le .fx64 3 1 2) negOne) 3 = some 1 := by decide
theorem test_ge : after (exec (.ge .fx64 3 1 2) negOne) 3 = some 0 := by decide
theorem test_eq : after (exec (.eq .fx64 3 1 1) negOne) 3 = some 1 := by decide
theorem test_ne : after (exec (.ne .fx64 3 1 2) negOne) 3 = some 1 := by decide
theorem test_ltu : after (exec (.ltu .fx64 3 1 2) negOne) 3 = some 0 := by decide
theorem test_gtu : after (exec (.gtu .fx64 3 1 2) negOne) 3 = some 1 := by decide
theorem test_leu : after (exec (.leu .fx64 3 1 2) negOne) 3 = some 0 := by decide
theorem test_geu : after (exec (.geu .fx64 3 1 2) negOne) 3 = some 1 := by decide

/-- T202: upper limbs are ignored at `.64` and not at `.128`. -/
theorem test_eq_width : after (exec (.eq .fx64 3 1 2) (unit [(1, 0x50000000000000007), (2, 7)])) 3 = some 1
    ∧ after (exec (.eq .fx128 3 1 2) (unit [(1, 0x50000000000000007), (2, 7)])) 3 = some 0 := by decide

/-- T206 and T215. -/
theorem test_fromint : after (exec (.fromint .fx64 3 1) (unit [(1, 0x12C)])) 3 = some 0x2C00000000000000 := by decide
theorem test_fromint_wide : after (exec (.fromint .fx256 3 1) (unit [(1, 0x123456789ABCDEF0)])) 3
    = some 0x123456789ABCDEF0000000000000000000000000000000000000000000000000 := by decide

/-- T241: "-1.25". -/
theorem test_tostr : textAfter (exec (.tostr .fx128 1 10) (unit [(1, 0xFFFFFFFEC00000000000000000000000)]))
    = some [0x2D, 0x31, 0x2E, 0x32, 0x35] := by decide +kernel

/-- T235: 0.5 in base 3 is cut at 56 digits: TLEN = 58, TRUNC = 1. -/
theorem test_tostr_cut : control (exec (.tostr .fx64 1 3) (unit [(1, 0x0080000000000000)])) = some (8, 0, 58, 0) := by
  decide +kernel

/-- T262: "1.5x" in base 36. -/
theorem test_fromstr : after (exec (.fromstr .fx64 5 36 false) (unitText [0x31, 0x2E, 0x35, 0x78])) 5
    = some 0x012A12F684BDA12F := by decide +kernel

/-- T261: "1.5x" in base 10 is a ParseError at 3 even with `e`. -/
theorem test_fromstr_error : control (exec (.fromstr .fx64 5 10 true) (unitText [0x31, 0x2E, 0x35, 0x78]))
    = some (1, 3, 4, 0) := by decide +kernel

/-- T358: the tie goes away from zero. -/
theorem test_todbl_tie : after (exec (.todbl .fx64 3 1) (unit [(1, 0x0020000000000001)])) 3
    = some 0x3FC0000000000001 := by decide +kernel

/-- T353: MIN. -/
theorem test_todbl_min : after (exec (.todbl .fx64 3 1) (unit [(1, 0x8000000000000000)])) 3
    = some 0xC060000000000000 := by decide +kernel

/-- T399: cut, not rounded. -/
theorem test_fromdbl_cuts : after (exec (.fromdbl .fx64 3 1) (unit [(1, 0x3FD5555555555555)])) 3
    = some 0x0055555555555554 := by decide +kernel

/-- T401. -/
theorem test_fromdbl_negative : after (exec (.fromdbl .fx64 3 1) (unit [(1, 0xC05FFFFFFFFFFFFF)])) 3
    = some 0x8000000000000400 := by decide +kernel

/-- T448: STATUS holds ERR 2 and TRUNC. -/
theorem test_csrr_status : answer (exec (.csrr .status) { State.reset with err := 2, trunc := true })
    = some ⟨0xA, 0⟩ := by decide

/-- T424. -/
theorem test_csrw_status : control (exec (.csrw .status)
    { State.reset with err := 1, trunc := true, epos := 2, tlen := 3, din := 0xFFFF }) = some (0, 0, 3, 0) := by decide

/-- T54: 513 is above TEXT_CAP. -/
theorem test_csrw_tlen : control (exec (.csrw .tlen) { State.reset with din := 513 }) = some (4, 0, 0, 0)
    ∧ control (exec (.csrw .tlen) { State.reset with din := 512 }) = some (0, 0, 512, 0) := by decide

/-- T430. -/
theorem test_tld : answer (exec (.tld 0) (unitText [0x31, 0x32])) = some ⟨0x31, 0⟩ := by decide

/-- T427: `din[63:8]` is ignored; the last byte of the buffer. -/
theorem test_tst : (match exec (.tst 511) { State.reset with din := 0x131 } with
    | .next t => loadByte t.tb 511
    | _ => 0) = 0x31 := by decide

/-- T419, T422: the first error is kept. -/
theorem test_first_error_wins :
    control (exec (.sqrt .fx64 3 4) { unit [(4, 0xFFFFFFFFFFFFFFFF)] with err := 2 }) = some (2, 0, 0, 0)
      ∧ answer (exec (.sqrt .fx64 3 4) { unit [(4, 0xFFFFFFFFFFFFFFFF)] with err := 2 }) = some ⟨0, 3⟩ := by decide

/-- Program 5, transaction 7: a reserved opcode. -/
theorem test_step_illegal :
    answer (step { State.reset with port := [.command 0x5C000000 7] }) = some ⟨0, 4⟩ := by decide

/-- Program 1, transaction 1, from reset. -/
theorem test_step_put64 :
    after (step { State.reset with port := [.command 0x04100000 0x0180000000000000] }) 1
      = some 0x0180000000000000 := by decide

/-- The host's two definitions on one table word: ADD. -/
theorem test_table_word : decodeTableWord 32 0x40312000 = some (.add .fx64 3 1 2)
    ∧ after (step (State.reset.withFetchWord 32 0x40312000)) 3 = some 0 := by decide

/-! ## Witnesses: for every statement with hypotheses, a state and operands that meet them together, at the edge of each clause.
`witness_<Name>` is for `Obligations.<Name>`. -/

theorem witness_DecodeOfEncodeGivesTheCommand :
    (Instr.tostr .fx64 15 36).wellFormed = true ∧ (Instr.fromstr .fx256 0 2 true).wellFormed = true
      ∧ (Instr.csrw .tlen).wellFormed = true ∧ (Instr.shl .fx128 0 15 0xFFF).wellFormed = true := by decide

/-- The reset unit with one event at its port. -/
def sent (e : HostEvent) : State := { State.reset with port := [e, .reset] }

/-- CSRW to TLEN with 512 and with 513. -/
theorem witness_EveryWordIsOneCommandOrIllegal :
    (∃ t, (sent (.command 0xC4000002 512)).port = .command 0xC4000002 512 :: [.reset]
      ∧ step (sent (.command 0xC4000002 512)) = .next t ∧ t.response = some ⟨0, 0⟩)
    ∧ ∃ t, (sent (.command 0xC4000002 513)).port = .command 0xC4000002 513 :: [.reset]
      ∧ step (sent (.command 0xC4000002 513)) = .next t ∧ t.response = some ⟨0, 4⟩ :=
  ⟨⟨_, by decide, rfl, by decide⟩, _, by decide, rfl, by decide⟩

theorem witness_StepRunsTheDecodedCommand :
    (sent (.command 0x40312000 5)).port = .command 0x40312000 5 :: [.reset]
      ∧ decode 0x40312000 = .ok (.add .fx64 3 1 2) := by decide

theorem witness_IllegalWordRaisesIllegalCommand :
    (sent (.command 0 5)).port = .command 0 5 :: [.reset] ∧ (∀ r ∈ opcodeTable, r.accepts 0 = false)
      ∧ (∀ r ∈ opcodeTable, r.accepts 0xFFFFFFFF = false)
      ∧ (sent (.command 0xC4000002 513)).port = .command 0xC4000002 513 :: [.reset] ∧ 512 < (513 : Limb).toNat := by decide

theorem witness_IllFormedCommandRaisesIllegalCommand :
    (Instr.tostr .fx64 1 1).wellFormed = false ∧ (Instr.fromstr .fx64 1 37 true).wellFormed = false
      ∧ (Instr.csrw .epos).wellFormed = false ∧ (Instr.csrw .tcons).wellFormed = false := by decide

theorem witness_ResetEventClearsEverything : (sent .reset).port = .reset :: [.reset] := by decide

/-- A unit with something in every piece of its state, at the upper edges of the invariant. -/
def busy : State := { unitText [0x2D, 0x31] with
  err := 1, epos := 512, tcons := 512, tlen := 512, trunc := true, port := [.command 0x55312000 5], response := some ⟨0, 4⟩ }

theorem witness_EveryStepKeepsTheInvariant : State.Wf busy ∧ State.Wf State.reset ∧ ∃ t, step busy = .next t := by
  refine ⟨?_, ?_, _, rfl⟩ <;>
    exact ⟨by decide, by decide, by decide, by decide, by decide, by decide, by decide⟩

theorem witness_EveryStepGoesOnAndAnswers : State.Wf busy ∧ busy.port = .command 0x55312000 5 :: [] :=
  ⟨witness_EveryStepKeepsTheInvariant.1, rfl⟩

/-- DIV by zero, sent to the reset unit and to a unit that holds an error. -/
theorem witness_RaisingCommandChangesOnlyTheRecord :
    (∃ t, step (sent (.command 0x55312000 5)) = .next t ∧ t.response = some ⟨0, 2⟩ ∧ (sent (.command 0x55312000 5)).err = 0)
      ∧ ∃ t, step busy = .next t ∧ t.response = some ⟨0, 2⟩ ∧ busy.err ≠ 0 :=
  ⟨⟨_, rfl, by decide, by decide⟩, _, rfl, by decide, by decide⟩

theorem witness_CompletedCommandKeepsTheRecord :
    (∃ t, exec (.add .fx64 1 1 1) busy = .next t ∧ Answers t 0 ∧ Instr.add .fx64 1 1 1 ≠ .csrw .status)
      ∧ ∃ t, exec (.csrw .status) busy = .next t ∧ Answers t 0 :=
  ⟨⟨_, rfl, rfl, by decide⟩, _, rfl, rfl⟩

/-- A command that answers each code of R260. -/
theorem witness_ErrorCodesComeFromTheirCommands :
    (∃ t, exec (.fromstr .fx64 1 10 false) State.reset = .next t ∧ t.response = some ⟨0, 1⟩)
      ∧ (∃ t, exec (.div .fx64 1 1 1) State.reset = .next t ∧ t.response = some ⟨0, 2⟩)
      ∧ (∃ t, exec (.sqrt .fx64 1 1) (unit [(1, 0x8000000000000000)]) = .next t ∧ t.response = some ⟨0, 3⟩)
      ∧ (∃ t, exec (.fromdbl .fx64 1 1) (unit [(1, 0x7FF0000000000000)]) = .next t ∧ t.response = some ⟨0, 3⟩)
      ∧ (∃ t, exec (.csrw .tlen) { State.reset with din := 513 } = .next t ∧ t.response = some ⟨0, 4⟩) :=
  ⟨⟨_, rfl, by decide⟩, ⟨_, rfl, by decide⟩, ⟨_, rfl, by decide⟩, ⟨_, rfl, by decide⟩, _, rfl, by decide⟩

theorem witness_WritersOfTextAndLengths :
    (∃ t, exec (.tst 511) busy = .next t) ∧ (∃ t, exec (.csrw .tlen) busy = .next t)
      ∧ (∃ t, exec (.add .fx64 1 1 1) busy = .next t)
      ∧ (∃ t, exec (.tostr .fx64 1 10) busy = .next t ∧ (valueText .fx64 10 (readW busy .fx64 1)).length ≤ 1)
      ∧ ∃ t, exec (.fromstr .fx64 1 10 true) (unitText [0x31]) = .next t :=
  ⟨⟨_, rfl⟩, ⟨_, rfl⟩, ⟨_, rfl⟩, ⟨_, rfl, by decide +kernel⟩, _, rfl⟩

theorem witness_ErrorRecordDoesNotSteer :
    SameButRecord State.reset { State.reset with err := 4, trunc := true, epos := 3, response := some ⟨7, 0⟩ }
      ∧ Instr.add .fx64 1 1 1 ≠ .csrr .status ∧ Instr.add .fx64 1 1 1 ≠ .csrr .epos
      ∧ ∃ t, exec (.add .fx64 1 1 1) State.reset = .next t :=
  ⟨⟨rfl, rfl, rfl, rfl, rfl, rfl⟩, by decide, by decide, _, rfl⟩

/-- Two units that differ above bit 63 of the source, in a register that is no source, and in `din`; and two that differ above the
string. -/
theorem witness_ResultDependsOnOperandsOnly :
    OperandsAgree (.mov .fx64 2 1) (unit [(1, 5)]) (unitDin [(1, 0x10000000000000005), (3, 9)] 7)
      ∧ (∃ t, exec (.mov .fx64 2 1) (unit [(1, 5)]) = .next t ∧ t.response.map Response.err = some 0
        ∧ destination (.mov .fx64 2 1) = some 2)
      ∧ OperandsAgree (.fromstr .fx64 2 10 true) (unitText [0x31]) { unitText [0x31, 0x32] with tlen := 1 } :=
  ⟨⟨by decide, fun h => absurd h (by decide), fun _ _ _ _ h => by cases h⟩, ⟨_, rfl, by decide, rfl⟩,
    by decide, fun h => absurd h (by decide), fun _ _ _ _ _ => ⟨rfl, by decide⟩⟩

theorem witness_TwoPut32ReadBackAsOneLimb : (6 : Fin 8).val = 2 * (3 : Fin 4).val ∧ (7 : Fin 8).val = 2 * (3 : Fin 4).val + 1
    ∧ (0 : Fin 8).val = 2 * (0 : Fin 4).val ∧ (1 : Fin 8).val = 2 * (0 : Fin 4).val + 1 := by decide

theorem witness_BitwiseCommandsWorkBitByBit :
    ((Instr.and .fx64 3 1 2 = .and .fx64 3 1 2 ∧ Bool.and = Bool.and)
        ∨ (Instr.and .fx64 3 1 2 = .or .fx64 3 1 2 ∧ Bool.and = Bool.or)
        ∨ (Instr.and .fx64 3 1 2 = .xor .fx64 3 1 2 ∧ Bool.and = Bool.xor))
      ∧ ((Instr.or .fx64 3 1 2 = .and .fx64 3 1 2 ∧ Bool.or = Bool.and)
        ∨ (Instr.or .fx64 3 1 2 = .or .fx64 3 1 2 ∧ Bool.or = Bool.or)
        ∨ (Instr.or .fx64 3 1 2 = .xor .fx64 3 1 2 ∧ Bool.or = Bool.xor))
      ∧ ((Instr.xor .fx64 3 1 2 = .and .fx64 3 1 2 ∧ Bool.xor = Bool.and)
        ∨ (Instr.xor .fx64 3 1 2 = .or .fx64 3 1 2 ∧ Bool.xor = Bool.or)
        ∨ (Instr.xor .fx64 3 1 2 = .xor .fx64 3 1 2 ∧ Bool.xor = Bool.xor)) :=
  ⟨.inl ⟨rfl, rfl⟩, .inr (.inl ⟨rfl, rfl⟩), .inr (.inr ⟨rfl, rfl⟩)⟩

/-- `x = y + b`, the last without a borrow, and `x = y` with `b = 1`, the first with one. -/
theorem witness_LsubbDeliversDifferenceAndBorrow :
    5 = (readV (unit [(1, 5), (2, 4)]) 1).toNat % 2 ^ 64 ∧ 4 = (readV (unit [(1, 5), (2, 4)]) 2).toNat % 2 ^ 64
      ∧ ¬ 5 < 4 + true.toNat ∧ 5 < 5 + true.toNat := by decide

/-- `n` for the operands 0 and MIN. -/
theorem witness_NegIsTheTwosComplement :
    2 ^ 64 = ((2 ^ bits .fx64 - 1) ^^^ readW State.reset .fx64 1) + 1 ∧ readW State.reset .fx64 1 = 0
      ∧ 2 ^ 63 = ((2 ^ bits .fx64 - 1) ^^^ readW (unit [(1, 0x8000000000000000)]) .fx64 1) + 1
      ∧ readW (unit [(1, 0x8000000000000000)]) .fx64 1 = 2 ^ (bits .fx64 - 1) := by decide +kernel

theorem witness_WideProductIsExact :
    2 ^ 64 - 1 < 2 ^ bits .fx64 ∧ 2 ^ 128 - 1 < 2 ^ bits .fx128 ∧ 2 ^ 256 - 1 < 2 ^ bits .fx256 ∧ 0 < 2 ^ bits .fx256 := by
  decide +kernel

/-- MIN times 1.0: the signs differ. -/
theorem witness_MulRoundsTheMagnitudeProduct :
    ∃ a b p r : Nat, a = readW (unit [(1, 0x8000000000000000), (2, 0x0100000000000000)]) .fx64 1
      ∧ b = readW (unit [(1, 0x8000000000000000), (2, 0x0100000000000000)]) .fx64 2
      ∧ p = mag (bits .fx64) a * mag (bits .fx64) b
      ∧ r = (p / 2 ^ fracBits .fx64 + p / 2 ^ (fracBits .fx64 - 1) % 2) % 2 ^ bits .fx64
      ∧ signBit (bits .fx64) a ≠ signBit (bits .fx64) b :=
  ⟨_, _, _, _, rfl, rfl, rfl, rfl, by decide +kernel⟩

theorem witness_SquareRoundsTheSquaredMagnitude :
    2 ^ 63 = mag (bits .fx64) (readW (unit [(1, 0x8000000000000000)]) .fx64 1) := by decide +kernel

/-- -1.5 times 2.5, and MIN times 1.0, which gives MIN. -/
theorem witness_MulIsNearestWhereItFits :
    (∃ (t : State) (a b p : Nat), exec (.mul .fx64 3 1 2) (unit [(1, 0xFE80000000000000), (2, 0x0280000000000000)]) = .next t
      ∧ a = readW (unit [(1, 0xFE80000000000000), (2, 0x0280000000000000)]) .fx64 1
      ∧ b = readW (unit [(1, 0xFE80000000000000), (2, 0x0280000000000000)]) .fx64 2
      ∧ p = mag (bits .fx64) a * mag (bits .fx64) b + 2 ^ (fracBits .fx64 - 1)
      ∧ p < 2 ^ (bits .fx64 - 1) * 2 ^ fracBits .fx64)
    ∧ ∃ (t : State) (a b p : Nat), exec (.mul .fx64 3 1 2) (unit [(1, 0x8000000000000000), (2, 0x0100000000000000)]) = .next t
      ∧ a = readW (unit [(1, 0x8000000000000000), (2, 0x0100000000000000)]) .fx64 1
      ∧ b = readW (unit [(1, 0x8000000000000000), (2, 0x0100000000000000)]) .fx64 2
      ∧ p = mag (bits .fx64) a * mag (bits .fx64) b + 2 ^ (fracBits .fx64 - 1)
      ∧ ¬ p < 2 ^ (bits .fx64 - 1) * 2 ^ fracBits .fx64
      ∧ signBit (bits .fx64) a ≠ signBit (bits .fx64) b ∧ p < (2 ^ (bits .fx64 - 1) + 1) * 2 ^ fracBits .fx64 :=
  ⟨⟨_, _, _, _, rfl, rfl, rfl, rfl, by decide +kernel⟩,
    _, _, _, _, rfl, rfl, rfl, rfl, by decide +kernel, by decide +kernel, by decide +kernel⟩

/-- 1 ulp / 2.0 at FX64, where the first bit cut off is a 1, with the signs equal; and -1 ulp / 2.0, with the signs apart. -/
theorem witness_DivIsTheScaledQuotient :
    (∃ a b q r : Nat, a = readW (unit [(1, 1), (2, 0x0200000000000000)]) .fx64 1
      ∧ b = readW (unit [(1, 1), (2, 0x0200000000000000)]) .fx64 2 ∧ b ≠ 0
      ∧ q = mag (bits .fx64) a * 2 ^ fracBits .fx64 / mag (bits .fx64) b
      ∧ r = (q + if Width.fx64 = .fx64 ∧ 2 * (mag (bits .fx64) a * 2 ^ fracBits .fx64 % mag (bits .fx64) b)
          ≥ mag (bits .fx64) b then 1 else 0) % 2 ^ bits .fx64
      ∧ r = 1 ∧ signBit (bits .fx64) a = signBit (bits .fx64) b)
    ∧ ∃ a b : Nat, a = readW (unit [(1, 0xFFFFFFFFFFFFFFFF), (2, 0x0200000000000000)]) .fx64 1
      ∧ b = readW (unit [(1, 0xFFFFFFFFFFFFFFFF), (2, 0x0200000000000000)]) .fx64 2 ∧ b ≠ 0
      ∧ signBit (bits .fx64) a ≠ signBit (bits .fx64) b :=
  ⟨⟨_, _, _, _, rfl, rfl, by decide +kernel, rfl, rfl, by decide +kernel, by decide +kernel⟩,
    _, _, rfl, rfl, by decide +kernel, by decide +kernel⟩

/-- The low 64 bits are zero though the register is not; and one that is not zero at the next width. -/
theorem witness_DivideByZeroIsDecidedByTheDivisor : readW (unit [(2, 0x10000000000000000)]) .fx64 2 = 0
    ∧ readW (unit [(2, 0x10000000000000000)]) .fx128 2 ≠ 0 := by decide

/-- MIN and MAX, adjacent the other way round in the other order; and a pattern with itself. -/
theorem witness_SignedRelationsCompareAsIntegers :
    ∃ x y : Int, x = ((readV (unit [(1, 0x8000000000000000), (2, 0x7FFFFFFFFFFFFFFF)]) 1).setWidth (bits .fx64)).toInt
      ∧ y = ((readV (unit [(1, 0x8000000000000000), (2, 0x7FFFFFFFFFFFFFFF)]) 2).setWidth (bits .fx64)).toInt ∧ x < y :=
  ⟨_, _, rfl, rfl, by decide⟩

theorem witness_UnsignedRelationsComparePatterns :
    ∃ x y : Nat, x = ((readV (unit [(1, 0x8000000000000000), (2, 0x7FFFFFFFFFFFFFFF)]) 1).setWidth (bits .fx64)).toNat
      ∧ y = ((readV (unit [(1, 0x8000000000000000), (2, 0x7FFFFFFFFFFFFFFF)]) 2).setWidth (bits .fx64)).toNat ∧ y < x :=
  ⟨_, _, rfl, rfl, by decide⟩

theorem witness_TheTwoOrdersAgreeOnEqualSigns :
    2 ^ 64 - 1 < 2 ^ bits .fx64 ∧ 2 ^ 63 < 2 ^ bits .fx64 ∧ 2 ^ 63 - 1 < 2 ^ bits .fx64
      ∧ signBit (bits .fx64) (2 ^ 63) = true ∧ signBit (bits .fx64) (2 ^ 63 - 1) = false
      ∧ signBit (bits .fx64) (2 ^ 64 - 1) = signBit (bits .fx64) (2 ^ 63)
      ∧ scmp (bits .fx64) (2 ^ 63) (2 ^ 64 - 1) = .lt ∧ scmp (bits .fx64) (2 ^ 64 - 1) (2 ^ 63 - 1) = .lt
      ∧ ucmp (2 ^ 63 - 1) (2 ^ 63) = .lt ∧ ucmp (2 ^ 63) (2 ^ 64 - 1) = .lt := by decide +kernel

/-- `n = 0`, and `n` at a power of the base. -/
theorem witness_IntegerDigitsAreTheNumeral : 2 ≤ 2 ∧ (0 : Nat) = 0 ∧ (64 : Nat) ≠ 0 := by decide

/-- An even and an odd base, the largest fraction. -/
theorem witness_FractionDigitsAreExactOrCut :
    2 ≤ 36 ∧ 2 ≤ 3 ∧ 2 ^ 56 - 1 < 2 ^ 56 ∧ Even 36 ∧ Odd 3 ∧ (2 ^ 56 - 1 : Nat) ≠ 0 :=
  ⟨by decide, by decide, by decide, ⟨18, rfl⟩, ⟨1, rfl⟩, by decide⟩

/-- Base 36, over a text that is there. -/
theorem witness_TostrPlacesTheText :
    ∃ (s : State) (b a m : Nat) (text : List Byte), Memory.wf s.tb = true ∧ b = (36 : BitVec 6).toNat ∧ 2 ≤ b ∧ b ≤ 36
      ∧ a = readW s .fx64 1 ∧ m = mag (bits .fx64) a
      ∧ text = numeral (signBit (bits .fx64) a) (intDigits (m / 2 ^ fracBits .fx64) b)
        (fracDigits (fracBits .fx64) (m % 2 ^ fracBits .fx64) b).1 :=
  ⟨busy, _, _, _, _, by decide, rfl, by decide, by decide, rfl, rfl, rfl⟩

/-- Bases 2 and 36, MAX and MIN. -/
theorem witness_TostrLengthBound :
    2 ≤ (2 : BitVec 6).toNat ∧ (36 : BitVec 6).toNat ≤ 36
      ∧ readW (unit [(1, 0x7FFFFFFFFFFFFFFF)]) .fx64 1 < 2 ^ (bits .fx64 - 1)
      ∧ readW (unit [(1, 0x8000000000000000)]) .fx64 1 = 2 ^ (bits .fx64 - 1) := by decide

/-- "-1.5" and "z", bases 10 and 36. -/
theorem witness_FromstrReadsEveryNumeral :
    (10 = (10 : BitVec 6).toNat ∧ [1] ≠ ([] : List Nat) ∧ DigitsBelow 10 [1] ∧ DigitsBelow 10 [5]
      ∧ TextIs (unitText [0x2D, 0x31, 0x2E, 0x35]) (numeral true [1] [5]))
    ∧ (36 = (36 : BitVec 6).toNat ∧ [35] ≠ ([] : List Nat) ∧ DigitsBelow 36 [35] ∧ DigitsBelow 36 []
      ∧ TextIs (unitText [0x7A]) (numeral false [35] [])) := by
  unfold TextIs DigitsBelow; decide

/-- "1.5 " and "1.": a space after a fraction, and a point at the end of the text; for `e` of 1 and 0 alike. -/
theorem witness_FromstrStopsAtTrailingBytes :
    (10 = (10 : BitVec 6).toNat ∧ [1] ≠ ([] : List Nat) ∧ DigitsBelow 10 [1] ∧ DigitsBelow 10 [5] ∧ digitValue 0x20 = none
      ∧ ([5] = ([] : List Nat) → (0x20 : Byte) = 0x2E → ∀ d ∈ ([] : List Byte).head?, digitValue d = none)
      ∧ TextIs (unitText [0x31, 0x2E, 0x35, 0x20]) (numeral false [1] [5] ++ 0x20 :: []))
    ∧ (digitValue 0x2E = none
      ∧ (([] : List Nat) = [] → (0x2E : Byte) = 0x2E → ∀ d ∈ ([] : List Byte).head?, digitValue d = none)
      ∧ TextIs (unitText [0x31, 0x2E]) (numeral false [1] [] ++ 0x2E :: [])) := by
  unfold TextIs DigitsBelow; decide

/-- The empty text, and "-.". -/
theorem witness_FromstrWithoutDigitsRaisesParseError :
    2 ≤ (2 : BitVec 6).toNat ∧ (36 : BitVec 6).toNat ≤ 36
      ∧ (∀ c ∈ ([] : List Byte).head?, digitValue c = none ∧ (false = false → c ≠ 0x2D))
      ∧ TextIs State.reset (signText false ++ [])
      ∧ (∀ c ∈ ([0x2E] : List Byte).head?, digitValue c = none ∧ (true = false → c ≠ 0x2D))
      ∧ TextIs (unitText [0x2D, 0x2E]) (signText true ++ [0x2E]) := by
  unfold TextIs; decide

/-- "2" in base 2, at the first place, and "1.2", after the point. -/
theorem witness_FromstrDigitOutOfRangeRaisesParseError :
    2 = (2 : BitVec 6).toNat ∧ DigitsBelow 2 [] ∧ [1] ≠ ([] : List Nat) ∧ DigitsBelow 2 [1] ∧ digitValue 0x32 = some 2 ∧ 2 ≤ 2
      ∧ ([] : List Byte) = signText false ++ [].map digitChar ∧ TextIs (unitText [0x32]) ([] ++ 0x32 :: [])
      ∧ [0x31, 0x2E] = signText false ++ [1].map digitChar ++ 0x2E :: [].map digitChar
      ∧ TextIs (unitText [0x31, 0x2E, 0x32]) ([0x31, 0x2E] ++ 0x32 :: []) := by
  unfold TextIs DigitsBelow; decide

theorem witness_RoundTripThroughText :
    Memory.wf busy.tb = true ∧ 2 ≤ (2 : BitVec 6).toNat ∧ (36 : BitVec 6).toNat ≤ 36 := by decide

theorem witness_SqrtScanIsTheIntegerRoot : 2 ^ 63 - 1 < 2 ^ (bits .fx64 - 1) := by decide

/-- MAX at FX64 and at FX128. -/
theorem witness_SqrtRoundsAtFx64AndCutsElsewhere :
    (∃ k, readW (unit [(1, 0x7FFFFFFFFFFFFFFF)]) .fx64 1 < 2 ^ (bits .fx64 - 1)
      ∧ k = Nat.sqrt (readW (unit [(1, 0x7FFFFFFFFFFFFFFF)]) .fx64 1 * 2 ^ (fracBits .fx64 + 2)))
    ∧ ∃ k, readW (unit [(1, 0x7FFFFFFFFFFFFFFF)]) .fx128 1 < 2 ^ (bits .fx128 - 1)
      ∧ k = Nat.sqrt (readW (unit [(1, 0x7FFFFFFFFFFFFFFF)]) .fx128 1 * 2 ^ (fracBits .fx128 + 2)) :=
  ⟨⟨_, by decide +kernel, rfl⟩, _, by decide +kernel, rfl⟩

/-- 0 and 4.0. -/
theorem witness_SqrtOfExactSquareIsTheRoot :
    0 * 0 = readW State.reset .fx64 1 * 2 ^ fracBits .fx64
      ∧ 0x0200000000000000 * 0x0200000000000000 = readW (unit [(1, 0x0400000000000000)]) .fx64 1 * 2 ^ fracBits .fx64
      ∧ readW (unit [(1, 0x0400000000000000)]) .fx64 1 < 2 ^ (bits .fx64 - 1) := by decide +kernel

/-- 0, and MIN. -/
theorem witness_TodblIsNearestTiesAway :
    (∃ a m h : Nat, a = readW State.reset .fx64 1 ∧ m = mag (bits .fx64) a ∧ h = bitlen m ∧ a = 0)
      ∧ ∃ a m h : Nat, a = readW (unit [(1, 0x8000000000000000)]) .fx64 1 ∧ m = mag (bits .fx64) a ∧ h = bitlen m ∧ a ≠ 0
        ∧ signBit (bits .fx64) a = true :=
  ⟨⟨_, _, _, rfl, rfl, rfl, by decide⟩, _, _, _, rfl, rfl, rfl, by decide, by decide +kernel⟩

/-- The largest finite double, and -0.0. -/
theorem witness_FromdblCutsTowardZero :
    (∃ (d : Limb) (r : Nat), d = readLimb (unit [(1, 0x7FEFFFFFFFFFFFFF)]) 1 0 ∧ exponentField d ≠ 2047
      ∧ r = ⌊|doubleValue d| * 2 ^ fracBits .fx64⌋₊ % 2 ^ bits .fx64 ∧ d.toNat < 2 ^ 63)
    ∧ ∃ (d : Limb) (r : Nat), d = readLimb (unit [(1, 0x8000000000000000)]) 1 0 ∧ exponentField d ≠ 2047
      ∧ r = ⌊|doubleValue d| * 2 ^ fracBits .fx64⌋₊ % 2 ^ bits .fx64 ∧ ¬ d.toNat < 2 ^ 63 :=
  ⟨⟨_, _, rfl, by decide +kernel, rfl, by decide +kernel⟩, _, _, rfl, by decide +kernel, rfl, by decide +kernel⟩

/-- MIN and MAX; minus infinity, a NaN, and the largest finite double. -/
theorem witness_DomainErrorIsDecidedByTheOperand :
    (readV (unit [(1, 0x8000000000000000)]) 1).getLsbD (bits .fx64 - 1) = true
      ∧ (readV (unit [(1, 0x7FFFFFFFFFFFFFFF)]) 1).getLsbD (bits .fx64 - 1) = false
      ∧ exponentField (readLimb (unit [(1, 0xFFF0000000000000)]) 1 0) = 2047
      ∧ exponentField (readLimb (unit [(1, 0x7FF8000000000000)]) 1 0) = 2047
      ∧ exponentField (readLimb (unit [(1, 0x7FEFFFFFFFFFFFFF)]) 1 0) ≠ 2047 := by decide +kernel

/-- 127.0, the last integer below `2^7`. -/
theorem witness_DoubleRoundTripBound :
    ∃ x : Limb, x = readLimb (unit [(1, 0x405FC00000000000)]) 1 0 ∧ exponentField x ≠ 2047
      ∧ |doubleValue x| < 2 ^ (intBits .fx64 - 1) := by
  refine ⟨0x405FC00000000000, by decide +kernel, by decide +kernel, ?_⟩
  have h : exponentField 0x405FC00000000000 = 1029 := by decide +kernel
  have hp : (0x405FC00000000000 : Limb).toNat < 2 ^ 63 := by decide
  have hf : (0x405FC00000000000 : Limb).toNat % 2 ^ 52 = 0xFC00000000000 := by decide
  rw [doubleValue, h, hf, if_pos hp]
  norm_num [intBits]

theorem witness_CsrwWritesStatusAndTlenOnly :
    ({ State.reset with din := 512 } : State).din.toNat ≤ 512 ∧ 512 < ({ State.reset with din := 513 } : State).din.toNat := by
  decide

theorem witness_TextBytesAreStoredAndLoaded : Memory.wf State.reset.tb = true ∧ Memory.wf busy.tb = true := by decide

end Sys2Proof.Tests
end

section
/-! PROOFS. What a command writes to its register and the error it raises depend on its operands alone (00_scope.md R11). First
what "the same result" is and how each way of ending a command keeps it; then what agreeing operands give; then the commands. -/

namespace Sys2Proof.Machine

/-! The same result from two states. -/

/-- When the first outcome is a next state, so is the second, with the same error; and without an error the destination `d` holds
the same value in both. -/
def SameResult (d : Option VReg) (r r' : Result) : Prop :=
  ∀ t, r = .next t → ∃ t', r' = .next t' ∧ t'.response.map Response.err = t.response.map Response.err
    ∧ (t.response.map Response.err = some 0 → ∀ rd, d = some rd → readV t' rd = readV t rd)

section
variable {s s' : State} {d : Option VReg} {rd : VReg}

theorem sameResult_fault (f : Fault) (r' : Result) : SameResult d (.fault f) r' := by
  rintro t ⟨⟩

theorem errorCode_ne_zero (e : UnitError) : errorCode e ≠ 0 := by
  cases e <;> simp [errorCode]

theorem sameResult_raise {e : UnitError} : SameResult d (raise s e) (raise s' e) := by
  rintro t ⟨⟩
  exact ⟨_, rfl, rfl, fun h => absurd (Option.some.inj h) (errorCode_ne_zero e)⟩

theorem sameResult_complete {x x' : Limb} (h : ∀ rd, d = some rd → readV s' rd = readV s rd) :
    SameResult d (complete s x) (complete s' x') := by
  rintro t ⟨⟩
  exact ⟨_, rfl, rfl, fun _ => h⟩

/-- A command without a destination completes. -/
theorem sameResult_complete_none {x x' : Limb} : SameResult none (complete s x) (complete s' x') :=
  sameResult_complete nofun

theorem sameResult_writeV {x x' : Value} (h : x' = x) :
    SameResult (some rd) (complete (writeV s rd x) 0) (complete (writeV s' rd x') 0) :=
  sameResult_complete fun q hq => by
    obtain rfl := Option.some.inj hq
    rw [readV_writeV_same, readV_writeV_same, h]

theorem sameResult_completeW {w : Width} {n n' : Nat} (h : n' = n) :
    SameResult (some rd) (completeW s w rd n) (completeW s' w rd n') :=
  sameResult_writeV (congrArg (fun n => BitVec.ofNat 256 (n % 2 ^ bits w)) h)

theorem sameResult_completeTruth {b b' : Bool} (h : b' = b) :
    SameResult (some rd) (completeTruth s rd b) (completeTruth s' rd b') :=
  sameResult_writeV (congrArg (fun b : Bool => if b then 1 else 0) h)

theorem sameResult_completePair {hi hi' lo lo' : Limb} (hhi : hi' = hi) (hlo : lo' = lo) :
    SameResult (some rd) (completePair s rd hi lo) (completePair s' rd hi' lo') :=
  sameResult_writeV (congrArg₂ (fun hi lo : Limb => (hi ++ lo).setWidth 256) hhi hlo)

/-- Two commands that branch on the same condition. -/
theorem sameResult_ite {c c' : Prop} [Decidable c] [Decidable c'] {p p' q q' : Result} (hc : c' ↔ c)
    (hp : SameResult d p p') (hq : SameResult d q q') :
    SameResult d (if c then p else q) (if c' then p' else q') := by
  by_cases h : c
  · rwa [if_pos h, if_pos (hc.mpr h)]
  · rwa [if_neg h, if_neg (mt hc.mp h)]

end

/-! What a command reads from two states whose operands agree. -/

section
variable {i : Instr} {s s' : State} {w : Width} {ra rb : VReg} {α : Type}

theorem OperandsAgree.lowBits (h : OperandsAgree i s s') {r : VReg} {n : Nat} (hr : (r, n) ∈ sourceBits i) :
    (readV s' r).toNat % 2 ^ n = (readV s r).toNat % 2 ^ n := h.1 _ hr

theorem OperandsAgree.readV_eq (h : OperandsAgree i s s') {r : VReg} (hr : (r, 256) ∈ sourceBits i) :
    readV s' r = readV s r := by
  have hmod := h.lowBits hr
  rw [Nat.mod_eq_of_lt (readV s' r).isLt, Nat.mod_eq_of_lt (readV s r).isLt] at hmod
  exact BitVec.eq_of_toNat_eq hmod

theorem OperandsAgree.readLimb_zero_eq (h : OperandsAgree i s s') {r : VReg} (hr : (r, 64) ∈ sourceBits i) :
    readLimb s' r 0 = readLimb s r 0 :=
  BitVec.eq_of_toNat_eq (by simpa [readLimb_toNat] using h.lowBits hr)

theorem OperandsAgree.din_eq (h : OperandsAgree i s s') (hi : usesDin i = true) : s'.din = s.din := h.2.1 hi

/-- A function of the low B bits of the one source. -/
theorem OperandsAgree.pattern (h : OperandsAgree i s s') (f : Nat → α) (hi : sourceBits i = [(ra, bits w)]) :
    f (readW s' w ra) = f (readW s w ra) :=
  congrArg f (h.lowBits (by simp [hi]))

/-- A function of the low B bits of both sources. -/
theorem OperandsAgree.patterns (h : OperandsAgree i s s') (f : Nat → Nat → α)
    (hi : sourceBits i = [(ra, bits w), (rb, bits w)]) :
    f (readW s' w ra) (readW s' w rb) = f (readW s w ra) (readW s w rb) :=
  congrArg₂ f (h.lowBits (by simp [hi])) (h.lowBits (by simp [hi]))

/-- A function of limb 0 of the one source. -/
theorem OperandsAgree.limb (h : OperandsAgree i s s') (f : Limb → α) (hi : sourceBits i = [(ra, 64)]) :
    f (readLimb s' ra 0) = f (readLimb s ra 0) :=
  congrArg f (h.readLimb_zero_eq (by simp [hi]))

/-- A function of limb 0 of both sources. -/
theorem OperandsAgree.limbs (h : OperandsAgree i s s') (f : Limb → Limb → α) (hi : sourceBits i = [(ra, 64), (rb, 64)]) :
    f (readLimb s' ra 0) (readLimb s' rb 0) = f (readLimb s ra 0) (readLimb s rb 0) :=
  congrArg₂ f (h.readLimb_zero_eq (by simp [hi])) (h.readLimb_zero_eq (by simp [hi]))

end

theorem loadBytes_congr {m m' : Memory} {n : Nat} (h : ∀ a < n, loadByte m' a = loadByte m a) :
    loadBytes m' n = loadBytes m n :=
  List.map_congr_left fun a ha => h a (List.mem_range.mp ha)

/-- FROMSTR fetches the same string, or none, from both states. -/
theorem OperandsAgree.fetchText_eq {s s' : State} {w : Width} {rd : VReg} {base : BitVec 6} {e : Bool}
    (h : OperandsAgree (.fromstr w rd base e) s s') : fetchText s' = fetchText s := by
  obtain ⟨htlen, hbytes⟩ := h.2.2 w rd base e rfl
  rw [fetchText, fetchText, htlen, loadBytes_congr hbytes]

/-! The commands with more than one way to end. -/

theorem execTostr_sameResult {s s' : State} (w : Width) (ra : VReg) (base : BitVec 6) (h : readW s' w ra = readW s w ra) :
    SameResult none (execTostr w ra base s) (execTostr w ra base s') := by
  unfold execTostr
  rw [h]
  refine sameResult_ite Iff.rfl ?_ sameResult_raise
  by_cases hl : (valueText w base.toNat (readW s w ra)).length ≤ 512
  · simp only [placeText_spec _ _ hl]
    exact sameResult_complete_none
  · have hnone : placeText s (valueText w base.toNat (readW s w ra)) = none := if_neg hl
    simp only [hnone]
    exact sameResult_fault _ _

theorem execFromstr_sameResult {s s' : State} (w : Width) (rd : VReg) (base : BitVec 6) (e : Bool)
    (h : fetchText s' = fetchText s) :
    SameResult (some rd) (execFromstr w rd base e s) (execFromstr w rd base e s') := by
  unfold execFromstr
  rw [h]
  refine sameResult_ite Iff.rfl ?_ sameResult_raise
  cases fetchText s with
  | none => exact sameResult_fault _ _
  | some text =>
    dsimp only
    cases scan base.toNat e text with
    | error pos => exact sameResult_raise
    | ok r =>
      refine sameResult_complete fun q hq => ?_
      obtain rfl := Option.some.inj hq
      rw [readV_setTcons, readV_setTcons, writeW, writeW, readV_writeV_same, readV_writeV_same]

theorem execCsrw_sameResult {s s' : State} (csr : Csr) (h : s'.din = s.din) :
    SameResult none (execCsrw csr s) (execCsrw csr s') := by
  cases csr with
  | status => exact sameResult_complete_none
  | epos => exact sameResult_raise
  | tlen => exact sameResult_ite (by rw [h]) sameResult_complete_none sameResult_raise
  | tcons => exact sameResult_raise

/-! Every command. -/

/-- Each command ends in one of the ways above, on a function of the operands that it names. -/
theorem exec_sameResult (i : Instr) (s s' : State) (h : OperandsAgree i s s') :
    SameResult (destination i) (exec i s) (exec i s') := by
  cases i with
  | put64 rd limb =>
    exact sameResult_writeV (by rw [h.readV_eq (List.mem_singleton_self _), h.din_eq rfl])
  | put32 rd slice =>
    exact sameResult_writeV (by rw [h.readV_eq (List.mem_singleton_self _), h.din_eq rfl])
  | get64 ra limb => exact sameResult_complete_none
  | get32 ra slice => exact sameResult_complete_none
  | mov w rd ra => exact sameResult_completeW (h.pattern id rfl)
  | and w rd ra rb => exact sameResult_completeW (h.patterns (· &&& ·) rfl)
  | or w rd ra rb => exact sameResult_completeW (h.patterns (· ||| ·) rfl)
  | xor w rd ra rb => exact sameResult_completeW (h.patterns (· ^^^ ·) rfl)
  | shl w rd ra count => exact sameResult_completeW (h.pattern (· <<< count.toNat) rfl)
  | shr w rd ra count => exact sameResult_completeW (h.pattern (· >>> count.toNat) rfl)
  | laddc rd ra rb cin =>
    exact sameResult_completePair
      (h.limbs (fun x y => (BitVec.ofBool (addc x y cin).2).setWidth 64) rfl) (h.limbs (fun x y => (addc x y cin).1) rfl)
  | lsubb rd ra rb bin =>
    exact sameResult_completePair
      (h.limbs (fun x y => (BitVec.ofBool (subb x y bin).2).setWidth 64) rfl) (h.limbs (fun x y => (subb x y bin).1) rfl)
  | lmulw rd ra rb =>
    exact sameResult_completePair (h.limbs (fun x y => (mulw x y).1) rfl) (h.limbs (fun x y => (mulw x y).2) rfl)
  | add w rd ra rb => exact sameResult_completeW (h.patterns (addPat (bits w)) rfl)
  | sub w rd ra rb => exact sameResult_completeW (h.patterns (subPat (bits w)) rfl)
  | neg w rd ra => exact sameResult_completeW (h.pattern (negPat (bits w)) rfl)
  | mul w rd ra rb => exact sameResult_completeW (h.patterns (mulPat w) rfl)
  | square w rd ra => exact sameResult_completeW (h.pattern (fun a => mulPat w a a) rfl)
  | div w rd ra rb =>
    exact sameResult_ite (iff_of_eq (h.patterns (fun _ b => b = 0) rfl)) sameResult_raise
      (sameResult_completeW (h.patterns (divPat Config.roundWide w) rfl))
  | sqrt w rd ra =>
    exact sameResult_ite (iff_of_eq (h.pattern (fun a => signBit (bits w) a = true) rfl))
      sameResult_raise (sameResult_completeW (h.pattern (sqrtPat Config.roundWide w) rfl))
  | lt w rd ra rb => exact sameResult_completeTruth (h.patterns (fun a b => scmp (bits w) a b == .lt) rfl)
  | gt w rd ra rb => exact sameResult_completeTruth (h.patterns (fun a b => scmp (bits w) a b == .gt) rfl)
  | le w rd ra rb => exact sameResult_completeTruth (h.patterns (fun a b => scmp (bits w) a b != .gt) rfl)
  | ge w rd ra rb => exact sameResult_completeTruth (h.patterns (fun a b => scmp (bits w) a b != .lt) rfl)
  | eq w rd ra rb => exact sameResult_completeTruth (h.patterns (· == ·) rfl)
  | ne w rd ra rb => exact sameResult_completeTruth (h.patterns (· != ·) rfl)
  | ltu w rd ra rb => exact sameResult_completeTruth (h.patterns (fun a b => ucmp a b == .lt) rfl)
  | gtu w rd ra rb => exact sameResult_completeTruth (h.patterns (fun a b => ucmp a b == .gt) rfl)
  | leu w rd ra rb => exact sameResult_completeTruth (h.patterns (fun a b => ucmp a b != .gt) rfl)
  | geu w rd ra rb => exact sameResult_completeTruth (h.patterns (fun a b => ucmp a b != .lt) rfl)
  | fromint w rd ra => exact sameResult_completeW (h.limb (fun x => x.toNat <<< fracBits w) rfl)
  | tostr w ra base => exact execTostr_sameResult w ra base (h.pattern id rfl)
  | fromstr w rd base e => exact execFromstr_sameResult w rd base e h.fetchText_eq
  | todbl w rd ra =>
    exact sameResult_completePair rfl (h.pattern (fun a => BitVec.ofNat 64 (todblPat Config.todblTie w a)) rfl)
  | fromdbl w rd ra =>
    exact sameResult_ite (iff_of_eq (h.limb (fun x => doubleExponent x = 2047) rfl)) sameResult_raise
      (sameResult_completeW (h.limb (fromdblPat w) rfl))
  | csrr csr => exact sameResult_complete_none
  | csrw csr => exact execCsrw_sameResult csr (h.din_eq rfl)
  | tld addr => exact sameResult_complete_none
  | tst addr => exact sameResult_complete_none

/-- Settles O18: every command gives the same result on agreeing operands. -/
theorem resultDependsOnOperandsOnly : Obligations.ResultDependsOnOperandsOnly :=
  fun i s s' t h ht => exec_sameResult i s s' h t ht

end Sys2Proof.Machine
end

section
/-! PROOFS. What holds of every state of the unit (10_state.md R30 to R33, R36): the invariant at reset and along every step, and
who writes the error record. First where the scan of FROMSTR stops; then the one list of the ways a command ends, which the statements
here are read off; then what each update keeps of the invariant; then the step. -/

namespace Sys2Proof.Machine

/-! Where a scan stops (43_radix.md R189): never beyond the end of its text. -/

/-- A run of digits read from a text that ends at position `stop`: its position and what it leaves make up the text, or its error
lies within. -/
def RunWithin (stop : Nat) : Except Nat DigitRun → Prop
  | .error p => p ≤ stop
  | .ok r => r.pos + r.rest.length = stop

/-- A scan of a text of length `stop` ends at a position within it. -/
def ScanWithin (stop : Nat) : Except Nat Scanned → Prop
  | .error p => p ≤ stop
  | .ok r => r.pos ≤ stop

theorem scanDigits_within (b pos value den : Nat) (text : List Byte) :
    RunWithin (pos + text.length) (scanDigits b pos value den text) := by
  induction text generalizing pos value den with
  | nil => rfl
  | cons c cs ih =>
    rw [scanDigits]
    cases digitValue c with
    | none => rfl
    | some v =>
      dsimp only
      split
      · exact Nat.le_add_right _ _
      · rw [List.length_cons, Nat.add_comm cs.length, ← Nat.add_assoc]
        exact ih (pos + 1) _ _

theorem scanSign_length (text : List Byte) : (scanSign text).1.toNat + (scanSign text).2.length = text.length := by
  cases text with
  | nil => rfl
  | cons c cs =>
    rw [scanSign]
    split
    · exact Nat.add_comm _ _
    · exact Nat.zero_add _

theorem scanFraction_within (b pos : Nat) (rest : List Byte) : RunWithin (pos + rest.length) (scanFraction b pos rest) := by
  match rest with
  | [] => rfl
  | [_] => rfl
  | p :: c :: cs =>
    rw [scanFraction]
    split
    · rw [List.length_cons, Nat.add_comm (List.length _), ← Nat.add_assoc]
      exact scanDigits_within b (pos + 1) 0 1 (c :: cs)
    · rfl

theorem scan_within (b : Nat) (e : Bool) (text : List Byte) : ScanWithin text.length (scan b e text) := by
  have hsign := scanSign_length text
  have hint := scanDigits_within b (scanSign text).1.toNat 0 1 (scanSign text).2
  rw [hsign] at hint
  unfold scan
  dsimp only
  cases hi : scanDigits b (scanSign text).1.toNat 0 1 (scanSign text).2 with
  | error p => rwa [hi] at hint
  | ok int =>
    rw [hi] at hint
    dsimp only
    split
    · exact hsign ▸ Nat.le_add_right _ _
    · have hfrac := scanFraction_within b int.pos int.rest
      rw [show int.pos + int.rest.length = text.length from hint] at hfrac
      cases hf : scanFraction b int.pos int.rest with
      | error p => rwa [hf] at hfrac
      | ok frac =>
        rw [hf] at hfrac
        have hpos : frac.pos ≤ text.length := Nat.le.intro hfrac
        dsimp only
        split <;> exact hpos

/-- FROMSTR fetches at most the 512 bytes of the text buffer. -/
theorem fetchText_length_le {s : State} {text : List Byte} (h : fetchText s = some text) : text.length ≤ 512 := by
  rw [fetchText] at h
  split at h
  · rename_i hlen
    cases h
    simpa [loadBytes] using hlen
  · cases h

/-! The ways a command ends. -/

/-- Every way command `i` can end at state `s`, with the bounds on what it writes to the control registers and the text buffer. -/
inductive Ending (s : State) : Instr → Result → Prop
  /-- one register written -/
  | writes {i : Instr} {rd : VReg} {x : Value} : Ending s i (complete (writeV s rd x) 0)
  /-- nothing written -/
  | reads {i : Instr} {d : Limb} : Ending s i (complete s d)
  /-- an error raised -/
  | raises {i : Instr} {e : UnitError} (hpos : (errorPos e).toNat ≤ 512) : Ending s i (raise s e)
  /-- no next state -/
  | stops {i : Instr} {f : Fault} : Ending s i (.fault f)
  /-- TOSTR: a text, its length and whether it was cut -/
  | placesText {w : Width} {ra : VReg} {base : BitVec 6} {out : List Byte} {cut : Bool} (hlen : out.length ≤ 512) :
      Ending s (.tostr w ra base) (complete (setTrunc (setTlen (setText s (storeBytes s.tb 0 out)) out.length) cut) 0)
  /-- FROMSTR: a value and the bytes consumed -/
  | takesNumeral {w : Width} {rd : VReg} {base : BitVec 6} {e : Bool} {n pos : Nat} (hpos : pos ≤ 512) :
      Ending s (.fromstr w rd base e) (complete (setTcons (writeW s w rd n) pos) 0)
  /-- CSRW to STATUS -/
  | clearsRecord : Ending s (.csrw .status) (complete (clearRecord s) 0)
  /-- CSRW to TLEN -/
  | setsTlen {n : Nat} (hlen : n ≤ 512) : Ending s (.csrw .tlen) (complete (setTlen s n) 0)
  /-- TST -/
  | storesByte {addr : BitVec 9} {b : Byte} :
      Ending s (.tst addr) (complete (setText s (storeByte s.tb addr.toNat b)) 0)

section
variable (s : State)

theorem ending_illegalCommand (i : Instr) : Ending s i (raise s .illegalCommand) := .raises (by decide)

theorem execTostr_ending (w : Width) (ra : VReg) (base : BitVec 6) :
    Ending s (.tostr w ra base) (execTostr w ra base s) := by
  unfold execTostr
  split
  · by_cases hlen : (valueText w base.toNat (readW s w ra)).length ≤ 512
    · simp only [placeText_spec s _ hlen]
      exact .placesText hlen
    · have hnone : placeText s (valueText w base.toNat (readW s w ra)) = none := if_neg hlen
      simp only [hnone]
      exact .stops
  · exact ending_illegalCommand s _

/-- The positions FROMSTR reports lie within the text it fetched. -/
theorem execFromstr_ending (w : Width) (rd : VReg) (base : BitVec 6) (e : Bool) :
    Ending s (.fromstr w rd base e) (execFromstr w rd base e s) := by
  unfold execFromstr
  split
  · cases htext : fetchText s with
    | none => exact .stops
    | some text =>
      have hlen := fetchText_length_le htext
      have hscan := scan_within base.toNat e text
      dsimp only
      cases hr : scan base.toNat e text with
      | error pos =>
        rw [hr] at hscan
        have hpos : pos ≤ 512 := Nat.le_trans hscan hlen
        exact .raises (by simp only [errorPos, BitVec.toNat_ofNat]; omega)
      | ok r =>
        rw [hr] at hscan
        exact .takesNumeral (Nat.le_trans hscan hlen)
  · exact ending_illegalCommand s _

theorem execCsrw_ending (csr : Csr) : Ending s (.csrw csr) (execCsrw csr s) := by
  cases csr with
  | status => exact .clearsRecord
  | epos => exact ending_illegalCommand s _
  | tcons => exact ending_illegalCommand s _
  | tlen =>
    unfold execCsrw
    dsimp only
    split
    · rename_i hlen
      exact .setsTlen hlen
    · exact ending_illegalCommand s _

/-- A command that raises an error without a position on a condition, and else writes its register. -/
theorem ending_raise_or_write {i : Instr} {c : Prop} [Decidable c] {e : UnitError} {rd : VReg} {x : Value}
    (he : errorPos e = 0) : Ending s i (if c then raise s e else complete (writeV s rd x) 0) := by
  split
  · exact .raises (by simp [he])
  · exact .writes

/-- Every command ends in one of the ways listed. -/
theorem exec_ending (i : Instr) : Ending s i (exec i s) := by
  cases i with
  | put64 rd limb => exact .writes
  | put32 rd slice => exact .writes
  | get64 ra limb => exact .reads
  | get32 ra slice => exact .reads
  | mov w rd ra => exact .writes
  | and w rd ra rb => exact .writes
  | or w rd ra rb => exact .writes
  | xor w rd ra rb => exact .writes
  | shl w rd ra count => exact .writes
  | shr w rd ra count => exact .writes
  | laddc rd ra rb cin => exact .writes
  | lsubb rd ra rb bin => exact .writes
  | lmulw rd ra rb => exact .writes
  | add w rd ra rb => exact .writes
  | sub w rd ra rb => exact .writes
  | neg w rd ra => exact .writes
  | mul w rd ra rb => exact .writes
  | square w rd ra => exact .writes
  | div w rd ra rb => exact ending_raise_or_write s rfl
  | sqrt w rd ra => exact ending_raise_or_write s rfl
  | lt w rd ra rb => exact .writes
  | gt w rd ra rb => exact .writes
  | le w rd ra rb => exact .writes
  | ge w rd ra rb => exact .writes
  | eq w rd ra rb => exact .writes
  | ne w rd ra rb => exact .writes
  | ltu w rd ra rb => exact .writes
  | gtu w rd ra rb => exact .writes
  | leu w rd ra rb => exact .writes
  | geu w rd ra rb => exact .writes
  | fromint w rd ra => exact .writes
  | tostr w ra base => exact execTostr_ending s w ra base
  | fromstr w rd base e => exact execFromstr_ending s w rd base e
  | todbl w rd ra => exact .writes
  | fromdbl w rd ra => exact ending_raise_or_write s rfl
  | csrr csr => exact .reads
  | csrw csr => exact execCsrw_ending s csr
  | tld addr => exact .reads
  | tst addr => exact .storesByte

end

/-! What each update keeps of the invariant. -/

section
variable {s : State}

theorem wf_respond {d : Limb} {code : BitVec 3} (h : State.Wf s) (hcode : code.toNat ≤ 4) (hd : code ≠ 0 → d = 0) :
    State.Wf (respond s d code) := by
  obtain ⟨htb, htlen, hepos, htcons, herr, hrecord, -⟩ := h
  refine ⟨htb, htlen, hepos, htcons, herr, hrecord, ?_⟩
  rintro r ⟨⟩
  exact ⟨hcode, hd⟩

theorem wf_writeV {rd : VReg} {x : Value} (h : State.Wf s) : State.Wf (writeV s rd x) := h

theorem wf_setText {m : Memory} (h : State.Wf s) (hm : Memory.wf m = true) : State.Wf (setText s m) :=
  ⟨hm, h.2⟩

theorem toNat_ofNat10_le {n : Nat} (hn : n ≤ 512) : (BitVec.ofNat 10 n).toNat ≤ 512 := by
  rw [BitVec.toNat_ofNat]
  omega

theorem wf_setTlen {n : Nat} (h : State.Wf s) (hn : n ≤ 512) : State.Wf (setTlen s n) := by
  obtain ⟨htb, -, hrest⟩ := h
  exact ⟨htb, toNat_ofNat10_le hn, hrest⟩

theorem wf_setTcons {n : Nat} (h : State.Wf s) (hn : n ≤ 512) : State.Wf (setTcons s n) := by
  obtain ⟨htb, htlen, hepos, -, hrest⟩ := h
  exact ⟨htb, htlen, hepos, toNat_ofNat10_le hn, hrest⟩

theorem wf_setRecord {code : BitVec 3} {pos : BitVec 10} (h : State.Wf s) (hcode : code.toNat ≤ 4)
    (hpos : pos.toNat ≤ 512) (hzero : code ≠ 1 → pos = 0) : State.Wf (setRecord s code pos) := by
  obtain ⟨htb, htlen, -, htcons, -, -, hresponse⟩ := h
  exact ⟨htb, htlen, hpos, htcons, hcode, hzero, hresponse⟩

theorem errorCode_toNat_le (e : UnitError) : (errorCode e).toNat ≤ 4 := by
  cases e <;> simp [errorCode]

/-- Only a ParseError has a text position (60_exceptions.md R260). -/
theorem errorPos_eq_zero {e : UnitError} (h : errorCode e ≠ 1) : errorPos e = 0 := by
  cases e with
  | parseError pos => exact absurd rfl h
  | divideByZero => rfl
  | domainError => rfl
  | illegalCommand => rfl

theorem wf_recordError {e : UnitError} (h : State.Wf s) (hpos : (errorPos e).toNat ≤ 512) :
    State.Wf (recordError s e) := by
  unfold recordError
  split
  · exact wf_setRecord h (errorCode_toNat_le e) hpos errorPos_eq_zero
  · exact h

theorem wf_setTrunc {b : Bool} (h : State.Wf s) : State.Wf (setTrunc s b) := h

theorem wf_clearRecord (h : State.Wf s) : State.Wf (clearRecord s) :=
  wf_setTrunc (wf_setRecord h (by decide) (by decide) fun _ => rfl)

/-- The invariant says nothing of the host's events and the data word. -/
theorem wf_acceptCommand {rest : List HostEvent} {din : Limb} (h : State.Wf s) : State.Wf (acceptCommand s rest din) := h

theorem wf_of_complete {t : State} {d : Limb} (h : State.Wf s) (ht : complete s d = .next t) : State.Wf t := by
  cases ht
  exact wf_respond h (by decide) fun hzero => absurd rfl hzero

theorem wf_of_raise {t : State} {e : UnitError} (h : State.Wf s) (hpos : (errorPos e).toNat ≤ 512)
    (ht : raise s e = .next t) : State.Wf t := by
  cases ht
  exact wf_respond (wf_recordError h hpos) (errorCode_toNat_le e) fun _ => rfl

/-- However a command ends, the invariant is kept. -/
theorem wf_of_ending {i : Instr} {r : Result} {t : State} (hr : Ending s i r) (h : State.Wf s) (ht : r = .next t) :
    State.Wf t := by
  cases hr with
  | writes => exact wf_of_complete (wf_writeV h) ht
  | reads => exact wf_of_complete h ht
  | raises hpos => exact wf_of_raise h hpos ht
  | stops => cases ht
  | @placesText _ _ _ out _ hlen =>
    have htext : State.Wf (setText s (storeBytes s.tb 0 out)) :=
      wf_setText h (storeBytes_wf out s.tb 0 (by rwa [Nat.zero_add]) h.1)
    exact wf_of_complete (wf_setTrunc (wf_setTlen htext hlen)) ht
  | takesNumeral hpos => exact wf_of_complete (wf_setTcons (wf_writeV h) hpos) ht
  | clearsRecord => exact wf_of_complete (wf_clearRecord h) ht
  | setsTlen hlen => exact wf_of_complete (wf_setTlen h hlen) ht
  | @storesByte addr b =>
    exact wf_of_complete (wf_setText h (storeByte_wf s.tb addr.toNat b addr.isLt h.1)) ht

end

/-! The reset state and the step. -/

/-- Settles O8, field by field. -/
theorem resetStateIsAllZero : Obligations.ResetStateIsAllZero :=
  ⟨readV_reset, fun _ => rfl, reset_err, reset_trunc, reset_epos, reset_tlen, reset_tcons⟩

/-- Settles O10: the empty buffer is in canonical form, zero is within every bound, and nothing has been answered. -/
theorem resetStateIsWellFormed : Obligations.ResetStateIsWellFormed :=
  ⟨rfl, Nat.zero_le _, Nat.zero_le _, Nat.zero_le _, Nat.zero_le _, fun _ => rfl, nofun⟩

theorem wf_applyReset (rest : List HostEvent) : State.Wf (applyReset rest) := resetStateIsWellFormed

/-- Settles O11, by the host's next event: none, the reset, a word the decoder refuses, or a command, by the way it ends. -/
theorem everyStepKeepsTheInvariant : Obligations.EveryStepKeepsTheInvariant := by
  intro s t h ht
  rw [step] at ht
  cases hport : s.port with
  | nil =>
    simp only [hport] at ht
    cases ht
    exact h
  | cons event rest =>
    cases event with
    | reset =>
      simp only [hport] at ht
      cases ht
      exact wf_applyReset rest
    | command cmd din =>
      cases hdecode : decode cmd with
      | error reason =>
        simp only [hport, hdecode] at ht
        exact wf_of_raise (wf_acceptCommand h) (by decide) ht
      | ok i =>
        simp only [hport, hdecode] at ht
        exact wf_of_ending (exec_ending _ i) (wf_acceptCommand h) ht

/-! Who writes the error record. -/

/-- A command that raises an error does not complete. -/
theorem not_answers_of_raise {s t : State} {e : UnitError} {d : Limb} (ht : raise s e = .next t) : ¬ Answers t d := by
  cases ht
  intro h
  exact errorCode_ne_zero e (congrArg Response.err (Option.some.inj h))

/-- Completing changes nothing but the response. -/
theorem sameRecord_of_complete {s t : State} {d : Limb} (ht : complete s d = .next t) : SameRecord s t := by
  cases ht
  exact ⟨rfl, rfl, rfl⟩

/-- Settles O14, by the way the command ends: CSRW to STATUS alone writes ERR and EPOS, and with TOSTR alone TRUNC. -/
theorem completedCommandKeepsTheRecord : Obligations.CompletedCommandKeepsTheRecord := by
  intro i s t d ht hanswer
  have hending := exec_ending s i
  generalize exec i s = r at hending ht
  cases hending with
  | raises _ => exact absurd hanswer (not_answers_of_raise ht)
  | stops => cases ht
  | placesText _ =>
    obtain ⟨herr, -, hepos⟩ := sameRecord_of_complete ht
    exact ⟨fun _ => ⟨herr, hepos⟩, fun hne => absurd rfl (hne _ _ _)⟩
  | clearsRecord => exact ⟨fun hne => absurd rfl hne, fun _ hne => absurd rfl hne⟩
  | writes | reads | takesNumeral _ | setsTlen _ | storesByte =>
    obtain ⟨herr, htrunc, hepos⟩ := sameRecord_of_complete ht
    exact ⟨fun _ => ⟨herr, hepos⟩, fun _ _ => htrunc⟩

end Sys2Proof.Machine
end

section
/-! PROOFS. The two memories of the unit as commands see them (20_memory.md): who writes the text buffer, TLEN and TCONS (R52), and
how two PUT32 read back as one limb (R53). -/

namespace Sys2Proof.Machine

/-! Who writes the text buffer and the lengths, by the way a command ends. -/

section
variable {s t : State} {i : Instr} {r : Result}

/-- Raising an error changes no byte and no length (60_exceptions.md R262). -/
theorem sameText_sameLengths_of_raise {e : UnitError} (ht : raise s e = .next t) : SameText s t ∧ SameLengths s t := by
  obtain ⟨u, hu, -, htext, hlengths, -⟩ := raise_spec s e
  cases hu.symm.trans ht
  exact ⟨htext, hlengths⟩

theorem sameText_of_ending (hr : Ending s i r) (ht : r = .next t) (htst : ∀ a, i ≠ .tst a)
    (htostr : ∀ w ra b, i ≠ .tostr w ra b) : SameText s t := by
  cases hr with
  | raises _ => exact (sameText_sameLengths_of_raise ht).1
  | placesText _ => exact absurd rfl (htostr _ _ _)
  | storesByte => exact absurd rfl (htst _)
  | stops => cases ht
  | writes | reads | takesNumeral _ | clearsRecord | setsTlen _ =>
    cases ht
    exact fun _ => rfl

theorem tlen_eq_of_ending (hr : Ending s i r) (ht : r = .next t) (htostr : ∀ w ra b, i ≠ .tostr w ra b)
    (hcsrw : ∀ c, i ≠ .csrw c) : t.tlen = s.tlen := by
  cases hr with
  | raises _ =>
    obtain ⟨-, htlen, -⟩ := sameText_sameLengths_of_raise ht
    exact htlen
  | placesText _ => exact absurd rfl (htostr _ _ _)
  | clearsRecord | setsTlen _ => exact absurd rfl (hcsrw _)
  | stops => cases ht
  | writes | reads | takesNumeral _ | storesByte =>
    cases ht
    rfl

theorem tcons_eq_of_ending (hr : Ending s i r) (ht : r = .next t) (hfromstr : ∀ w rd b e, i ≠ .fromstr w rd b e) :
    t.tcons = s.tcons := by
  cases hr with
  | raises _ =>
    obtain ⟨-, -, htcons⟩ := sameText_sameLengths_of_raise ht
    exact htcons
  | takesNumeral _ => exact absurd rfl (hfromstr _ _ _ _)
  | stops => cases ht
  | writes | reads | placesText _ | clearsRecord | setsTlen _ | storesByte =>
    cases ht
    rfl

/-- TST writes its one byte (46_system.md R245). -/
theorem loadByte_of_execTst {a : BitVec 9} {k : Nat} (ht : execTst a s = .next t) (hk : k ≠ a.toNat) :
    loadByte t.tb k = loadByte s.tb k := by
  cases ht
  exact loadByte_storeByte_ne _ _ _ _ hk

/-- A string placed in the text buffer changes no byte beyond its end. -/
theorem loadByte_of_placeText {out : List Byte} {u : State} {k : Nat} (hu : placeText s out = some u)
    (hk : out.length ≤ k) : loadByte u.tb k = loadByte s.tb k := by
  rw [placeText] at hu
  split at hu
  · cases hu
    exact loadByte_storeBytes_out _ _ _ _ (.inr (by rwa [Nat.zero_add]))
  · cases hu

/-- TOSTR writes the bytes of its string (43_radix.md R185), and none when it raises an error. -/
theorem loadByte_of_execTostr {w : Width} {ra : VReg} {base : BitVec 6} {k : Nat} (ht : execTostr w ra base s = .next t)
    (hk : (valueText w base.toNat (readW s w ra)).length ≤ k) : loadByte t.tb k = loadByte s.tb k := by
  rw [execTostr] at ht
  split at ht
  · cases hplace : placeText s (valueText w base.toNat (readW s w ra)) with
    | none =>
      simp only [hplace] at ht
      cases ht
    | some u =>
      have hbytes := loadByte_of_placeText hplace hk
      simp only [hplace] at ht
      cases ht
      exact hbytes
  · exact (sameText_sameLengths_of_raise ht).1 k

end

/-- Settles O16: which commands write is read off the ways a command ends; which bytes, off the stores of TST and TOSTR. -/
theorem writersOfTextAndLengths : Obligations.WritersOfTextAndLengths := by
  intro i s t ht
  have hending := exec_ending s i
  refine ⟨sameText_of_ending hending ht, ?tst, ?tostr, tlen_eq_of_ending hending ht, tcons_eq_of_ending hending ht⟩
  case tst =>
    rintro a rfl k hk
    exact loadByte_of_execTst ht hk
  case tostr =>
    rintro w ra b rfl k hk
    exact loadByte_of_execTostr ht hk

/-! Slices of a register: a slice written reads back, a disjoint one is as before, and a limb is its two 32-bit slices. -/

section
variable {len len' : Nat} (x : Value) (lo lo' : Nat) (d : BitVec len)

theorem slice_withSlice_same (h : lo + len ≤ 256) : slice (withSlice x lo d) lo len = d := by
  refine BitVec.eq_of_getLsbD_eq fun b hb => ?_
  have hin : lo ≤ lo + b ∧ lo + b < lo + len := by omega
  simp only [slice, BitVec.getLsbD_extractLsb', hb, decide_true, Bool.true_and]
  rw [getLsbD_withSlice _ _ _ _ (by omega), if_pos hin, Nat.add_sub_cancel_left]

theorem slice_withSlice_disjoint (h : lo' + len' ≤ lo ∨ lo + len ≤ lo') (hend : lo' + len' ≤ 256) :
    slice (withSlice x lo d) lo' len' = slice x lo' len' := by
  refine BitVec.eq_of_getLsbD_eq fun b hb => ?_
  have hout : ¬ (lo ≤ lo' + b ∧ lo' + b < lo + len) := by omega
  simp only [slice, BitVec.getLsbD_extractLsb', hb, decide_true, Bool.true_and]
  rw [getLsbD_withSlice _ _ _ _ (by omega), if_neg hout]

end

/-- Limb `k` is slices `2k+1` and `2k`, high slice first (10_state.md R21). -/
theorem limbOf_eq_append (x : Value) (k : Nat) : limbOf x k = slice32Of x (2 * k + 1) ++ slice32Of x (2 * k) := by
  have hlo : 64 * k = 32 * (2 * k) := by omega
  rw [limbOf, hlo]
  exact (BitVec.extractLsb'_append_extractLsb'_eq_extractLsb' (Nat.mul_succ 32 (2 * k))).symm

/-- PUT32 with data word `d` (40_limb_vector.md R102). -/
theorem exec_put32_spec (s : State) (d : Limb) (rd : VReg) (j : Fin 8) :
    ∃ t, exec (.put32 rd j) { s with din := d } = .next t ∧ readV t rd = withSlice (readV s rd) (32 * j.val) (d.setWidth 32) := by
  obtain ⟨t, ht, hv, -⟩ := complete_writeV { s with din := d } rd (withSlice (readV s rd) (32 * j.val) (d.setWidth 32))
  exact ⟨t, ht, hv⟩

/-- GET64 (40_limb_vector.md R103). -/
theorem exec_get64_spec (s : State) (ra : VReg) (k : Fin 4) :
    ∃ t, exec (.get64 ra k) s = .next t ∧ Answers t (limbOf (readV s ra) k.val) := ⟨_, rfl, rfl⟩

/-- Settles O21: the second PUT32 leaves the first one's slice, and the limb read is the two slices. -/
theorem twoPut32ReadBackAsOneLimb : Obligations.TwoPut32ReadBackAsOneLimb := by
  intro s r k lo hi i j hi2k hj2k
  obtain ⟨t, ht, htv⟩ := exec_put32_spec s lo r i
  obtain ⟨u, hu, huv⟩ := exec_put32_spec t hi r j
  obtain ⟨x, hx, hanswer⟩ := exec_get64_spec u r k
  have hlow : slice32Of (readV u r) (2 * k.val) = lo.setWidth 32 := by
    rw [slice32Of, huv, slice_withSlice_disjoint _ _ _ _ (by omega) (by omega), htv, hi2k,
      slice_withSlice_same _ _ _ (by omega)]
  have hhigh : slice32Of (readV u r) (2 * k.val + 1) = hi.setWidth 32 := by
    rw [slice32Of, huv, hj2k, slice_withSlice_same _ _ _ (by omega)]
  rw [limbOf_eq_append, hlow, hhigh] at hanswer
  exact ⟨t, u, x, ht, hu, hx, hanswer⟩

end Sys2Proof.Machine
end

section
/-! PROOFS. The decoder and the encoder are inverse (30_encoding.md R70 to R76). First the fields of a word; then, for each format,
the fields it decodes; then every opcode. -/

namespace Sys2Proof

/-! One field at a time: the widths, the control registers, and the immediates whose high bits must be zero. -/

theorem widthOf_eq_some_iff {x : BitVec 2} {w : Width} : widthOf x = some w ↔ x = wselOf w := by
  revert x
  cases w <;> decide

/-- The reserved selector is the only one that names no width (00_scope.md R6). -/
theorem widthOf_eq_none_iff {x : BitVec 2} : widthOf x = none ↔ x = 3 := by
  revert x
  decide

theorem exists_wselOf {x : BitVec 2} (h : x ≠ 3) : ∃ w, x = wselOf w := by
  obtain ⟨w, hw⟩ := Option.ne_none_iff_exists'.1 (mt widthOf_eq_none_iff.1 h)
  exact ⟨w, widthOf_eq_some_iff.1 hw⟩

theorem csrOf_eq_some_iff {x : BitVec 12} {c : Csr} : csrOf x = some c ↔ x = csrNumber c := by
  unfold csrOf
  cases c <;> split_ifs <;> simp_all [csrNumber]

/-- An immediate whose bits from `n` up are zero is the zero extension of its low `n` bits. -/
theorem exists_setWidth_of_lt {x : BitVec 12} {n : Nat} (h : x.toNat < 2 ^ n) : ∃ y : BitVec n, x = y.setWidth 12 := by
  refine ⟨x.setWidth n, BitVec.eq_of_toNat_eq ?_⟩
  rw [BitVec.toNat_setWidth, BitVec.toNat_setWidth, Nat.mod_eq_of_lt h, Nat.mod_eq_of_lt x.isLt]

/-- The decoder's test of the bits from `n` up. -/
theorem extractLsb'_eq_zero_iff {x : BitVec 12} {n m : Nat} (h : n + m = 12) :
    x.extractLsb' n m = 0 ↔ ∃ y : BitVec n, x = y.setWidth 12 := by
  constructor
  · intro hx
    have hdiv : x.toNat / 2 ^ n % 2 ^ m = 0 := by
      simpa [Nat.shiftRight_eq_div_pow] using congrArg BitVec.toNat hx
    have hlt : x.toNat / 2 ^ n < 2 ^ m := Nat.div_lt_of_lt_mul (by rw [← Nat.pow_add, h]; exact x.isLt)
    rw [Nat.mod_eq_of_lt hlt] at hdiv
    exact exists_setWidth_of_lt ((Nat.div_eq_zero_iff_lt (Nat.two_pow_pos n)).1 hdiv)
  · rintro ⟨y, rfl⟩
    refine BitVec.eq_of_getLsbD_eq fun b _ => ?_
    simp

/-- The opcode table's test of the bits from `n` up. -/
theorem exists_setWidth_of_and_eq_zero {x : BitVec 12} {n : Nat} (h : x &&& BitVec.allOnes 12 <<< n = 0) :
    ∃ y : BitVec n, x = y.setWidth 12 := by
  refine exists_setWidth_of_lt (Nat.lt_pow_two_of_testBit _ fun b hb => ?_)
  by_cases hlt : b < 12
  · have hmask : (BitVec.allOnes 12 <<< n).getLsbD b = true := by
      rw [BitVec.getLsbD_shiftLeft, BitVec.getLsbD_allOnes]
      simp [hlt, hb, show b - n < 12 by omega]
    have hbit : (x &&& BitVec.allOnes 12 <<< n).getLsbD b = false := by rw [h]; exact BitVec.getLsbD_zero
    rwa [BitVec.getLsbD_and, hmask, Bool.and_true] at hbit
  · exact x.getLsbD_of_ge b (by omega)

theorem extractLsb'_setWidth {n : Nat} (h : n ≤ 12) (y : BitVec n) : (y.setWidth 12).extractLsb' 0 n = y := by
  rw [← BitVec.setWidth_eq_extractLsb' h, BitVec.setWidth_setWidth_of_le _ h, BitVec.setWidth_eq]

/-- An immediate read at its low `n` bits, the others zero. -/
theorem readLow_iff {x : BitVec 12} {n m : Nat} {P : BitVec n → Prop} (h : n + m = 12) :
    x.extractLsb' n m = 0 ∧ P (x.extractLsb' 0 n) ↔ ∃ y : BitVec n, x = y.setWidth 12 ∧ P y := by
  rw [extractLsb'_eq_zero_iff h]
  constructor
  · rintro ⟨⟨y, rfl⟩, hP⟩
    rw [extractLsb'_setWidth (by omega)] at hP
    exact ⟨y, rfl, hP⟩
  · rintro ⟨y, rfl, hP⟩
    rw [extractLsb'_setWidth (by omega)]
    exact ⟨⟨y, rfl⟩, hP⟩

theorem exists_eq_ofBool (y : BitVec 1) : ∃ c, y = BitVec.ofBool c := by
  revert y
  decide

theorem exists_eq_ofBool_append (y : BitVec 7) : ∃ (b : BitVec 6) (e : Bool), y = BitVec.ofBool e ++ b := by
  refine ⟨y.extractLsb' 0 6, y.getLsbD 6, ?_⟩
  revert y
  decide

theorem getLsbD_setWidth_ofBool (c : Bool) : ((BitVec.ofBool c).setWidth 12).getLsbD 0 = c := by
  cases c <;> rfl

theorem getLsbD_setWidth_append (e : Bool) (b : BitVec 6) : ((BitVec.ofBool e ++ b).setWidth 12).getLsbD 6 = e := by
  rw [BitVec.getLsbD_setWidth, BitVec.getLsbD_append]
  simp

theorem extractLsb'_setWidth_append (e : Bool) (b : BitVec 6) :
    ((BitVec.ofBool e ++ b).setWidth 12).extractLsb' 0 6 = b := by
  rw [← BitVec.setWidth_eq_extractLsb' (by decide), BitVec.setWidth_setWidth_of_le _ (by decide),
    BitVec.setWidth_append_eq_right]

/-! The ten formats of 30_encoding.md R72: the fields each decodes, and the command it gives for them. -/

section
variable {f : Fields} {i : Instr}

/-- A test of R75 passed, written with the refusal first. -/
theorem ite_error_eq_ok_iff {c : Prop} [Decidable c] {e : IllegalReason} {x : Decoded} :
    (if c then .error e else x) = .ok i ↔ ¬ c ∧ x = .ok i := by
  split <;> simp_all

/-- A test of R75 passed, written with the refusal last. -/
theorem ite_eq_ok_iff {c : Prop} [Decidable c] {e : IllegalReason} {x : Decoded} :
    (if c then x else .error e) = .ok i ↔ c ∧ x = .ok i := by
  split <;> simp_all

theorem decodeR3_eq_ok_iff {k : Width → VReg → VReg → VReg → Instr} :
    decodeR3 f k = .ok i ↔ ∃ w, f.wsel = wselOf w ∧ f.imm = 0 ∧ k w (regOf f.rd) (regOf f.ra) (regOf f.rb) = i := by
  simp only [← widthOf_eq_some_iff]
  cases h : widthOf f.wsel <;> simp [decodeR3, h, ite_eq_ok_iff]

theorem decodeR2_eq_ok_iff {k : Width → VReg → VReg → Instr} :
    decodeR2 f k = .ok i ↔
      ∃ w, f.wsel = wselOf w ∧ f.rb = 0 ∧ f.imm = 0 ∧ k w (regOf f.rd) (regOf f.ra) = i := by
  simp only [← widthOf_eq_some_iff]
  cases h : widthOf f.wsel <;> simp [decodeR2, h, ite_eq_ok_iff]

theorem decodeRI_eq_ok_iff {k : Width → VReg → VReg → BitVec 12 → Instr} :
    decodeRI f k = .ok i ↔ ∃ w, f.wsel = wselOf w ∧ f.rb = 0 ∧ k w (regOf f.rd) (regOf f.ra) f.imm = i := by
  simp only [← widthOf_eq_some_iff]
  cases h : widthOf f.wsel <;> simp [decodeRI, h, ite_eq_ok_iff]

theorem decodeL3_eq_ok_iff {k : VReg → VReg → VReg → Instr} :
    decodeL3 f k = .ok i ↔ f.wsel = 0 ∧ f.imm = 0 ∧ k (regOf f.rd) (regOf f.ra) (regOf f.rb) = i := by
  simp [decodeL3, ite_eq_ok_iff]

theorem decodeL3I_eq_ok_iff {k : VReg → VReg → VReg → Bool → Instr} :
    decodeL3I f k = .ok i ↔ f.wsel = 0 ∧
      ∃ c, f.imm = (BitVec.ofBool c).setWidth 12 ∧ k (regOf f.rd) (regOf f.ra) (regOf f.rb) c = i := by
  simp only [decodeL3I, ite_error_eq_ok_iff, not_not, extractLsb'_eq_zero_iff (n := 1) (m := 11) rfl, Except.ok.injEq]
  refine and_congr_right fun _ => ?_
  constructor
  · rintro ⟨⟨y, himm⟩, rfl⟩
    obtain ⟨c, rfl⟩ := exists_eq_ofBool y
    exact ⟨c, himm, by rw [himm, getLsbD_setWidth_ofBool]⟩
  · rintro ⟨c, himm, rfl⟩
    exact ⟨⟨_, himm⟩, by rw [himm, getLsbD_setWidth_ofBool]⟩

/-- An index below `n` read from the whole immediate. -/
theorem readIndex_iff {n : Nat} (hn : n ≤ 2 ^ 12) {x : BitVec 12} {k : Fin n → Instr} :
    (if h : x.toNat < n then .ok (k ⟨x.toNat, h⟩) else .error .badImmediate : Decoded) = .ok i ↔
      ∃ j : Fin n, x = BitVec.ofNat 12 j.val ∧ k j = i := by
  constructor
  · intro h
    split at h
    · rename_i hlt
      exact ⟨⟨x.toNat, hlt⟩, by rw [BitVec.ofNat_toNat, BitVec.setWidth_eq], Except.ok.inj h⟩
    · cases h
  · rintro ⟨j, rfl, rfl⟩
    have hj : (BitVec.ofNat 12 j.val).toNat = j.val := Nat.mod_eq_of_lt (Nat.lt_of_lt_of_le j.isLt hn)
    simp [hj]

theorem decodeDI_eq_ok_iff {n : Nat} (hn : n ≤ 2 ^ 12) {k : VReg → Fin n → Instr} :
    decodeDI n f k = .ok i ↔ f.wsel = 0 ∧ f.ra = 0 ∧ f.rb = 0 ∧
      ∃ j : Fin n, f.imm = BitVec.ofNat 12 j.val ∧ k (regOf f.rd) j = i := by
  simp only [decodeDI, ite_error_eq_ok_iff, readIndex_iff hn, not_not, not_or, and_assoc]

theorem decodeAI_eq_ok_iff {n : Nat} (hn : n ≤ 2 ^ 12) {k : VReg → Fin n → Instr} :
    decodeAI n f k = .ok i ↔ f.wsel = 0 ∧ f.rd = 0 ∧ f.rb = 0 ∧
      ∃ j : Fin n, f.imm = BitVec.ofNat 12 j.val ∧ k (regOf f.ra) j = i := by
  simp only [decodeAI, ite_error_eq_ok_iff, readIndex_iff hn, not_not, not_or, and_assoc]

theorem decodeSO_eq_ok_iff {k : Width → VReg → BitVec 6 → Instr} :
    decodeSO f k = .ok i ↔ ∃ w, f.wsel = wselOf w ∧ f.rd = 0 ∧ f.rb = 0 ∧
      ∃ b : BitVec 6, f.imm = b.setWidth 12 ∧ baseLegal b = true ∧ k w (regOf f.ra) b = i := by
  simp only [← widthOf_eq_some_iff]
  cases h : widthOf f.wsel with
  | none => simp [decodeSO, h]
  | some w =>
    simp only [decodeSO, h, ite_error_eq_ok_iff, ite_eq_ok_iff, not_not, not_or, and_assoc, Except.ok.injEq,
      readLow_iff (n := 6) (m := 6) rfl (P := fun b => baseLegal b = true ∧ k w (regOf f.ra) b = i)]
    simp

theorem decodeSI_eq_ok_iff {k : Width → VReg → BitVec 6 → Bool → Instr} :
    decodeSI f k = .ok i ↔ ∃ w, f.wsel = wselOf w ∧ f.ra = 0 ∧ f.rb = 0 ∧
      ∃ (b : BitVec 6) (e : Bool), f.imm = (BitVec.ofBool e ++ b).setWidth 12 ∧ baseLegal b = true
        ∧ k w (regOf f.rd) b e = i := by
  simp only [← widthOf_eq_some_iff]
  cases h : widthOf f.wsel with
  | none => simp [decodeSI, h]
  | some w =>
    simp only [decodeSI, h, ite_error_eq_ok_iff, ite_eq_ok_iff, not_not, not_or, and_assoc, Except.ok.injEq,
      extractLsb'_eq_zero_iff (n := 7) (m := 5) rfl, Option.some.injEq, exists_eq_left']
    refine and_congr_right fun _ => and_congr_right fun _ => ?_
    constructor
    · rintro ⟨⟨y, himm⟩, hbase, rfl⟩
      obtain ⟨b, e, rfl⟩ := exists_eq_ofBool_append y
      rw [himm, extractLsb'_setWidth_append] at hbase
      exact ⟨b, e, himm, hbase, by rw [himm, extractLsb'_setWidth_append, getLsbD_setWidth_append]⟩
    · rintro ⟨b, e, himm, hbase, rfl⟩
      rw [himm, extractLsb'_setWidth_append, getLsbD_setWidth_append]
      exact ⟨⟨_, rfl⟩, hbase, rfl⟩

theorem decodeI_eq_ok_iff {k : Decoded} :
    decodeI f k = .ok i ↔ f.wsel = 0 ∧ f.rd = 0 ∧ f.ra = 0 ∧ f.rb = 0 ∧ k = .ok i := by
  simp only [decodeI, ite_error_eq_ok_iff, not_not, not_or, and_assoc]

theorem decodeCsrr_eq_ok_iff :
    decodeCsrr f = .ok i ↔ f.wsel = 0 ∧ f.rd = 0 ∧ f.ra = 0 ∧ f.rb = 0 ∧
      ∃ c, f.imm = csrNumber c ∧ .csrr c = i := by
  simp only [← csrOf_eq_some_iff, decodeCsrr, decodeI_eq_ok_iff]
  cases h : csrOf f.imm <;> simp

theorem decodeCsrw_eq_ok_iff :
    decodeCsrw f = .ok i ↔ f.wsel = 0 ∧ f.rd = 0 ∧ f.ra = 0 ∧ f.rb = 0 ∧
      ∃ c, f.imm = csrNumber c ∧ c.writable = true ∧ .csrw c = i := by
  simp only [← csrOf_eq_some_iff, decodeCsrw, decodeI_eq_ok_iff]
  cases h : csrOf f.imm <;> simp [ite_eq_ok_iff]

theorem decodeText_eq_ok_iff {k : BitVec 9 → Instr} :
    decodeText f k = .ok i ↔ f.wsel = 0 ∧ f.rd = 0 ∧ f.ra = 0 ∧ f.rb = 0 ∧
      ∃ a : BitVec 9, f.imm = a.setWidth 12 ∧ k a = i := by
  simp only [decodeText, decodeI_eq_ok_iff, ite_error_eq_ok_iff, not_not, Except.ok.injEq,
    readLow_iff (n := 9) (m := 3) rfl (P := fun a => k a = i)]

end

/-! Decoding and encoding, opcode by opcode (30_encoding.md R74). -/

/-- Every field of a well-formed command is decoded back to its operand, by the format of the command. -/
theorem decodeFields_fieldsFor {i : Instr} (h : i.wellFormed = true) : decodeFields (fieldsFor i) = .ok i := by
  cases i with
  | put64 rd j | put32 rd j => exact (decodeDI_eq_ok_iff (by decide)).2 ⟨rfl, rfl, rfl, j, rfl, rfl⟩
  | get64 ra j | get32 ra j => exact (decodeAI_eq_ok_iff (by decide)).2 ⟨rfl, rfl, rfl, j, rfl, rfl⟩
  | mov w rd ra | neg w rd ra | square w rd ra | sqrt w rd ra | fromint w rd ra | todbl w rd ra | fromdbl w rd ra =>
    exact decodeR2_eq_ok_iff.2 ⟨w, rfl, rfl, rfl, rfl⟩
  | and w rd ra rb | or w rd ra rb | xor w rd ra rb | add w rd ra rb | sub w rd ra rb | mul w rd ra rb | div w rd ra rb
  | lt w rd ra rb | gt w rd ra rb | le w rd ra rb | ge w rd ra rb | eq w rd ra rb | ne w rd ra rb
  | ltu w rd ra rb | gtu w rd ra rb | leu w rd ra rb | geu w rd ra rb =>
    exact decodeR3_eq_ok_iff.2 ⟨w, rfl, rfl, rfl⟩
  | shl w rd ra n | shr w rd ra n => exact decodeRI_eq_ok_iff.2 ⟨w, rfl, rfl, rfl⟩
  | laddc rd ra rb c | lsubb rd ra rb c => exact decodeL3I_eq_ok_iff.2 ⟨rfl, c, rfl, rfl⟩
  | lmulw rd ra rb => exact decodeL3_eq_ok_iff.2 ⟨rfl, rfl, rfl⟩
  | tostr w ra base => exact decodeSO_eq_ok_iff.2 ⟨w, rfl, rfl, rfl, base, rfl, h, rfl⟩
  | fromstr w rd base e => exact decodeSI_eq_ok_iff.2 ⟨w, rfl, rfl, rfl, base, e, rfl, h, rfl⟩
  | csrr c => exact decodeCsrr_eq_ok_iff.2 ⟨rfl, rfl, rfl, rfl, c, rfl, rfl⟩
  | csrw c => exact decodeCsrw_eq_ok_iff.2 ⟨rfl, rfl, rfl, rfl, c, rfl, h, rfl⟩
  | tld a | tst a => exact decodeText_eq_ok_iff.2 ⟨rfl, rfl, rfl, rfl, a, rfl, rfl⟩

/-- What the decoder accepts is the fields of the well-formed command it gives; the cases are the opcodes of its map, in order. -/
theorem fieldsFor_of_decodeFields {f : Fields} {i : Instr} (h : decodeFields f = .ok i) :
    i.wellFormed = true ∧ fieldsFor i = f := by
  obtain ⟨op, wsel, rd, ra, rb, imm⟩ := f
  unfold decodeFields at h
  split at h
  -- the reserved opcodes
  case h_40 => cases h
  all_goals rename_i hop; cases hop
  -- format DI: PUT64, PUT32
  case h_1 | h_2 =>
    obtain ⟨rfl, rfl, rfl, j, rfl, rfl⟩ := (decodeDI_eq_ok_iff (by decide)).1 h
    exact ⟨rfl, rfl⟩
  -- format AI: GET64, GET32
  case h_3 | h_4 =>
    obtain ⟨rfl, rfl, rfl, j, rfl, rfl⟩ := (decodeAI_eq_ok_iff (by decide)).1 h
    exact ⟨rfl, rfl⟩
  -- format R2: MOV, NEG, SQUARE, SQRT, FROMINT, TODBL, FROMDBL
  case h_5 | h_16 | h_18 | h_20 | h_31 | h_34 | h_35 =>
    obtain ⟨w, rfl, rfl, rfl, rfl⟩ := decodeR2_eq_ok_iff.1 h
    exact ⟨rfl, rfl⟩
  -- format RI: SHL, SHR
  case h_9 | h_10 =>
    obtain ⟨w, rfl, rfl, rfl⟩ := decodeRI_eq_ok_iff.1 h
    exact ⟨rfl, rfl⟩
  -- format L3I: LADDC, LSUBB
  case h_11 | h_12 =>
    obtain ⟨rfl, c, rfl, rfl⟩ := decodeL3I_eq_ok_iff.1 h
    exact ⟨rfl, rfl⟩
  -- format L3: LMULW
  case h_13 =>
    obtain ⟨rfl, rfl, rfl⟩ := decodeL3_eq_ok_iff.1 h
    exact ⟨rfl, rfl⟩
  -- format SO: TOSTR
  case h_32 =>
    obtain ⟨w, rfl, rfl, rfl, base, rfl, hbase, rfl⟩ := decodeSO_eq_ok_iff.1 h
    exact ⟨hbase, rfl⟩
  -- format SI: FROMSTR
  case h_33 =>
    obtain ⟨w, rfl, rfl, rfl, base, e, rfl, hbase, rfl⟩ := decodeSI_eq_ok_iff.1 h
    exact ⟨hbase, rfl⟩
  -- format I: CSRR, CSRW, TLD, TST
  case h_36 =>
    obtain ⟨rfl, rfl, rfl, rfl, c, rfl, rfl⟩ := decodeCsrr_eq_ok_iff.1 h
    exact ⟨rfl, rfl⟩
  case h_37 =>
    obtain ⟨rfl, rfl, rfl, rfl, c, rfl, hwritable, rfl⟩ := decodeCsrw_eq_ok_iff.1 h
    exact ⟨hwritable, rfl⟩
  case h_38 | h_39 =>
    obtain ⟨rfl, rfl, rfl, rfl, a, rfl, rfl⟩ := decodeText_eq_ok_iff.1 h
    exact ⟨rfl, rfl⟩
  -- format R3: the bitwise commands, ADD, SUB, MUL, DIV and the comparisons
  case h_6 | h_7 | h_8 | h_14 | h_15 | h_17 | h_19 | h_21 | h_22 | h_23 | h_24 | h_25 | h_26 | h_27 | h_28 | h_29 | h_30 =>
    obtain ⟨w, rfl, rfl, rfl⟩ := decodeR3_eq_ok_iff.1 h
    exact ⟨rfl, rfl⟩

/-! Words. -/

/-- The decoder and the encoder are inverse: the words decoded to a command are the one word of a well-formed command. -/
theorem decode_eq_ok_iff {w : CmdWord} {i : Instr} : decode w = .ok i ↔ i.wellFormed = true ∧ encode i = w := by
  constructor
  · intro h
    obtain ⟨hwf, hfields⟩ := fieldsFor_of_decodeFields h
    exact ⟨hwf, by rw [encode, hfields, packWord_fieldsOf]⟩
  · rintro ⟨hwf, rfl⟩
    rw [decode, encode, fieldsOf_packWord]
    exact decodeFields_fieldsFor hwf

/-- Settles O1: the decoder reads back the fields that the encoder packed. -/
theorem decodeOfEncodeGivesTheCommand : Obligations.DecodeOfEncodeGivesTheCommand :=
  fun _ hwf => decode_eq_ok_iff.2 ⟨hwf, rfl⟩

/-- Settles O4: each word is the encoder's for its command. -/
theorem specExampleWordsDecode : Obligations.SpecExampleWordsDecode := by
  simp only [Obligations.SpecExampleWordsDecode, decode_eq_ok_iff]
  decide

end Sys2Proof
end

section
/-! PROOFS. The opcode table against the decoder (30_encoding.md R74, R75): each row, written by its format, accepts the words of the
commands with its mnemonic and no other. -/

namespace Sys2Proof

/-! The opcode table by format (30_encoding.md R72, R74). -/

/-- The row of opcode `op` whose words have zero where `zero` has a bit set, its own opcode field apart. -/
def tableRow (name : String) (op : BitVec 6) (zero : Fields) (hasWidth hasBase : Bool) : OpRow :=
  ⟨name, packWord ⟨op, 0, 0, 0, 0, 0⟩, packWord { zero with op := BitVec.allOnes 6 }, hasWidth, hasBase⟩

theorem accepts_tableRow_iff {name : String} {op : BitVec 6} {zero f : Fields} {hasWidth hasBase : Bool} :
    (tableRow name op zero hasWidth hasBase).accepts (packWord f) = true ↔
      (f.op = op ∧ f.wsel &&& zero.wsel = 0 ∧ f.rd &&& zero.rd = 0 ∧ f.ra &&& zero.ra = 0 ∧ f.rb &&& zero.rb = 0
        ∧ f.imm &&& zero.imm = 0)
      ∧ (hasWidth = false ∨ f.wsel ≠ 3) ∧ (hasBase = false ∨ baseLegal (f.imm.extractLsb' 0 6) = true) := by
  have hwsel : (packWord f).extractLsb' 24 2 = f.wsel := congrArg Fields.wsel (fieldsOf_packWord f)
  have himm : (packWord f).extractLsb' 0 12 = f.imm := congrArg Fields.imm (fieldsOf_packWord f)
  have hbase : (packWord f).extractLsb' 0 6 = f.imm.extractLsb' 0 6 := by
    rw [← himm, BitVec.extractLsb'_extractLsb'_of_le (by decide)]
  simp only [OpRow.accepts, tableRow, hwsel, hbase, packWord_and, packWord_inj, Fields.mk.injEq, BitVec.and_allOnes,
    Bool.and_eq_true, Bool.or_eq_true, Bool.not_eq_true', beq_iff_eq, bne_iff_ne, and_assoc]

/-! The rows of the ten formats of 30_encoding.md R72, by the bits each wants zero. -/

def rowR3 (name : String) (op : BitVec 6) : OpRow :=
  tableRow name op ⟨0, 0, 0, 0, 0, BitVec.allOnes 12⟩ true false

def rowR2 (name : String) (op : BitVec 6) : OpRow :=
  tableRow name op ⟨0, 0, 0, 0, BitVec.allOnes 4, BitVec.allOnes 12⟩ true false

def rowRI (name : String) (op : BitVec 6) : OpRow := tableRow name op ⟨0, 0, 0, 0, BitVec.allOnes 4, 0⟩ true false

/-- L3 and L3I. -/
def rowL3 (name : String) (op : BitVec 6) (imm : BitVec 12) : OpRow :=
  tableRow name op ⟨0, BitVec.allOnes 2, 0, 0, 0, imm⟩ false false

/-- DI with an index of `n` bits. -/
def rowDI (name : String) (op : BitVec 6) (n : Nat) : OpRow :=
  tableRow name op ⟨0, BitVec.allOnes 2, 0, BitVec.allOnes 4, BitVec.allOnes 4, BitVec.allOnes 12 <<< n⟩ false false

/-- AI with an index of `n` bits. -/
def rowAI (name : String) (op : BitVec 6) (n : Nat) : OpRow :=
  tableRow name op ⟨0, BitVec.allOnes 2, BitVec.allOnes 4, 0, BitVec.allOnes 4, BitVec.allOnes 12 <<< n⟩ false false

def rowSO (name : String) (op : BitVec 6) : OpRow :=
  tableRow name op ⟨0, 0, BitVec.allOnes 4, 0, BitVec.allOnes 4, BitVec.allOnes 12 <<< 6⟩ true true

def rowSI (name : String) (op : BitVec 6) : OpRow :=
  tableRow name op ⟨0, 0, 0, BitVec.allOnes 4, BitVec.allOnes 4, BitVec.allOnes 12 <<< 7⟩ true true

def rowI (name : String) (op : BitVec 6) (imm : BitVec 12) : OpRow :=
  tableRow name op ⟨0, BitVec.allOnes 2, BitVec.allOnes 4, BitVec.allOnes 4, BitVec.allOnes 4, imm⟩ false false

/-- The masks and patterns of the table are those of the formats. -/
theorem opcodeTable_eq : opcodeTable = [
    rowDI "PUT64" 0x01 2, rowDI "PUT32" 0x02 3, rowAI "GET64" 0x03 2, rowAI "GET32" 0x04 3, rowR2 "MOV" 0x05,
    rowR3 "AND" 0x06, rowR3 "OR" 0x07, rowR3 "XOR" 0x08, rowRI "SHL" 0x09, rowRI "SHR" 0x0A,
    rowL3 "LADDC" 0x0B (BitVec.allOnes 12 <<< 1), rowL3 "LSUBB" 0x0C (BitVec.allOnes 12 <<< 1),
    rowL3 "LMULW" 0x0D (BitVec.allOnes 12), rowR3 "ADD" 0x10, rowR3 "SUB" 0x11, rowR2 "NEG" 0x12, rowR3 "MUL" 0x13,
    rowR2 "SQUARE" 0x14, rowR3 "DIV" 0x15, rowR2 "SQRT" 0x16, rowR3 "LT" 0x18, rowR3 "GT" 0x19, rowR3 "LE" 0x1A,
    rowR3 "GE" 0x1B, rowR3 "EQ" 0x1C, rowR3 "NE" 0x1D, rowR3 "LTU" 0x1E, rowR3 "GTU" 0x1F, rowR3 "LEU" 0x20,
    rowR3 "GEU" 0x21, rowR2 "FROMINT" 0x24, rowSO "TOSTR" 0x25, rowSI "FROMSTR" 0x26, rowR2 "TODBL" 0x27,
    rowR2 "FROMDBL" 0x28, rowI "CSRR" 0x30 (BitVec.allOnes 12 <<< 2), rowI "CSRW" 0x31 0xFFD,
    rowI "TLD" 0x32 (BitVec.allOnes 12 <<< 9), rowI "TST" 0x33 (BitVec.allOnes 12 <<< 9)] := by
  decide

/-- Command `i` is well formed, has the fields `f`, and carries the mnemonic `name`. -/
def Spells (name : String) (f : Fields) (i : Instr) : Prop :=
  i.wellFormed = true ∧ fieldsFor i = f ∧ i.mnemonic = name

/-- Every word the row accepts is the word of a well-formed command with the row's mnemonic. -/
def OpRow.Spelled (r : OpRow) : Prop := ∀ f, r.accepts (packWord f) = true → ∃ i, Spells r.mnemonic f i

section
variable {name : String} {op : BitVec 6}

theorem rowR3_spelled (k : Width → VReg → VReg → VReg → Instr)
    (hk : ∀ w rd ra rb, Spells name (fieldsR3 op w rd ra rb) (k w rd ra rb) := by intros; exact ⟨rfl, rfl, rfl⟩) :
    (rowR3 name op).Spelled := by
  rintro ⟨op, wsel, rd, ra, rb, imm⟩ h
  simp only [rowR3, accepts_tableRow_iff, BitVec.and_allOnes] at h
  obtain ⟨⟨rfl, -, -, -, -, rfl⟩, hwidth, -⟩ := h
  obtain ⟨w, rfl⟩ := exists_wselOf (hwidth.resolve_left nofun)
  exact ⟨_, hk w (regOf rd) (regOf ra) (regOf rb)⟩

theorem rowR2_spelled (k : Width → VReg → VReg → Instr)
    (hk : ∀ w rd ra, Spells name (fieldsR2 op w rd ra) (k w rd ra) := by intros; exact ⟨rfl, rfl, rfl⟩) :
    (rowR2 name op).Spelled := by
  rintro ⟨op, wsel, rd, ra, rb, imm⟩ h
  simp only [rowR2, accepts_tableRow_iff, BitVec.and_allOnes] at h
  obtain ⟨⟨rfl, -, -, -, rfl, rfl⟩, hwidth, -⟩ := h
  obtain ⟨w, rfl⟩ := exists_wselOf (hwidth.resolve_left nofun)
  exact ⟨_, hk w (regOf rd) (regOf ra)⟩

theorem rowRI_spelled (k : Width → VReg → VReg → BitVec 12 → Instr)
    (hk : ∀ w rd ra n, Spells name (fieldsRI op w rd ra n) (k w rd ra n) := by intros; exact ⟨rfl, rfl, rfl⟩) :
    (rowRI name op).Spelled := by
  rintro ⟨op, wsel, rd, ra, rb, imm⟩ h
  simp only [rowRI, accepts_tableRow_iff, BitVec.and_allOnes] at h
  obtain ⟨⟨rfl, -, -, -, rfl, -⟩, hwidth, -⟩ := h
  obtain ⟨w, rfl⟩ := exists_wselOf (hwidth.resolve_left nofun)
  exact ⟨_, hk w (regOf rd) (regOf ra) imm⟩

theorem rowL3_spelled (k : VReg → VReg → VReg → Instr)
    (hk : ∀ rd ra rb, Spells name (fieldsL3 op rd ra rb 0) (k rd ra rb) := by intros; exact ⟨rfl, rfl, rfl⟩) :
    (rowL3 name op (BitVec.allOnes 12)).Spelled := by
  rintro ⟨op, wsel, rd, ra, rb, imm⟩ h
  simp only [rowL3, accepts_tableRow_iff, BitVec.and_allOnes] at h
  obtain ⟨⟨rfl, rfl, -, -, -, rfl⟩, -, -⟩ := h
  exact ⟨_, hk (regOf rd) (regOf ra) (regOf rb)⟩

theorem rowL3I_spelled (k : VReg → VReg → VReg → Bool → Instr)
    (hk : ∀ rd ra rb c, Spells name (fieldsL3 op rd ra rb ((BitVec.ofBool c).setWidth 12)) (k rd ra rb c) := by
      intros; exact ⟨rfl, rfl, rfl⟩) :
    (rowL3 name op (BitVec.allOnes 12 <<< 1)).Spelled := by
  rintro ⟨op, wsel, rd, ra, rb, imm⟩ h
  simp only [rowL3, accepts_tableRow_iff, BitVec.and_allOnes] at h
  obtain ⟨⟨rfl, rfl, -, -, -, himm⟩, -, -⟩ := h
  obtain ⟨y, rfl⟩ := exists_setWidth_of_and_eq_zero himm
  obtain ⟨c, rfl⟩ := exists_eq_ofBool y
  exact ⟨_, hk (regOf rd) (regOf ra) (regOf rb) c⟩

theorem rowDI_spelled {n : Nat} (k : VReg → Fin (2 ^ n) → Instr)
    (hk : ∀ rd j, Spells name (fieldsDI op rd (BitVec.ofNat 12 j.val)) (k rd j) := by intros; exact ⟨rfl, rfl, rfl⟩) :
    (rowDI name op n).Spelled := by
  rintro ⟨op, wsel, rd, ra, rb, imm⟩ h
  simp only [rowDI, accepts_tableRow_iff, BitVec.and_allOnes] at h
  obtain ⟨⟨rfl, rfl, -, rfl, rfl, himm⟩, -, -⟩ := h
  obtain ⟨j, rfl⟩ := exists_setWidth_of_and_eq_zero himm
  rw [← BitVec.ofNat_toNat]
  exact ⟨_, hk (regOf rd) j.toFin⟩

theorem rowAI_spelled {n : Nat} (k : VReg → Fin (2 ^ n) → Instr)
    (hk : ∀ ra j, Spells name (fieldsAI op ra (BitVec.ofNat 12 j.val)) (k ra j) := by intros; exact ⟨rfl, rfl, rfl⟩) :
    (rowAI name op n).Spelled := by
  rintro ⟨op, wsel, rd, ra, rb, imm⟩ h
  simp only [rowAI, accepts_tableRow_iff, BitVec.and_allOnes] at h
  obtain ⟨⟨rfl, rfl, rfl, -, rfl, himm⟩, -, -⟩ := h
  obtain ⟨j, rfl⟩ := exists_setWidth_of_and_eq_zero himm
  rw [← BitVec.ofNat_toNat]
  exact ⟨_, hk (regOf ra) j.toFin⟩

theorem rowSO_spelled (k : Width → VReg → BitVec 6 → Instr)
    (hk : ∀ w ra b, baseLegal b = true → Spells name ⟨op, wselOf w, 0, regField ra, 0, b.setWidth 12⟩ (k w ra b)) :
    (rowSO name op).Spelled := by
  rintro ⟨op, wsel, rd, ra, rb, imm⟩ h
  simp only [rowSO, accepts_tableRow_iff, BitVec.and_allOnes] at h
  obtain ⟨⟨rfl, -, rfl, -, rfl, himm⟩, hwidth, hbase⟩ := h
  obtain ⟨w, rfl⟩ := exists_wselOf (hwidth.resolve_left nofun)
  obtain ⟨b, rfl⟩ := exists_setWidth_of_and_eq_zero himm
  rw [extractLsb'_setWidth (by decide)] at hbase
  exact ⟨_, hk w (regOf ra) b (hbase.resolve_left nofun)⟩

theorem rowSI_spelled (k : Width → VReg → BitVec 6 → Bool → Instr)
    (hk : ∀ w rd b e, baseLegal b = true →
      Spells name ⟨op, wselOf w, regField rd, 0, 0, (BitVec.ofBool e ++ b).setWidth 12⟩ (k w rd b e)) :
    (rowSI name op).Spelled := by
  rintro ⟨op, wsel, rd, ra, rb, imm⟩ h
  simp only [rowSI, accepts_tableRow_iff, BitVec.and_allOnes] at h
  obtain ⟨⟨rfl, -, -, rfl, rfl, himm⟩, hwidth, hbase⟩ := h
  obtain ⟨w, rfl⟩ := exists_wselOf (hwidth.resolve_left nofun)
  obtain ⟨y, rfl⟩ := exists_setWidth_of_and_eq_zero himm
  obtain ⟨b, e, rfl⟩ := exists_eq_ofBool_append y
  rw [extractLsb'_setWidth_append] at hbase
  exact ⟨_, hk w (regOf rd) b e (hbase.resolve_left nofun)⟩

/-- Format I: what the mask of the immediate leaves is the immediate of a command. -/
theorem rowI_spelled {zero : BitVec 12}
    (hk : ∀ imm, imm &&& zero = 0 → ∃ i, Spells name (fieldsI op imm) i) : (rowI name op zero).Spelled := by
  rintro ⟨op, wsel, rd, ra, rb, imm⟩ h
  simp only [rowI, accepts_tableRow_iff, BitVec.and_allOnes] at h
  obtain ⟨⟨rfl, rfl, rfl, rfl, rfl, himm⟩, -, -⟩ := h
  exact hk imm himm

theorem rowText_spelled (k : BitVec 9 → Instr)
    (hk : ∀ a, Spells name (fieldsI op (a.setWidth 12)) (k a) := by intros; exact ⟨rfl, rfl, rfl⟩) :
    (rowI name op (BitVec.allOnes 12 <<< 9)).Spelled := by
  refine rowI_spelled fun imm himm => ?_
  obtain ⟨a, rfl⟩ := exists_setWidth_of_and_eq_zero himm
  exact ⟨_, hk a⟩

end

theorem exists_csrNumber {imm : BitVec 12} (h : imm &&& BitVec.allOnes 12 <<< 2 = 0) : ∃ c, imm = csrNumber c := by
  obtain ⟨y, rfl⟩ := exists_setWidth_of_and_eq_zero h
  have hy : csrOf (y.setWidth 12) ≠ none := by
    revert y
    decide
  obtain ⟨c, hc⟩ := Option.ne_none_iff_exists'.1 hy
  exact ⟨c, csrOf_eq_some_iff.1 hc⟩

theorem rowCsrr_spelled : (rowI "CSRR" 0x30 (BitVec.allOnes 12 <<< 2)).Spelled := by
  refine rowI_spelled fun imm himm => ?_
  obtain ⟨c, rfl⟩ := exists_csrNumber himm
  exact ⟨.csrr c, rfl, rfl, rfl⟩

/-- The mask 0xFFD leaves the numbers 0 and 2: STATUS and TLEN. -/
theorem rowCsrw_spelled : (rowI "CSRW" 0x31 0xFFD).Spelled := by
  refine rowI_spelled fun imm himm => ?_
  have hmask : BitVec.allOnes 12 <<< 2 = (0xFFD : BitVec 12) &&& BitVec.allOnes 12 <<< 2 := by decide
  have hnumber : imm &&& BitVec.allOnes 12 <<< 2 = 0 := by
    rw [hmask, ← BitVec.and_assoc, himm]
    exact BitVec.zero_and
  obtain ⟨c, rfl⟩ := exists_csrNumber hnumber
  have hwritable : c.writable = true := by
    revert himm
    cases c <;> decide
  exact ⟨.csrw c, hwritable, rfl, rfl⟩

/-- Row by row: the table accepts no word but the encoder's. -/
theorem spelled_of_mem_opcodeTable : ∀ r ∈ opcodeTable, r.Spelled := by
  rw [opcodeTable_eq]
  simp only [List.forall_mem_cons]
  exact ⟨rowDI_spelled .put64, rowDI_spelled .put32, rowAI_spelled .get64, rowAI_spelled .get32, rowR2_spelled .mov,
    rowR3_spelled .and, rowR3_spelled .or, rowR3_spelled .xor, rowRI_spelled .shl, rowRI_spelled .shr,
    rowL3I_spelled .laddc, rowL3I_spelled .lsubb, rowL3_spelled .lmulw, rowR3_spelled .add, rowR3_spelled .sub,
    rowR2_spelled .neg, rowR3_spelled .mul, rowR2_spelled .square, rowR3_spelled .div, rowR2_spelled .sqrt,
    rowR3_spelled .lt, rowR3_spelled .gt, rowR3_spelled .le, rowR3_spelled .ge, rowR3_spelled .eq, rowR3_spelled .ne,
    rowR3_spelled .ltu, rowR3_spelled .gtu, rowR3_spelled .leu, rowR3_spelled .geu, rowR2_spelled .fromint,
    rowSO_spelled .tostr fun _ _ _ h => ⟨h, rfl, rfl⟩, rowSI_spelled .fromstr fun _ _ _ _ h => ⟨h, rfl, rfl⟩,
    rowR2_spelled .todbl, rowR2_spelled .fromdbl, rowCsrr_spelled, rowCsrw_spelled, rowText_spelled .tld,
    rowText_spelled .tst, nofun⟩

/-- The row of a command accepts its word (the family EncodingFitsRow, for every command). -/
theorem encodingFitsRow (i : Instr) : Laws.EncodingFitsRow.Statement i := by
  cases i with
  | put64 rd limb => exact Laws.EncodingFitsRow.put64 rd limb
  | put32 rd slice => exact Laws.EncodingFitsRow.put32 rd slice
  | get64 ra limb => exact Laws.EncodingFitsRow.get64 ra limb
  | get32 ra slice => exact Laws.EncodingFitsRow.get32 ra slice
  | mov w rd ra => exact Laws.EncodingFitsRow.mov w rd ra
  | and w rd ra rb => exact Laws.EncodingFitsRow.and w rd ra rb
  | or w rd ra rb => exact Laws.EncodingFitsRow.or w rd ra rb
  | xor w rd ra rb => exact Laws.EncodingFitsRow.xor w rd ra rb
  | shl w rd ra count => exact Laws.EncodingFitsRow.shl w rd ra count
  | shr w rd ra count => exact Laws.EncodingFitsRow.shr w rd ra count
  | laddc rd ra rb cin => exact Laws.EncodingFitsRow.laddc rd ra rb cin
  | lsubb rd ra rb bin => exact Laws.EncodingFitsRow.lsubb rd ra rb bin
  | lmulw rd ra rb => exact Laws.EncodingFitsRow.lmulw rd ra rb
  | add w rd ra rb => exact Laws.EncodingFitsRow.add w rd ra rb
  | sub w rd ra rb => exact Laws.EncodingFitsRow.sub w rd ra rb
  | neg w rd ra => exact Laws.EncodingFitsRow.neg w rd ra
  | mul w rd ra rb => exact Laws.EncodingFitsRow.mul w rd ra rb
  | square w rd ra => exact Laws.EncodingFitsRow.square w rd ra
  | div w rd ra rb => exact Laws.EncodingFitsRow.div w rd ra rb
  | sqrt w rd ra => exact Laws.EncodingFitsRow.sqrt w rd ra
  | lt w rd ra rb => exact Laws.EncodingFitsRow.lt w rd ra rb
  | gt w rd ra rb => exact Laws.EncodingFitsRow.gt w rd ra rb
  | le w rd ra rb => exact Laws.EncodingFitsRow.le w rd ra rb
  | ge w rd ra rb => exact Laws.EncodingFitsRow.ge w rd ra rb
  | eq w rd ra rb => exact Laws.EncodingFitsRow.eq w rd ra rb
  | ne w rd ra rb => exact Laws.EncodingFitsRow.ne w rd ra rb
  | ltu w rd ra rb => exact Laws.EncodingFitsRow.ltu w rd ra rb
  | gtu w rd ra rb => exact Laws.EncodingFitsRow.gtu w rd ra rb
  | leu w rd ra rb => exact Laws.EncodingFitsRow.leu w rd ra rb
  | geu w rd ra rb => exact Laws.EncodingFitsRow.geu w rd ra rb
  | fromint w rd ra => exact Laws.EncodingFitsRow.fromint w rd ra
  | tostr w ra base => exact Laws.EncodingFitsRow.tostr w ra base
  | fromstr w rd base e => exact Laws.EncodingFitsRow.fromstr w rd base e
  | todbl w rd ra => exact Laws.EncodingFitsRow.todbl w rd ra
  | fromdbl w rd ra => exact Laws.EncodingFitsRow.fromdbl w rd ra
  | csrr csr => exact Laws.EncodingFitsRow.csrr csr
  | csrw csr => exact Laws.EncodingFitsRow.csrw csr
  | tld addr => exact Laws.EncodingFitsRow.tld addr
  | tst addr => exact Laws.EncodingFitsRow.tst addr

theorem mnemonics_nodup : (opcodeTable.map OpRow.mnemonic).Nodup := by decide

theorem row_eq_of_mnemonic_eq {r r' : OpRow} (hr : r ∈ opcodeTable) (hr' : r' ∈ opcodeTable) (h : r.mnemonic = r'.mnemonic) :
    r = r' := List.inj_on_of_nodup_map mnemonics_nodup hr hr' h

/-- A row accepts the words of the commands that carry its mnemonic, and no other word. -/
theorem accepts_iff_decode {r : OpRow} (hr : r ∈ opcodeTable) (w : CmdWord) :
    r.accepts w = true ↔ ∃ i, decode w = .ok i ∧ i.mnemonic = r.mnemonic := by
  constructor
  · intro h
    rw [← packWord_fieldsOf w] at h
    obtain ⟨i, hwf, hfields, hname⟩ := spelled_of_mem_opcodeTable r hr _ h
    exact ⟨i, decode_eq_ok_iff.2 ⟨hwf, by rw [encode, hfields, packWord_fieldsOf]⟩, hname⟩
  · rintro ⟨i, hdecode, hname⟩
    obtain ⟨hwf, rfl⟩ := decode_eq_ok_iff.1 hdecode
    obtain ⟨r', hr', hname', haccepts⟩ := encodingFitsRow i hwf
    rwa [row_eq_of_mnemonic_eq hr hr' (hname.symm.trans hname'.symm)]

/-- Settles O3: the rows that accept a word are those with the mnemonic of the command decoded, and no two rows share one. -/
theorem decoderAgreesWithTheOpcodeTable : Obligations.DecoderAgreesWithTheOpcodeTable := by
  intro w
  cases h : decode w with
  | error e =>
    have hnone : ∀ r ∈ opcodeTable, ¬ r.accepts w = true := fun r hr haccepts => by
      obtain ⟨i, hi, -⟩ := (accepts_iff_decode hr w).1 haccepts
      cases h.symm.trans hi
    rw [List.filter_eq_nil_iff.2 hnone]
    rfl
  | ok i =>
    obtain ⟨hwf, rfl⟩ := decode_eq_ok_iff.1 h
    obtain ⟨r, hr, hname, -⟩ := encodingFitsRow i hwf
    have hrows : ∀ r ∈ opcodeTable, r.accepts (encode i) = (r.mnemonic == i.mnemonic) := fun r hr => by
      rw [Bool.eq_iff_iff, accepts_iff_decode hr, h, beq_iff_eq]
      simp [eq_comm]
    rw [List.filter_congr hrows, ← Function.comp_def (· == i.mnemonic), ← List.filter_map, List.filter_beq,
      List.count_eq_one_of_mem mnemonics_nodup (hname ▸ List.mem_map_of_mem hr)]
    rfl

end Sys2Proof
end

section
/-! PROOFS. What the unit does with a word (30_encoding.md R70, 60_exceptions.md R264, 70_reset_and_hazards.md R296): the command it
decodes to is executed, and IllegalCommand is answered to refused words and to CSRW of TLEN out of range only. -/

namespace Sys2Proof.Machine

/-! The step on a transaction: the word decodes, or IllegalCommand is raised. -/

section
variable {s : State} {cmd : CmdWord} {din : Limb} {rest : List HostEvent}

theorem step_of_decode_ok {i : Instr} (hport : s.port = .command cmd din :: rest) (h : decode cmd = .ok i) :
    step s = exec i (acceptCommand s rest din) := by
  simp only [step, hport, h]

theorem step_of_decode_error {reason : IllegalReason} (hport : s.port = .command cmd din :: rest)
    (h : decode cmd = .error reason) : step s = raise (acceptCommand s rest din) .illegalCommand := by
  simp only [step, hport, h]

end

/-- Settles O5: accepting the transaction is taking it off the port and its data word to `din`. -/
theorem stepRunsTheDecodedCommand : Obligations.StepRunsTheDecodedCommand :=
  fun _ _ _ _ _ hport h => step_of_decode_ok hport h

/-! Which commands are answered IllegalCommand. -/

/-- The response carries error code 4, IllegalCommand (60_exceptions.md R260). -/
def AnswersIllegal (t : State) : Prop := ∃ d, t.response = some ⟨d, 4⟩

/-- The outcome is not a state in which IllegalCommand is answered. -/
def NotIllegal (r : Result) : Prop := ∀ t, r = .next t → ¬ AnswersIllegal t

theorem notIllegal_complete (s : State) (d : Limb) : NotIllegal (complete s d) := by
  rintro t ⟨⟩ ⟨d', h⟩
  cases h

theorem notIllegal_raise (s : State) {e : UnitError} (he : e ≠ .illegalCommand) : NotIllegal (raise s e) := by
  rintro t ⟨⟩ ⟨d', h⟩
  cases e <;> cases h
  exact he rfl

theorem notIllegal_fault (f : Fault) : NotIllegal (.fault f) := nofun

theorem notIllegal_ite {c : Prop} [Decidable c] {p q : Result} (hp : NotIllegal p) (hq : NotIllegal q) :
    NotIllegal (if c then p else q) := by
  split
  · exact hp
  · exact hq

theorem answersIllegal_of_raise {s t : State} (ht : raise s .illegalCommand = .next t) : AnswersIllegal t := by
  cases ht
  exact ⟨0, rfl⟩

theorem execTostr_notIllegal {w : Width} {ra : VReg} {base : BitVec 6} (s : State) (h : baseLegal base = true) :
    NotIllegal (execTostr w ra base s) := by
  simp only [execTostr, if_pos h]
  split
  · exact notIllegal_fault _
  · exact notIllegal_complete _ _

theorem execFromstr_notIllegal {w : Width} {rd : VReg} {base : BitVec 6} {e : Bool} (s : State)
    (h : baseLegal base = true) : NotIllegal (execFromstr w rd base e s) := by
  simp only [execFromstr, if_pos h]
  split
  · exact notIllegal_fault _
  · split
    · exact notIllegal_raise s nofun
    · exact notIllegal_complete _ _

/-- A well-formed command other than CSRW to TLEN is never answered IllegalCommand (60_exceptions.md R264). -/
theorem exec_notIllegal {i : Instr} (s : State) (hwf : i.wellFormed = true) (htlen : i ≠ .csrw .tlen) :
    NotIllegal (exec i s) := by
  cases i with
  | div | sqrt | fromdbl => exact notIllegal_ite (notIllegal_raise s nofun) (notIllegal_complete _ _)
  | tostr => exact execTostr_notIllegal s hwf
  | fromstr => exact execFromstr_notIllegal s hwf
  | csrw csr =>
    cases csr with
    | status => exact notIllegal_complete _ _
    | tlen => exact absurd rfl htlen
    | epos | tcons => cases hwf
  | put64 | put32 | get64 | get32 | mov | and | or | xor | shl | shr | laddc | lsubb | lmulw | add | sub | neg | mul | square
  | lt | gt | le | ge | eq | ne | ltu | gtu | leu | geu | fromint | todbl | csrr | tld | tst =>
    exact notIllegal_complete _ _

/-- CSRW to TLEN is answered IllegalCommand when its data word is above 512 (46_system.md R243). -/
theorem execCsrw_tlen_answersIllegal_iff {s t : State} (ht : exec (.csrw .tlen) s = .next t) :
    AnswersIllegal t ↔ 512 < s.din.toNat := by
  have hexec : exec (.csrw .tlen) s =
      if s.din.toNat ≤ 512 then complete (setTlen s s.din.toNat) 0 else raise s .illegalCommand := rfl
  rw [hexec] at ht
  split at ht
  · rename_i hle
    exact iff_of_false (notIllegal_complete _ _ t ht) (Nat.not_lt.2 hle)
  · rename_i hgt
    exact iff_of_true (answersIllegal_of_raise ht) (Nat.not_le.1 hgt)

/-- A command that no legal word spells does nothing but raise IllegalCommand. -/
theorem exec_of_not_wellFormed {i : Instr} (s : State) (h : i.wellFormed = false) : exec i s = raise s .illegalCommand := by
  cases i with
  | tostr w ra base => exact if_neg (ne_true_of_eq_false h)
  | fromstr w rd base e => exact if_neg (ne_true_of_eq_false h)
  | csrw csr =>
    cases csr with
    | epos | tcons => rfl
    | status | tlen => cases h
  | _ => cases h

/-- Settles O7: the only outcome of such a command is the error entry of IllegalCommand. -/
theorem illFormedCommandRaisesIllegalCommand : Obligations.IllFormedCommandRaisesIllegalCommand := by
  intro i s h
  rw [RaisesError, exec_of_not_wellFormed s h]
  exact raise_spec s .illegalCommand

/-- Every word is the word of exactly one well-formed command and decodes to it, or of none and is refused. -/
theorem one_command_or_illegal (w : CmdWord) :
    (∃ i : Instr, i.wellFormed = true ∧ encode i = w ∧ decode w = .ok i
        ∧ ∀ j : Instr, j.wellFormed = true → encode j = w → j = i)
      ∨ ((∀ i : Instr, i.wellFormed = true → encode i ≠ w) ∧ ∃ e, decode w = .error e) := by
  cases h : decode w with
  | ok i =>
    obtain ⟨hwf, hencode⟩ := decode_eq_ok_iff.1 h
    refine .inl ⟨i, hwf, hencode, rfl, fun j hj hjw => ?_⟩
    exact Except.ok.inj ((decode_eq_ok_iff.2 ⟨hj, hjw⟩).symm.trans h)
  | error e =>
    refine .inr ⟨fun i hi hiw => ?_, e, rfl⟩
    cases (decode_eq_ok_iff.2 ⟨hi, hiw⟩).symm.trans h

theorem decode_eq_csrw_tlen_iff {w : CmdWord} : decode w = .ok (.csrw .tlen) ↔ w = 0xC4000002 := by
  have hword : encode (.csrw .tlen) = 0xC4000002 := by decide
  rw [decode_eq_ok_iff, hword, eq_comm (a := w)]
  exact and_iff_right rfl

/-- A transaction is answered IllegalCommand when its word is refused, or is CSRW to TLEN with a data word above 512. -/
theorem step_answersIllegal_iff {s t : State} {w : CmdWord} {din : Limb} {rest : List HostEvent}
    (hport : s.port = .command w din :: rest) (ht : step s = .next t) :
    AnswersIllegal t ↔ (∃ e, decode w = .error e) ∨ (w = 0xC4000002 ∧ 512 < din.toNat) := by
  rw [← decode_eq_csrw_tlen_iff]
  cases h : decode w with
  | error e =>
    rw [step_of_decode_error hport h] at ht
    exact iff_of_true (answersIllegal_of_raise ht) (.inl ⟨e, rfl⟩)
  | ok i =>
    rw [step_of_decode_ok hport h] at ht
    by_cases htlen : i = .csrw .tlen
    · subst htlen
      simpa using execCsrw_tlen_answersIllegal_iff ht
    · obtain ⟨hwf, -⟩ := decode_eq_ok_iff.1 h
      simpa [htlen] using exec_notIllegal _ hwf htlen t ht

/-- Settles O2: the decoder and the encoder are inverse, and no command but CSRW to TLEN looks further than its word. -/
theorem everyWordIsOneCommandOrIllegal : Obligations.EveryWordIsOneCommandOrIllegal :=
  fun w => ⟨one_command_or_illegal w, fun _ _ _ _ hport ht => step_answersIllegal_iff hport ht⟩

end Sys2Proof.Machine
end

section
/-! PROOFS. The limb-vector commands (40_limb_vector.md): slices put and got, MOV, the bitwise commands and the shifts bit by bit,
and the limb cells with the three commands that run one cell. -/

namespace Sys2Proof.Machine

/-! Slices (R101 to R104). -/

/-- A command that replaces one slice of its register and completes. -/
theorem complete_withSlice_spec {len : Nat} (s : State) (rd : VReg) (lo : Nat) (d : BitVec len) :
    ∃ t, complete (writeV s rd (withSlice (readV s rd) lo d)) 0 = .next t ∧ WritesOnly rd s t ∧ Answers t 0 ∧
      ∀ j < 256, (readV t rd).getLsbD j =
        if lo ≤ j ∧ j < lo + len then d.getLsbD (j - lo) else (readV s rd).getLsbD j := by
  obtain ⟨t, ht, hv, hw, ha⟩ := complete_writeV s rd (withSlice (readV s rd) lo d)
  refine ⟨t, ht, hw, ha, fun j hj => ?_⟩
  rw [hv, getLsbD_withSlice _ _ _ _ hj]

/-- Settles O19: both commands replace one slice, and the low 32 bits of the data word are its own bits. -/
theorem putWritesItsSliceOnly : Obligations.PutWritesItsSliceOnly := by
  refine fun s rd => ⟨fun k => complete_withSlice_spec s rd (64 * k.val) s.din, fun k => ?_⟩
  obtain ⟨t, ht, hw, ha, hbits⟩ := complete_withSlice_spec s rd (32 * k.val) (s.din.setWidth 32)
  refine ⟨t, ht, hw, ha, fun j hj => ?_⟩
  rw [hbits j hj]
  refine if_ctx_congr Iff.rfl (fun hin => ?_) fun _ => rfl
  have hlow : j - 32 * k.val < 32 := by omega
  rw [BitVec.getLsbD_setWidth, decide_eq_true hlow, Bool.true_and]

/-- A command that only answers. -/
theorem complete_spec (s : State) (d : Limb) : ∃ t, complete s d = .next t ∧ WritesNothing s t ∧ Answers t d :=
  ⟨_, rfl, ⟨fun _ => rfl, fun _ => rfl, ⟨rfl, rfl, rfl⟩, ⟨rfl, rfl⟩, rfl, rfl⟩, rfl⟩

/-- Settles O20: each answer is its slice as a number, and 32 bits extended by zeros keep their number. -/
theorem getReadsItsSlice : Obligations.GetReadsItsSlice := by
  intro s ra
  constructor
  · intro k
    obtain ⟨t, ht, hw, ha⟩ := complete_spec s (readLimb s ra k.val)
    exact ⟨t, _, ht, hw, ha, readLimb_toNat s ra k.val⟩
  · intro k
    obtain ⟨t, ht, hw, ha⟩ := complete_spec s ((slice32Of (readV s ra) k.val).setWidth 64)
    refine ⟨t, _, ht, hw, ha, ?_⟩
    rw [BitVec.toNat_setWidth_of_le (by decide), slice32Of, slice_toNat]

/-! Patterns (R105 to R110): a pattern is the low `B` bits of its register, and what is written at width `B` has zeros above. -/

/-- Settles O22: the pattern read is below `2^B`, so it is written whole. -/
theorem movCopiesAtItsWidth : Obligations.MovCopiesAtItsWidth := by
  intro s w rd ra
  obtain ⟨t, ht, hv, hw⟩ := completeW_spec s w rd (readW s w ra)
  exact ⟨t, ht, hv.trans (Nat.mod_eq_of_lt (readW_lt s w ra)), hw⟩

theorem testBit_readW (s : State) (w : Width) (r : VReg) (j : Nat) :
    (readW s w r).testBit j = (decide (j < bits w) && (readV s r).getLsbD j) := by
  rw [readW, Nat.testBit_mod_two_pow, BitVec.testBit_toNat]

/-- A command that gives a pattern of width `w`, bit by bit. -/
theorem completeW_bits {s : State} {w : Width} {rd : VReg} {n : Nat} {p : Nat → Bool}
    (h : ∀ j, (decide (j < bits w) && n.testBit j) = p j) :
    ∃ t, completeW s w rd n = .next t ∧ WritesOnly rd s t ∧ Answers t 0 ∧ ∀ j, (readV t rd).getLsbD j = p j := by
  obtain ⟨t, ht, hv, hw, ha⟩ := completeW_spec s w rd n
  refine ⟨t, ht, hw, ha, fun j => ?_⟩
  rw [← h, ← BitVec.testBit_toNat, hv, Nat.testBit_mod_two_pow]

/-- An operation on patterns that is `f` on each bit is `f` on the bits of the registers, below `B`. -/
theorem completeW_bitwise {s : State} {w : Width} {rd ra rb : VReg} {n : Nat} {f : Bool → Bool → Bool}
    (h : ∀ j, n.testBit j = f ((readW s w ra).testBit j) ((readW s w rb).testBit j)) :
    ∃ t, completeW s w rd n = .next t ∧ WritesOnly rd s t ∧ Answers t 0 ∧
      ∀ j, (readV t rd).getLsbD j = (decide (j < bits w) && f ((readV s ra).getLsbD j) ((readV s rb).getLsbD j)) := by
  refine completeW_bits fun j => ?_
  rw [h, testBit_readW, testBit_readW]
  cases decide (j < bits w) <;> rfl

/-- Settles O23: the three operations on numbers act on each bit. -/
theorem bitwiseCommandsWorkBitByBit : Obligations.BitwiseCommandsWorkBitByBit := by
  rintro s w rd ra rb i f (⟨rfl, rfl⟩ | ⟨rfl, rfl⟩ | ⟨rfl, rfl⟩)
  case inl => exact completeW_bitwise fun _ => Nat.testBit_and ..
  case inr.inl => exact completeW_bitwise fun _ => Nat.testBit_or ..
  case inr.inr => exact completeW_bitwise fun _ => Nat.testBit_xor ..

/-- Settles O24: bit `j` of the result comes from bit `j - n` (SHL) or `j + n` (SHR) of the pattern, which reads as zero from
bit `B` on. -/
theorem shiftsSpanLimbBoundaries : Obligations.ShiftsSpanLimbBoundaries := by
  intro s w rd ra n
  refine ⟨completeW_bits fun j => ?_, completeW_bits fun j => ?_⟩
  · rw [Nat.testBit_shiftLeft, testBit_readW]
    by_cases hj : j < bits w
    · have hsource : j - n.toNat < bits w := by omega
      simp [hj, hsource]
    · simp [hj]
  · rw [Nat.testBit_shiftRight, testBit_readW, Nat.add_comm n.toNat j]
    by_cases hsource : j + n.toNat < bits w
    · have hj : j < bits w := by omega
      simp [hj, hsource]
    · simp [hsource]

/-! The limb cells (R114 to R116), as equations of natural numbers. -/

theorem addc_exact (x y : Limb) (c : Bool) :
    (addc x y c).2.toNat * 2 ^ 64 + (addc x y c).1.toNat = x.toNat + y.toNat + c.toNat := by
  have hx := x.isLt
  have hy := y.isLt
  have hc := c.toNat_le
  have hcarry : (addc x y c).2.toNat = (x.toNat + y.toNat + c.toNat) / 2 ^ 64 := by
    simp only [addc, Nat.shiftRight_eq_div_pow]
    cases hq : (x.toNat + y.toNat + c.toNat) / 2 ^ 64 == 1
    case false =>
      have := beq_eq_false_iff_ne.1 hq
      rw [Bool.toNat_false]
      omega
    case true => exact (beq_iff_eq.1 hq).symm
  rw [hcarry, addc, BitVec.toNat_ofNat]
  omega

theorem subb_borrow_iff (x y : Limb) (b : Bool) : (subb x y b).2 = true ↔ x.toNat < y.toNat + b.toNat :=
  decide_eq_true_iff

theorem subb_borrow_toNat (x y : Limb) (b : Bool) :
    (subb x y b).2.toNat = if x.toNat < y.toNat + b.toNat then 1 else 0 := Bool.cond_decide ..

theorem subb_toNat (x y : Limb) (b : Bool) :
    (subb x y b).1.toNat =
      if x.toNat < y.toNat + b.toNat then 2 ^ 64 + x.toNat - (y.toNat + b.toNat) else x.toNat - (y.toNat + b.toNat) := by
  have hx := x.isLt
  have hy := y.isLt
  have hb := b.toNat_le
  rw [subb, BitVec.toNat_ofInt]
  split <;> omega

theorem subb_exact (x y : Limb) (b : Bool) :
    (x.toNat : Int) - y.toNat - b.toNat = (subb x y b).1.toNat - (subb x y b).2.toNat * 2 ^ 64 := by
  have hy := y.isLt
  have hb := b.toNat_le
  rw [subb_borrow_toNat, subb_toNat]
  split <;> omega

theorem mulw_exact (x y : Limb) : (mulw x y).1.toNat * 2 ^ 64 + (mulw x y).2.toNat = x.toNat * y.toNat := by
  have hhigh : x.toNat * y.toNat / 2 ^ 64 < 2 ^ 64 := Nat.div_lt_of_lt_mul (Nat.mul_lt_mul'' x.isLt y.isLt)
  rw [mulw, BitVec.toNat_ofNat, BitVec.toNat_ofNat, Nat.shiftRight_eq_div_pow, Nat.mod_eq_of_lt hhigh]
  exact Nat.div_add_mod' _ _

/-- Settles O25: the three cells by their equations. -/
theorem limbCellsAreExact : Obligations.LimbCellsAreExact := fun x y c =>
  ⟨(Nat.add_comm _ _).trans (addc_exact x y c), subb_exact x y c, subb_borrow_iff x y c, mulw_exact x y⟩

/-! The commands that run one cell (R111 to R113). -/

theorem readLimb_zero_toNat (s : State) (r : VReg) : (readLimb s r 0).toNat = (readV s r).toNat % 2 ^ 64 := by
  rw [readLimb_toNat, Nat.mul_zero, Nat.pow_zero, Nat.div_one]

/-- A command that gives a limb with a flag in limb 1 and completes. -/
theorem completePair_flag_spec (s : State) (rd : VReg) (flag : Bool) (lo : Limb) :
    ∃ t, completePair s rd ((BitVec.ofBool flag).setWidth 64) lo = .next t
      ∧ (readV t rd).toNat = flag.toNat * 2 ^ 64 + lo.toNat ∧ WritesOnly rd s t ∧ Answers t 0 := by
  obtain ⟨t, ht, hv, hw⟩ := completePair_spec s rd ((BitVec.ofBool flag).setWidth 64) lo
  have hflag : ((BitVec.ofBool flag).setWidth 64).toNat = flag.toNat := by cases flag <;> rfl
  exact ⟨t, ht, hflag ▸ hv, hw⟩

/-- Settles O26: limbs 1 and 0 are the carry and the sum of the cell. -/
theorem laddcDeliversSumAndCarry : Obligations.LaddcDeliversSumAndCarry := by
  intro s rd ra rb c
  obtain ⟨t, ht, hv, hw⟩ := completePair_flag_spec s rd (addc (readLimb s ra 0) (readLimb s rb 0) c).2
    (addc (readLimb s ra 0) (readLimb s rb 0) c).1
  refine ⟨t, ht, ?_, hw⟩
  rw [hv, addc_exact, readLimb_zero_toNat, readLimb_zero_toNat]

/-- Settles O27: limbs 1 and 0 are the borrow and the difference of the cell. -/
theorem lsubbDeliversDifferenceAndBorrow : Obligations.LsubbDeliversDifferenceAndBorrow := by
  intro s rd ra rb b x y hx hy
  rw [← readLimb_zero_toNat] at hx hy
  obtain ⟨t, ht, hv, hw⟩ := completePair_flag_spec s rd (subb (readLimb s ra 0) (readLimb s rb 0) b).2
    (subb (readLimb s ra 0) (readLimb s rb 0) b).1
  refine ⟨t, ht, ?_, hw⟩
  rw [hv, subb_borrow_toNat, subb_toNat, hx, hy]
  split <;> omega

/-- Settles O28: limbs 1 and 0 are the two halves of the product. -/
theorem lmulwDeliversTheProduct : Obligations.LmulwDeliversTheProduct := by
  intro s rd ra rb
  obtain ⟨t, ht, hv, hw⟩ := completePair_spec s rd (mulw (readLimb s ra 0) (readLimb s rb 0)).1
    (mulw (readLimb s ra 0) (readLimb s rb 0)).2
  refine ⟨t, ht, ?_, hw⟩
  rw [hv, mulw_exact, readLimb_zero_toNat, readLimb_zero_toNat]

end Sys2Proof.Machine
end

section
/-! PROOFS. The fixed-point arithmetic commands (41_arithmetic.md). First patterns as limbs, the two ripples and the widening
product; then signs, magnitudes and rounding; then ADD, SUB, NEG, MUL, SQUARE and DIV. -/

namespace Sys2Proof.Machine

/-! A pattern and its limbs (00_scope.md R8). -/

/-- What a carry chain keeps: the lowest limb is settled, the rest is a number of one limb less. -/
theorem add_mul_mod_pow_succ {b lo : Nat} (h : lo < b) (hi n : Nat) : (lo + b * hi) % b ^ (n + 1) = lo + b * (hi % b ^ n) := by
  rw [Nat.pow_succ', Nat.mod_mul, Nat.add_mul_mod_self_left, Nat.mod_eq_of_lt h, Nat.add_mul_div_left _ _ (by omega),
    Nat.div_eq_of_lt h, Nat.zero_add]

/-- The same for a difference, which may be negative. -/
theorem add_mul_emod_pow_succ {b lo : Int} (h0 : 0 ≤ lo) (h : lo < b) (hi : Int) (n : Nat) :
    (lo + b * hi) % b ^ (n + 1) = lo + b * (hi % b ^ n) := by
  have hb : 0 < b := h0.trans_lt h
  have hr0 := Int.emod_nonneg hi (pow_pos hb n).ne'
  have hr := Int.emod_lt_of_pos hi (pow_pos hb n)
  have hsplit : lo + b * hi = lo + b * (hi % b ^ n) + b ^ (n + 1) * (hi / b ^ n) := by
    linear_combination -b * Int.emod_add_mul_ediv hi (b ^ n)
  have hfits : lo + b * (hi % b ^ n) < b ^ (n + 1) := by
    rw [pow_succ']
    nlinarith
  rw [hsplit, Int.add_mul_emod_self_left, Int.emod_eq_of_lt (by positivity) hfits]

theorem bits_eq_mul_limbCount (w : Width) : bits w = 64 * limbCount w := by cases w <;> rfl

theorem two_pow_bits (w : Width) : 2 ^ bits w = (2 ^ 64) ^ limbCount w := by rw [bits_eq_mul_limbCount, pow_mul]

theorem limbAt_toNat (p i : Nat) : (limbAt p i).toNat = p / (2 ^ 64) ^ i % 2 ^ 64 := by
  rw [limbAt, BitVec.toNat_ofNat, Nat.shiftRight_eq_div_pow, pow_mul]

theorem sum_limbAt (p n : Nat) : ∑ i ∈ Finset.range n, (limbAt p i).toNat * (2 ^ 64) ^ i = p % (2 ^ 64) ^ n := by
  induction n with
  | zero => rw [Finset.sum_range_zero, pow_zero, Nat.mod_one]
  | succ n ih => rw [Finset.sum_range_succ, ih, limbAt_toNat, Nat.mod_pow_succ (b := 2 ^ 64), Nat.mul_comm (_ / _ % _)]

theorem ofLimbs_map_range (f : Nat → Limb) (n : Nat) :
    ofLimbs ((List.range n).map f) = ∑ i ∈ Finset.range n, (f i).toNat * (2 ^ 64) ^ i := by
  induction n generalizing f with
  | zero => rfl
  | succ n ih =>
    rw [List.range_succ_eq_map, List.map_cons, List.map_map, ofLimbs, ih, Finset.sum_range_succ', Finset.mul_sum, pow_zero,
      mul_one, Nat.add_comm]
    refine congrArg (· + _) (Finset.sum_congr rfl fun i _ => ?_)
    rw [Function.comp_apply, pow_succ' (2 ^ 64) i]
    exact Nat.mul_left_comm ..

theorem ofLimbs_limbsOf (n p : Nat) : ofLimbs (limbsOf n p) = p % (2 ^ 64) ^ n := by
  rw [limbsOf, ofLimbs_map_range, sum_limbAt]

theorem ofLimbs_limbsOf_readW (s : State) (w : Width) (r : VReg) :
    ofLimbs (limbsOf (limbCount w) (readW s w r)) = readW s w r := by
  rw [ofLimbs_limbsOf, ← two_pow_bits, Nat.mod_eq_of_lt (readW_lt s w r)]

theorem length_limbsOf (n p : Nat) : (limbsOf n p).length = n := by rw [limbsOf, List.length_map, List.length_range]

/-! The two ripples (R131, R132). -/

theorem ofLimbs_rippleAdd (c : Bool) (xs ys : List Limb) (h : xs.length = ys.length) :
    ofLimbs (rippleAdd c xs ys).1 = (ofLimbs xs + ofLimbs ys + c.toNat) % (2 ^ 64) ^ xs.length := by
  induction xs generalizing ys c with
  | nil =>
    obtain rfl := List.eq_nil_of_length_eq_zero h.symm
    rw [List.length_nil, pow_zero, Nat.mod_one]
    rfl
  | cons x xs ih =>
    obtain _ | ⟨y, ys⟩ := ys
    · cases h
    have hcell := addc_exact x y c
    rw [rippleAdd, ofLimbs, ih _ _ (Nat.succ.inj h), ← add_mul_mod_pow_succ (BitVec.isLt _), ofLimbs, ofLimbs, List.length_cons]
    congr 1
    omega

theorem ofLimbs_rippleSub (b : Bool) (xs ys : List Limb) (h : xs.length = ys.length) :
    (ofLimbs (rippleSub b xs ys).1 : Int) = ((ofLimbs xs : Int) - ofLimbs ys - b.toNat) % (2 ^ 64) ^ xs.length := by
  induction xs generalizing ys b with
  | nil =>
    obtain rfl := List.eq_nil_of_length_eq_zero h.symm
    rw [List.length_nil, pow_zero, Int.emod_one]
    rfl
  | cons x xs ih =>
    obtain _ | ⟨y, ys⟩ := ys
    · cases h
    have hcell := subb_exact x y b
    have hlow := (subb x y b).1.isLt
    rw [rippleSub, ofLimbs, Nat.cast_add, Nat.cast_mul, ih _ _ (Nat.succ.inj h), ofLimbs, ofLimbs, List.length_cons, Nat.cast_pow,
      Nat.cast_ofNat, ← add_mul_emod_pow_succ (Int.natCast_nonneg _) (mod_cast hlow)]
    congr 1
    omega

/-! The widening product (R134): its columns are those of the product of two polynomials in the limb base. -/

/-- A product in base `b` by columns: column `k` takes the digit products whose weights add up to `b^k`. -/
theorem sum_columns (f g : Nat → Nat) (b n : Nat) :
    ∑ k ∈ Finset.range (2 * n), (∑ i ∈ Finset.range n with i ≤ k ∧ k - i < n, f i * g (k - i)) * b ^ k
      = (∑ i ∈ Finset.range n, f i * b ^ i) * ∑ j ∈ Finset.range n, g j * b ^ j := by
  simp_rw [Finset.sum_mul_sum, Finset.sum_mul, Finset.sum_filter]
  rw [Finset.sum_comm]
  refine Finset.sum_congr rfl fun i hi => ?_
  have hi := Finset.mem_range.1 hi
  have hcolumns : (Finset.range (2 * n)).filter (fun k => i ≤ k ∧ k - i < n) = Finset.Ico i (i + n) := by
    ext k
    simp only [Finset.mem_filter, Finset.mem_range, Finset.mem_Ico]
    omega
  rw [← Finset.sum_filter, hcolumns, Finset.sum_Ico_eq_sum_range, Nat.add_sub_cancel_left]
  refine Finset.sum_congr rfl fun j _ => ?_
  rw [Nat.add_sub_cancel_left, pow_add]
  ring

/-- The sum of the partial products of column `k`. -/
def columnSum (n x y k : Nat) : Nat :=
  ∑ i ∈ Finset.range n with i ≤ k ∧ k - i < n, (limbAt x i).toNat * (limbAt y (k - i)).toNat

theorem foldl_addPartial (x y k acc : Nat) (l : List Nat) :
    l.foldl (addPartial x y k) acc = acc + (l.map fun i => (limbAt x i).toNat * (limbAt y (k - i)).toNat).sum := by
  induction l generalizing acc with
  | nil => rfl
  | cons i l ih =>
    rw [List.foldl_cons, ih, List.map_cons, List.sum_cons, addPartial, Nat.add_assoc acc, mulw_exact, Nat.add_assoc]

theorem foldl_addPartial_columnRows (n x y k acc : Nat) :
    (columnRows n k).foldl (addPartial x y k) acc = acc + columnSum n x y k := by
  have hnodup : (columnRows n k).Nodup := List.nodup_range.filter _
  have hrows : (columnRows n k).toFinset = (Finset.range n).filter fun i => i ≤ k ∧ k - i < n := by
    ext i
    simp [columnRows]
  rw [foldl_addPartial, ← List.sum_toFinset _ hnodup, hrows, columnSum]

/-- `m` columns from column `k` on give the `m` lowest limbs of all that is added in them. -/
theorem wideColumns_eq (n x y m k acc : Nat) :
    wideColumns n x y m k acc
      = 2 ^ (64 * k) * ((acc + ∑ j ∈ Finset.range m, columnSum n x y (k + j) * (2 ^ 64) ^ j) % (2 ^ 64) ^ m) := by
  induction m generalizing k acc with
  | zero => rw [pow_zero, Nat.mod_one]; rfl
  | succ m ih =>
    have hsplit : acc + ∑ j ∈ Finset.range (m + 1), columnSum n x y (k + j) * (2 ^ 64) ^ j
        = (acc + columnSum n x y k) % 2 ^ 64 + 2 ^ 64 * ((acc + columnSum n x y k) / 2 ^ 64
          + ∑ j ∈ Finset.range m, columnSum n x y (k + 1 + j) * (2 ^ 64) ^ j) := by
      have hdiv := Nat.mod_add_div (acc + columnSum n x y k) (2 ^ 64)
      have hrest : ∑ j ∈ Finset.range m, columnSum n x y (k + (j + 1)) * (2 ^ 64) ^ (j + 1)
          = 2 ^ 64 * ∑ j ∈ Finset.range m, columnSum n x y (k + 1 + j) * (2 ^ 64) ^ j := by
        rw [Finset.mul_sum]
        refine Finset.sum_congr rfl fun j _ => ?_
        rw [Nat.add_assoc k, Nat.add_comm 1 j, pow_succ' (2 ^ 64) j]
        exact Nat.mul_left_comm ..
      rw [Finset.sum_range_succ', hrest, Nat.add_zero k, pow_zero, mul_one]
      omega
    rw [wideColumns, foldl_addPartial_columnRows, ih, hsplit, add_mul_mod_pow_succ (Nat.mod_lt _ (Nat.two_pow_pos _)),
      Nat.shiftRight_eq_div_pow, Nat.mul_succ, pow_add]
    ring

theorem wideProd_eq_mul {n x y : Nat} (hx : x < (2 ^ 64) ^ n) (hy : y < (2 ^ 64) ^ n) : wideProd n x y = x * y := by
  have hfits : x * y < (2 ^ 64) ^ (2 * n) := by
    rw [Nat.two_mul, pow_add]
    exact Nat.mul_lt_mul'' hx hy
  have hcolumns : ∑ k ∈ Finset.range (2 * n), columnSum n x y k * (2 ^ 64) ^ k = x * y := by
    refine (sum_columns (fun i => (limbAt x i).toNat) (fun j => (limbAt y j).toNat) (2 ^ 64) n).trans ?_
    rw [sum_limbAt, sum_limbAt, Nat.mod_eq_of_lt hx, Nat.mod_eq_of_lt hy]
  rw [wideProd, wideColumns_eq, Nat.mul_zero, pow_zero, one_mul]
  simp only [Nat.zero_add, hcolumns, Nat.mod_eq_of_lt hfits]

/-- Settles O32: the columns add up to the product, which the `2N` output limbs hold whole. -/
theorem wideProductIsExact : Obligations.WideProductIsExact := by
  intro w x y hx hy
  have hprod : wideProd (limbCount w) x y = x * y := wideProd_eq_mul (two_pow_bits w ▸ hx) (two_pow_bits w ▸ hy)
  refine ⟨hprod, ?_⟩
  rw [hprod, Nat.two_mul, pow_add]
  exact Nat.mul_lt_mul'' hx hy

/-! Signs, magnitudes and rounding (00_scope.md R9, 41_arithmetic.md R138). -/

theorem bits_pos (w : Width) : 0 < bits w := by cases w <;> decide

theorem bits_eq_fracBits_add_intBits (w : Width) : bits w = fracBits w + intBits w := by cases w <;> rfl

theorem fracBits_pos (w : Width) : 0 < fracBits w := by cases w <;> decide

theorem intBits_pos (w : Width) : 0 < intBits w := by cases w <;> decide

theorem two_pow_eq_two_mul {n : Nat} (h : 0 < n) : 2 ^ n = 2 * 2 ^ (n - 1) := (mul_pow_sub_one h.ne' 2).symm

theorem negPat_of_pos {B p : Nat} (h : 0 < p) : negPat B p = 2 ^ B - p :=
  Nat.mod_eq_of_lt (Nat.sub_lt (Nat.two_pow_pos B) h)

theorem signBit_iff {B p : Nat} (h : p < 2 ^ B) (hB : 0 < B) : signBit B p = true ↔ 2 ^ (B - 1) ≤ p := by
  rw [signBit_eq B p h hB, decide_eq_true_iff]

theorem mag_lt {B p : Nat} (h : p < 2 ^ B) (hB : 0 < B) : mag B p < 2 ^ B :=
  (mag_le B p h hB).trans_lt (Nat.pow_lt_pow_right (by decide) (Nat.sub_lt hB one_pos))

theorem mag_pos {B p : Nat} (h : p < 2 ^ B) (hp : p ≠ 0) : 0 < mag B p := by
  have hpos := Nat.pos_of_ne_zero hp
  rw [mag]
  split
  · rw [negPat_of_pos hpos]
    omega
  · exact hpos

/-- Complement plus 1 is the two's complement (R133). -/
theorem xor_add_one {B p : Nat} (h : p < 2 ^ B) : ((2 ^ B - 1) ^^^ p) + 1 = 2 ^ B - p := by
  have hcomplement : (2 ^ B - 1) ^^^ p = 2 ^ B - (p + 1) := by
    refine Nat.eq_of_testBit_eq fun i => ?_
    rw [Nat.testBit_xor, Nat.testBit_two_pow_sub_one, Nat.testBit_two_pow_sub_succ h]
    by_cases hi : i < B
    · simp [hi]
    · simp [hi, Nat.testBit_lt_two_pow (h.trans_le (Nat.pow_le_pow_right (by decide) (Nat.le_of_not_lt hi)))]
  omega

/-- The integer of magnitude `n`, negative when `neg`. -/
def signed (neg : Bool) (n : Nat) : Int := if neg then -n else n

theorem signed_mul (neg neg' : Bool) (m n : Nat) : signed neg m * signed neg' n = signed (neg != neg') (m * n) := by
  cases neg <;> cases neg' <;> simp [signed]

theorem signed_mul_natCast (neg : Bool) (m n : Nat) : signed neg m * n = signed neg (m * n) := by
  have h := signed_mul neg false m n
  rwa [Bool.bne_false] at h

theorem abs_signed_sub (neg : Bool) (m n : Nat) : |signed neg m - signed neg n| = |(m : Int) - n| := by
  cases neg
  · rfl
  · rw [abs_sub_comm]
    simp [signed, neg_add_eq_sub]

/-- The two readings of a pattern: the signed one is the magnitude with the sign. -/
theorem sval_eq_signed {B p : Nat} (h : p < 2 ^ B) (hB : 0 < B) : sval B p = signed (signBit B p) (mag B p) := by
  rw [sval, signed, mag]
  split
  case isTrue hs =>
    have hp : 0 < p := (Nat.two_pow_pos _).trans_le ((signBit_iff h hB).1 hs)
    rw [negPat_of_pos hp, Nat.cast_sub h.le]
    push_cast
    ring
  case isFalse => rfl

/-- A magnitude that fits keeps its value when it takes its sign; `2^(B-1)` fits a negative number only. -/
theorem sval_withSign {B r : Nat} (hB : 0 < B) {neg : Bool} (h : r < 2 ^ (B - 1) + neg.toNat) :
    sval B (withSign B neg r) = signed neg r := by
  have hhalf := two_pow_eq_two_mul hB
  have hpos := Nat.two_pow_pos (B - 1)
  cases neg with
  | false =>
    rw [Bool.toNat_false] at h
    have hs : ¬ signBit B r = true := by
      rw [signBit_iff (by omega) hB]
      omega
    rw [withSign, if_neg Bool.false_ne_true, sval, if_neg hs]
    rfl
  | true =>
    rw [Bool.toNat_true] at h
    rw [withSign, if_pos rfl]
    obtain rfl | hr := Nat.eq_zero_or_pos r
    · simp [negPat, sval, signBit, signed]
    have hs : signBit B (2 ^ B - r) = true := by
      rw [signBit_iff (by omega) hB]
      omega
    rw [negPat_of_pos hr, sval, if_pos hs, Nat.cast_sub (by omega), signed, if_pos rfl]
    push_cast
    ring

/-- A magnitude that fits is a pattern. -/
theorem lt_two_pow_of_lt_half {B r : Nat} (hB : 0 < B) {neg : Bool} (h : r < 2 ^ (B - 1) + neg.toNat) : r < 2 ^ B := by
  have hdouble := two_pow_eq_two_mul hB
  have hpos := Nat.two_pow_pos (B - 1)
  have hsign := neg.toNat_le
  omega

theorem withSign_bne (B : Nat) (x y : Bool) (r : Nat) : withSign B (x != y) r = if x = y then r else (2 ^ B - r) % 2 ^ B := by
  cases x <;> cases y <;> rfl

/-- Adding the highest bit dropped rounds to the nearest, halves up. -/
theorem div_add_half_bit {n : Nat} (h : 0 < n) (x : Nat) : x / 2 ^ n + x / 2 ^ (n - 1) % 2 = (x + 2 ^ (n - 1)) / 2 ^ n := by
  have hx := Nat.div_add_mod x (2 ^ (n - 1))
  rw [two_pow_eq_two_mul h, Nat.mul_comm 2, ← Nat.div_div_eq_div_mul, ← Nat.div_div_eq_div_mul,
    Nat.add_div_right _ (Nat.two_pow_pos _)]
  omega

/-- A quotient rounded half up is within one half of the exact one. -/
theorem abs_round_sub_le {h : Nat} (hpos : 0 < h) (x : Nat) :
    2 * |(((x + h) / (2 * h) : Nat) : Int) * (2 * h : Nat) - x| ≤ (2 * h : Nat) := by
  have hdiv := Nat.div_add_mod' (x + h) (2 * h)
  have hmod := Nat.mod_lt (x + h) (Nat.mul_pos two_pos hpos)
  generalize hq : (x + h) / (2 * h) * (2 * h) = q at hdiv
  rw [← Nat.cast_mul, hq]
  have hclose : |(q : Int) - x| ≤ h := abs_le.2 ⟨by omega, by omega⟩
  omega

/-- The bit below the quotient says whether the rest is half the divisor or more (R136). -/
theorem two_mul_div_mod_two {n : Nat} (h : 0 < n) (x : Nat) : 2 * x / n % 2 = if 2 * (x % n) ≥ n then 1 else 0 := by
  have hx : 2 * x = 2 * (x % n) + n * (2 * (x / n)) := by
    rw [Nat.mul_left_comm, ← Nat.mul_add, Nat.mod_add_div]
  have hlt := Nat.mod_lt x h
  rw [hx, Nat.add_mul_div_left _ _ h, Nat.add_mul_mod_self_left]
  split
  case isTrue hge => rw [Nat.div_eq_of_lt_le (k := 1) (by omega) (by omega)]
  case isFalse hlow => rw [Nat.div_eq_of_lt (by omega)]

/-! The functions of the commands, on patterns. -/

theorem subPat_eq {B b : Nat} (a : Nat) (h : b ≤ 2 ^ B) : subPat B a b = (2 ^ B + a - b) % 2 ^ B := by
  have hcast : ((2 ^ B + a - b : Nat) : Int) = (a - b) + 2 ^ B * 1 := by
    rw [Nat.cast_sub (by omega)]
    push_cast
    ring
  have hmod : ((a : Int) - b) % 2 ^ B = ((2 ^ B + a - b) % 2 ^ B : Nat) := by
    rw [Int.natCast_mod, hcast, Nat.cast_pow, Nat.cast_ofNat, Int.add_mul_emod_self_left]
  rw [subPat, hmod, Int.toNat_natCast]

theorem mulPat_eq (w : Width) {a b : Nat} (ha : a < 2 ^ bits w) (hb : b < 2 ^ bits w) :
    mulPat w a b = withSign (bits w) (signBit (bits w) a != signBit (bits w) b)
      ((mag (bits w) a * mag (bits w) b / 2 ^ fracBits w + mag (bits w) a * mag (bits w) b / 2 ^ (fracBits w - 1) % 2)
        % 2 ^ bits w) := by
  have hprod := wideProd_eq_mul (two_pow_bits w ▸ mag_lt ha (bits_pos w)) (two_pow_bits w ▸ mag_lt hb (bits_pos w))
  rw [mulPat, hprod, dropBits_eq, if_pos rfl]

theorem mulPat_lt (w : Width) (a b : Nat) : mulPat w a b < 2 ^ bits w :=
  withSign_lt _ _ _ (Nat.mod_lt _ (Nat.two_pow_pos _))

/-- A rounded magnitude that fits keeps its value under its sign, and rounding moved it by at most a half (R138). -/
theorem abs_sval_mulPat_sub_le (w : Width) {a b : Nat} (ha : a < 2 ^ bits w) (hb : b < 2 ^ bits w)
    (hfits : mag (bits w) a * mag (bits w) b + 2 ^ (fracBits w - 1) < 2 ^ (bits w - 1) * 2 ^ fracBits w
      ∨ signBit (bits w) a ≠ signBit (bits w) b
        ∧ mag (bits w) a * mag (bits w) b + 2 ^ (fracBits w - 1) < (2 ^ (bits w - 1) + 1) * 2 ^ fracBits w) :
    2 * |sval (bits w) (mulPat w a b) * 2 ^ fracBits w - sval (bits w) a * sval (bits w) b| ≤ 2 ^ fracBits w := by
  have hB := bits_pos w
  rw [mulPat_eq w ha hb, div_add_half_bit (fracBits_pos w), sval_eq_signed ha hB, sval_eq_signed hb hB, signed_mul]
  generalize mag (bits w) a * mag (bits w) b = m at hfits ⊢
  have hround : (m + 2 ^ (fracBits w - 1)) / 2 ^ fracBits w
      < 2 ^ (bits w - 1) + (signBit (bits w) a != signBit (bits w) b).toNat := by
    rw [Nat.div_lt_iff_lt_mul (Nat.two_pow_pos _)]
    obtain hfits | ⟨hsigns, hfits⟩ := hfits
    · exact hfits.trans_le (Nat.mul_le_mul_right _ (Nat.le_add_right _ _))
    · rwa [bne_iff_ne.2 hsigns]
  have hnear := abs_round_sub_le (Nat.two_pow_pos (fracBits w - 1)) m
  rw [← two_pow_eq_two_mul (fracBits_pos w)] at hnear
  rw [Nat.mod_eq_of_lt (lt_two_pow_of_lt_half hB hround), sval_withSign hB hround, ← Nat.cast_ofNat, ← Nat.cast_pow,
    signed_mul_natCast, abs_signed_sub]
  exact_mod_cast hnear

theorem roundsAt_roundWide (w : Width) : roundsAt Config.roundWide w = decide (w = .fx64) := by cases w <;> rfl

/-- The quotient at scale `2^B`, brought back to scale `2^F` with the bit below it where the format rounds (R136). -/
theorem dropBits_quotient (w : Width) (m : Nat) {n : Nat} (h : 0 < n) :
    dropBits (intBits w) (roundsAt Config.roundWide w) ((m <<< bits w) / n)
      = m * 2 ^ fracBits w / n + if w = .fx64 ∧ 2 * (m * 2 ^ fracBits w % n) ≥ n then 1 else 0 := by
  have hscale (d : Nat) (x : Nat) : x * 2 ^ d / n / 2 ^ d = x / n := by
    rw [Nat.div_div_eq_div_mul, Nat.mul_div_mul_right _ _ (Nat.two_pow_pos d)]
  have hwide : m <<< bits w = m * 2 ^ fracBits w * 2 ^ intBits w := by
    rw [Nat.shiftLeft_eq, bits_eq_fracBits_add_intBits, pow_add, Nat.mul_assoc]
  have hhalf : m * 2 ^ fracBits w * 2 ^ intBits w = 2 * (m * 2 ^ fracBits w) * 2 ^ (intBits w - 1) := by
    rw [two_pow_eq_two_mul (intBits_pos w)]
    ring
  rw [dropBits_eq, roundsAt_roundWide, hwide, hscale, hhalf, hscale, two_mul_div_mod_two h, ite_and]
  simp only [decide_eq_true_eq]

theorem divPat_eq (w : Width) (a : Nat) {b : Nat} (hb : b < 2 ^ bits w) (h : b ≠ 0) :
    divPat Config.roundWide w a b = withSign (bits w) (signBit (bits w) a != signBit (bits w) b)
      ((mag (bits w) a * 2 ^ fracBits w / mag (bits w) b
        + if w = .fx64 ∧ 2 * (mag (bits w) a * 2 ^ fracBits w % mag (bits w) b) ≥ mag (bits w) b then 1 else 0)
        % 2 ^ bits w) := by
  rw [divPat, dropBits_quotient w _ (mag_pos hb h)]

/-! The commands. -/

/-- A command that gives the pattern `n` of width `w` and completes. -/
theorem completesWith_of_completeW {i : Instr} {s : State} {w : Width} {rd : VReg} {n : Nat}
    (hexec : exec i s = completeW s w rd n) (hn : n < 2 ^ bits w) : CompletesWith i s rd n := by
  obtain ⟨t, ht, hv, hw⟩ := completeW_spec s w rd n
  exact ⟨t, hexec.trans ht, hv.trans (Nat.mod_eq_of_lt hn), hw⟩

/-- Settles O29: the command is the sum, and the ripple keeps of it what `N` limbs hold. -/
theorem addIsTheRippleSum : Obligations.AddIsTheRippleSum := by
  intro s w rd ra rb
  refine ⟨completesWith_of_completeW rfl (Nat.mod_lt _ (Nat.two_pow_pos _)), ?_⟩
  rw [ofLimbs_rippleAdd _ _ _ (by rw [length_limbsOf, length_limbsOf]), length_limbsOf, ofLimbs_limbsOf_readW,
    ofLimbs_limbsOf_readW, two_pow_bits, Bool.toNat_false, Nat.add_zero]

/-- Settles O30: both the command and the ripple are the integer difference modulo `2^B`. -/
theorem subIsTheRippleDifference : Obligations.SubIsTheRippleDifference := by
  intro s w rd ra rb
  have hpat := subPat_eq (readW s w ra) (readW_lt s w rb).le
  have hlt : (2 ^ bits w + readW s w ra - readW s w rb) % 2 ^ bits w < 2 ^ bits w := Nat.mod_lt _ (Nat.two_pow_pos _)
  refine ⟨completesWith_of_completeW (congrArg (completeW s w rd) hpat) hlt, ?_⟩
  have hripple := ofLimbs_rippleSub false (limbsOf (limbCount w) (readW s w ra)) (limbsOf (limbCount w) (readW s w rb))
    (by rw [length_limbsOf, length_limbsOf])
  rw [length_limbsOf, ofLimbs_limbsOf_readW, ofLimbs_limbsOf_readW, Bool.toNat_false, Nat.cast_zero, sub_zero] at hripple
  have htwo : (2 : Int) ^ bits w = (2 ^ 64) ^ limbCount w := by exact_mod_cast two_pow_bits w
  rw [← hpat, subPat, htwo, ← hripple, Int.toNat_natCast]

/-- Settles O31: complement plus 1 is `2^B - p`, which NEG reduces. -/
theorem negIsTheTwosComplement : Obligations.NegIsTheTwosComplement := by
  rintro s w rd ra n rfl
  have hlt := readW_lt s w ra
  rw [xor_add_one hlt]
  refine ⟨completesWith_of_completeW rfl (negPat_lt _ _), ?inverse, ?zero, ?minimum⟩
  case inverse => rw [Nat.add_mod_mod, Nat.add_sub_cancel' hlt.le, Nat.mod_self]
  case zero =>
    intro h
    rw [h, Nat.sub_zero, Nat.mod_self]
  case minimum =>
    intro h
    have hhalf := two_pow_eq_two_mul (bits_pos w)
    have hpos := Nat.two_pow_pos (bits w - 1)
    rw [h, Nat.mod_eq_of_lt (by omega)]
    omega

/-- Settles O33: the widening product is exact and the signs are put on last. -/
theorem mulRoundsTheMagnitudeProduct : Obligations.MulRoundsTheMagnitudeProduct := by
  rintro s w rd ra rb _ _ _ _ rfl rfl rfl rfl
  rw [← withSign_bne, ← mulPat_eq w (readW_lt s w ra) (readW_lt s w rb)]
  exact completesWith_of_completeW rfl (mulPat_lt w _ _)

/-- Settles O34: SQUARE is MUL of the operand with itself, and its signs are equal. -/
theorem squareRoundsTheSquaredMagnitude : Obligations.SquareRoundsTheSquaredMagnitude := by
  rintro s w rd ra _ rfl
  obtain ⟨t, ht, hv, hw⟩ := mulRoundsTheMagnitudeProduct s w rd ra ra _ _ _ _ rfl rfl rfl rfl
  rw [if_pos rfl] at hv
  exact ⟨t, ht, hv, hw⟩

/-- What a command with a pattern for its result leaves in the destination. -/
theorem readW_of_completesWith {i : Instr} {s t : State} {w : Width} {rd : VReg} {n : Nat} (h : CompletesWith i s rd n)
    (ht : exec i s = .next t) (hn : n < 2 ^ bits w) : readW t w rd = n := by
  obtain ⟨u, hu, hv, -⟩ := h
  cases hu.symm.trans ht
  rw [readW, hv, Nat.mod_eq_of_lt hn]

/-- Settles O35: the result of the command is the pattern that is near the exact product. -/
theorem mulIsNearestWhereItFits : Obligations.MulIsNearestWhereItFits := by
  rintro s t w rd ra rb _ _ _ ht rfl rfl rfl hfits
  have hresult := readW_of_completesWith (completesWith_of_completeW rfl (mulPat_lt w _ _)) ht (mulPat_lt w _ _)
  rw [hresult]
  exact abs_sval_mulPat_sub_le w (readW_lt s w ra) (readW_lt s w rb) hfits

/-- Settles O36: the quotient at scale `2^B` cut back to scale `2^F` is the quotient at that scale, and the bit cut off is
its half. -/
theorem divIsTheScaledQuotient : Obligations.DivIsTheScaledQuotient := by
  rintro s w rd ra rb _ _ _ _ rfl rfl hb rfl rfl
  rw [← withSign_bne, ← divPat_eq w _ (readW_lt s w rb) hb]
  exact completesWith_of_completeW (if_neg hb) (withSign_lt _ _ _ (Nat.mod_lt _ (Nat.two_pow_pos _)))

end Sys2Proof.Machine
end

section
/-! PROOFS. The comparison commands (42_compare.md). First what each answer of the two compare primitives means and how the
signed reading orders patterns; then the commands, which write the truth value of one such answer. -/

namespace Sys2Proof.Machine

/-! The two primitives (R161, R162), answer by answer. -/

section
variable {B a b : Nat}

theorem scmp_eq_lt_iff : scmp B a b = .lt ↔ sval B a < sval B b := compare_lt_iff_lt

theorem scmp_eq_gt_iff : scmp B a b = .gt ↔ sval B b < sval B a := compare_gt_iff_gt

theorem scmp_eq_eq_iff : scmp B a b = .eq ↔ sval B a = sval B b := compare_eq_iff_eq

theorem scmp_ne_gt_iff : scmp B a b ≠ .gt ↔ sval B a ≤ sval B b := compare_le_iff_le

theorem scmp_ne_lt_iff : scmp B a b ≠ .lt ↔ sval B b ≤ sval B a := compare_ge_iff_ge

theorem scmp_swap (B a b : Nat) : scmp B b a = (scmp B a b).swap := Std.OrientedCmp.eq_swap (cmp := compare)

theorem ucmp_eq_lt_iff : ucmp a b = .lt ↔ a < b := compare_lt_iff_lt

theorem ucmp_eq_gt_iff : ucmp a b = .gt ↔ b < a := compare_gt_iff_gt

theorem ucmp_eq_eq_iff : ucmp a b = .eq ↔ a = b := compare_eq_iff_eq

theorem ucmp_ne_gt_iff : ucmp a b ≠ .gt ↔ a ≤ b := compare_le_iff_le

theorem ucmp_ne_lt_iff : ucmp a b ≠ .lt ↔ b ≤ a := compare_ge_iff_ge

theorem ucmp_swap (a b : Nat) : ucmp b a = (ucmp a b).swap := Std.OrientedCmp.eq_swap (cmp := compare)

end

/-! The signed reading as an order on patterns (00_scope.md R9). -/

theorem sval_toNat {B : Nat} (x : BitVec B) : sval B x.toNat = x.toInt := by
  rw [sval, signBit, BitVec.testBit_toNat, ← BitVec.msb_eq_getLsbD_last, BitVec.toInt_eq_msb_cond, Nat.cast_pow,
    Nat.cast_ofNat]

theorem sval_inj {B a b : Nat} (ha : a < 2 ^ B) (hb : b < 2 ^ B) : sval B a = sval B b ↔ a = b := by
  obtain ⟨x, rfl⟩ : ∃ x : BitVec B, x.toNat = a := ⟨.ofNatLT a ha, rfl⟩
  obtain ⟨y, rfl⟩ : ∃ y : BitVec B, y.toNat = b := ⟨.ofNatLT b hb, rfl⟩
  rw [sval_toNat, sval_toNat, BitVec.toInt_inj, BitVec.toNat_inj]

/-- With equal signs both readings differ from the patterns by the same amount. -/
theorem sval_lt_sval_iff {B a b : Nat} (h : signBit B a = signBit B b) : sval B a < sval B b ↔ a < b := by
  rw [sval, sval, h]
  split
  case isTrue => rw [Int.sub_lt_sub_right_iff, Nat.cast_lt]
  case isFalse => exact Nat.cast_lt

theorem scmp_eq_ucmp {B a b : Nat} (h : signBit B a = signBit B b) : scmp B a b = ucmp a b := by
  rw [scmp, ucmp, Int.compare_eq_ite_lt, Nat.compare_eq_ite_lt]
  simp only [sval_lt_sval_iff h, sval_lt_sval_iff h.symm]

theorem sval_neg_of_signBit {B p : Nat} (h : p < 2 ^ B) (hs : signBit B p = true) : sval B p < 0 := by
  rw [sval, if_pos hs]
  exact sub_neg_of_lt (mod_cast h)

theorem sval_nonneg_of_signBit {B p : Nat} (hs : signBit B p = false) : 0 ≤ sval B p := by
  rw [sval, if_neg (Bool.not_eq_true _ ▸ hs)]
  exact Int.natCast_nonneg p

/-- A set sign bit makes the pattern the smaller integer and the larger natural number. -/
theorem scmp_lt_ucmp_gt_of_signBit {B a b : Nat} (hB : 0 < B) (ha : a < 2 ^ B) (hb : b < 2 ^ B) (hsa : signBit B a = true)
    (hsb : signBit B b = false) : scmp B a b = .lt ∧ ucmp a b = .gt := by
  have hlow : b < 2 ^ (B - 1) := by
    rw [← Nat.not_le, ← signBit_iff hb hB, Bool.not_eq_true]
    exact hsb
  exact ⟨scmp_eq_lt_iff.2 ((sval_neg_of_signBit ha hsa).trans_le (sval_nonneg_of_signBit hsb)),
    ucmp_eq_gt_iff.2 (hlow.trans_le ((signBit_iff ha hB).1 hsa))⟩

/-- Settles O40: both primitives compare in a linear order, which the signed reading embeds the patterns in. -/
theorem theTwoOrdersAgreeOnEqualSigns : Obligations.TheTwoOrdersAgreeOnEqualSigns := by
  intro w a b c ha hb _
  refine ⟨scmp_eq_eq_iff.trans (sval_inj ha hb), ucmp_eq_eq_iff, scmp_swap _ _ _, ucmp_swap _ _, ?strans, ?utrans,
    scmp_eq_ucmp, scmp_lt_ucmp_gt_of_signBit (bits_pos w) ha hb⟩
  case strans =>
    simp only [scmp_eq_lt_iff]
    exact lt_trans
  case utrans =>
    simp only [ucmp_eq_lt_iff]
    exact lt_trans

/-! The commands (R163 to R172). -/

/-- A command that gives the truth value of `p` and completes. -/
theorem completesWith_of_completeTruth {i : Instr} {s : State} {rd : VReg} {t : Bool} {p : Prop} [Decidable p]
    (hexec : exec i s = completeTruth s rd t) (h : t = true ↔ p) : CompletesWith i s rd (if p then 1 else 0) := by
  obtain ⟨u, hu, hv, hw⟩ := completeTruth_spec s rd t
  refine ⟨u, hexec.trans hu, ?_, hw⟩
  rw [hv, Bool.eq_iff_iff.2 (h.trans decide_eq_true_iff.symm)]
  exact Bool.cond_decide ..

theorem toNat_setWidth_readV (s : State) (w : Width) (r : VReg) :
    ((readV s r).setWidth (bits w)).toNat = readW s w r := BitVec.toNat_setWidth ..

theorem toInt_setWidth_readV (s : State) (w : Width) (r : VReg) :
    ((readV s r).setWidth (bits w)).toInt = sval (bits w) (readW s w r) := by
  rw [← sval_toNat, toNat_setWidth_readV]

/-- Settles O38: the integers compared are the signed readings, and patterns with the same reading are equal. -/
theorem signedRelationsCompareAsIntegers : Obligations.SignedRelationsCompareAsIntegers := by
  intro s w rd ra rb x y hx hy
  rw [toInt_setWidth_readV] at hx hy
  subst hx hy
  have hinj := sval_inj (readW_lt s w ra) (readW_lt s w rb)
  refine ⟨?lt, ?gt, ?le, ?ge, ?eq, ?ne⟩
  case lt => exact completesWith_of_completeTruth rfl (beq_iff_eq.trans scmp_eq_lt_iff)
  case gt => exact completesWith_of_completeTruth rfl (beq_iff_eq.trans scmp_eq_gt_iff)
  case le => exact completesWith_of_completeTruth rfl (bne_iff_ne.trans scmp_ne_gt_iff)
  case ge => exact completesWith_of_completeTruth rfl (bne_iff_ne.trans scmp_ne_lt_iff)
  case eq => exact completesWith_of_completeTruth rfl (beq_iff_eq.trans hinj.symm)
  case ne =>
    rw [← ite_not]
    exact completesWith_of_completeTruth rfl (bne_iff_ne.trans hinj.not.symm)

/-- Settles O39: the numbers compared are the patterns themselves. -/
theorem unsignedRelationsComparePatterns : Obligations.UnsignedRelationsComparePatterns := by
  intro s w rd ra rb x y hx hy
  rw [toNat_setWidth_readV] at hx hy
  subst hx hy
  refine ⟨?ltu, ?gtu, ?leu, ?geu⟩
  case ltu => exact completesWith_of_completeTruth rfl (beq_iff_eq.trans ucmp_eq_lt_iff)
  case gtu => exact completesWith_of_completeTruth rfl (beq_iff_eq.trans ucmp_eq_gt_iff)
  case leu => exact completesWith_of_completeTruth rfl (bne_iff_ne.trans ucmp_ne_gt_iff)
  case geu => exact completesWith_of_completeTruth rfl (bne_iff_ne.trans ucmp_ne_lt_iff)

end Sys2Proof.Machine
end

section
/-! PROOFS. FROMINT and TOSTR (43_radix.md R183 to R187). First the digit lists as numerals: those of an integer are Mathlib's,
and those of a fraction are described by the one equation their loop keeps; then the text of a value and its length; then
the command. -/

namespace Sys2Proof.Machine

/-! FROMINT. -/

/-- Settles O41: reducing `n * 2^F` modulo `2^B` keeps the low `I` bits of `n`. -/
theorem fromintScalesTheLowIntegerBits : Obligations.FromintScalesTheLowIntegerBits := by
  intro s w rd ra
  obtain ⟨t, ht, hv, hw⟩ := completeW_spec s w rd ((readLimb s ra 0).toNat <<< fracBits w)
  refine ⟨t, ht, hv.trans ?_, hw⟩
  rw [readLimb_toNat, Nat.mul_zero, pow_zero, Nat.div_one, Nat.shiftLeft_eq, bits_eq_fracBits_add_intBits, Nat.add_comm, pow_add,
    Nat.mul_mod_mul_right]

/-! Numerals: lists of digits, most significant first. -/

section
variable {b : Nat}

@[simp] theorem numberOf_nil : numberOf b [] = 0 := rfl

theorem numberOf_cons (d : Nat) (ds : List Nat) : numberOf b (d :: ds) = d * b ^ ds.length + numberOf b ds := by
  rw [numberOf, List.reverse_cons, Nat.ofDigits_append, Nat.ofDigits_singleton, List.length_reverse, Nat.add_comm, Nat.mul_comm]
  rfl

theorem digitsBelow_cons {d : Nat} {ds : List Nat} : DigitsBelow b (d :: ds) ↔ d < b ∧ DigitsBelow b ds :=
  List.forall_mem_cons

/-! The digits of an integer (R184). -/

/-- Enough fuel runs the loop to its end, where it has put the digits of the number in front. -/
theorem intDigitsLoop_eq (hb : 2 ≤ b) {fuel n : Nat} (hpos : 0 < n) (hfuel : n < 2 ^ fuel) (ds : List Nat) :
    intDigitsLoop b fuel n ds = (Nat.digits b n).reverse ++ ds := by
  induction fuel generalizing n ds with
  | zero => omega
  | succ fuel ih =>
    rw [intDigitsLoop, Nat.digits_def' hb hpos, List.reverse_cons, List.append_assoc, List.singleton_append]
    split
    case isTrue hq => rw [hq, Nat.digits_zero, List.reverse_nil, List.nil_append]
    case isFalse hq =>
      have hhalf : n / b ≤ n / 2 := Nat.div_le_div_left hb two_pos
      exact ih (Nat.pos_of_ne_zero hq) (by omega) _

theorem intDigits_zero : intDigits 0 b = [0] := by simp [intDigits, intDigitsLoop]

theorem intDigits_of_pos (hb : 2 ≤ b) {n : Nat} (hpos : 0 < n) : intDigits n b = (Nat.digits b n).reverse := by
  rw [intDigits, intDigitsLoop_eq hb hpos Nat.lt_log2_self, List.append_nil]

theorem digitsBelow_intDigits (hb : 2 ≤ b) (n : Nat) : DigitsBelow b (intDigits n b) := by
  obtain rfl | hpos := Nat.eq_zero_or_pos n
  · rw [intDigits_zero]
    exact digitsBelow_cons.2 ⟨by omega, List.forall_mem_nil _⟩
  · rw [intDigits_of_pos hb hpos]
    exact fun d hd => Nat.digits_lt_base hb (List.mem_reverse.1 hd)

theorem numberOf_intDigits (hb : 2 ≤ b) (n : Nat) : numberOf b (intDigits n b) = n := by
  obtain rfl | hpos := Nat.eq_zero_or_pos n
  · rw [intDigits_zero, numberOf_cons, Nat.zero_mul]
    rfl
  · rw [intDigits_of_pos hb hpos, numberOf, List.reverse_reverse, Nat.ofDigits_digits]

theorem length_intDigits (hb : 2 ≤ b) (n : Nat) : (intDigits n b).length = Nat.log b n + 1 := by
  obtain rfl | hpos := Nat.eq_zero_or_pos n
  · rw [intDigits_zero, Nat.log_zero_right]
    rfl
  · rw [intDigits_of_pos hb hpos, List.length_reverse, Nat.length_digits b n hb hpos.ne']

theorem intDigits_ne_nil (hb : 2 ≤ b) (n : Nat) : intDigits n b ≠ [] := by
  rw [← List.length_pos_iff, length_intDigits hb]
  exact Nat.succ_pos _

/-- Base 2 has the longest numerals. -/
theorem length_intDigits_le (hb : 2 ≤ b) {n k : Nat} (hk : 0 < k) (hn : n < 2 ^ k) : (intDigits n b).length ≤ k := by
  rw [length_intDigits hb]
  exact Nat.log_lt_of_lt_pow' hk.ne' (hn.trans_le (Nat.pow_le_pow_left hb k))

/-! The digits of a fraction (R186). -/

section
variable {F n r : Nat}

theorem fracDigitsLoop_zero_right (n : Nat) : fracDigitsLoop F b n 0 = ([], 0) := by
  cases n with
  | zero => rfl
  | succ n => rw [fracDigitsLoop, if_pos rfl]

theorem fracDigitsLoop_succ (hr : r ≠ 0) : fracDigitsLoop F b (n + 1) r =
    (r * b / 2 ^ F :: (fracDigitsLoop F b n (r * b % 2 ^ F)).1, (fracDigitsLoop F b n (r * b % 2 ^ F)).2) := by
  rw [fracDigitsLoop, if_neg hr, Nat.shiftRight_eq_div_pow]

theorem digitsBelow_fracDigitsLoop (hb : 0 < b) (n : Nat) (hr : r < 2 ^ F) : DigitsBelow b (fracDigitsLoop F b n r).1 := by
  induction n generalizing r with
  | zero => exact List.forall_mem_nil _
  | succ n ih =>
    obtain rfl | hr0 := eq_or_ne r 0
    · rw [fracDigitsLoop_zero_right]
      exact List.forall_mem_nil _
    · rw [fracDigitsLoop_succ hr0, digitsBelow_cons]
      exact ⟨Nat.div_lt_of_lt_mul (Nat.mul_lt_mul_of_pos_right hr hb), ih (Nat.mod_lt _ (Nat.two_pow_pos F))⟩

/-- The loop stops at a remainder of zero, or has given all its digits. -/
theorem length_fracDigitsLoop (n r : Nat) : (fracDigitsLoop F b n r).1.length ≤ n ∧
    ((fracDigitsLoop F b n r).2 ≠ 0 → (fracDigitsLoop F b n r).1.length = n) := by
  induction n generalizing r with
  | zero => exact ⟨le_rfl, fun _ => rfl⟩
  | succ n ih =>
    obtain rfl | hr := eq_or_ne r 0
    · rw [fracDigitsLoop_zero_right]
      exact ⟨Nat.zero_le _, fun h => absurd rfl h⟩
    · obtain ⟨hle, heq⟩ := ih (r * b % 2 ^ F)
      rw [fracDigitsLoop_succ hr]
      exact ⟨Nat.succ_le_succ hle, fun h => congrArg Nat.succ (heq h)⟩

/-- Long division: the digits and the last remainder make up the fraction at the scale of the digits. -/
theorem numberOf_fracDigitsLoop (n : Nat) (hr : r < 2 ^ F) :
    numberOf b (fracDigitsLoop F b n r).1 * 2 ^ F + (fracDigitsLoop F b n r).2 = r * b ^ (fracDigitsLoop F b n r).1.length
      ∧ (fracDigitsLoop F b n r).2 < 2 ^ F := by
  induction n generalizing r with
  | zero => exact ⟨by simp [fracDigitsLoop], hr⟩
  | succ n ih =>
    obtain rfl | hr0 := eq_or_ne r 0
    · rw [fracDigitsLoop_zero_right]
      exact ⟨by simp, hr⟩
    · obtain ⟨heq, hlt⟩ := ih (Nat.mod_lt (r * b) (Nat.two_pow_pos F))
      rw [fracDigitsLoop_succ hr0]
      refine ⟨?_, hlt⟩
      have hdiv := Nat.div_add_mod' (r * b) (2 ^ F)
      generalize fracDigitsLoop F b n (r * b % 2 ^ F) = rest at heq ⊢
      rw [numberOf_cons, List.length_cons]
      calc (r * b / 2 ^ F * b ^ rest.1.length + numberOf b rest.1) * 2 ^ F + rest.2
          = r * b / 2 ^ F * 2 ^ F * b ^ rest.1.length + (numberOf b rest.1 * 2 ^ F + rest.2) := by ring
        _ = (r * b / 2 ^ F * 2 ^ F + r * b % 2 ^ F) * b ^ rest.1.length := by rw [heq, ← Nat.add_mul]
        _ = r * b ^ (rest.1.length + 1) := by rw [hdiv, pow_succ', Nat.mul_assoc]

/-- The digit that brings the remainder to zero is not zero. -/
theorem getLast?_fracDigitsLoop_ne_zero (hb : 0 < b) (n r : Nat) (hend : (fracDigitsLoop F b n r).2 = 0) :
    (fracDigitsLoop F b n r).1.getLast? ≠ some 0 := by
  induction n generalizing r with
  | zero => exact fun h => nomatch h
  | succ n ih =>
    obtain rfl | hr := eq_or_ne r 0
    · rw [fracDigitsLoop_zero_right]
      exact fun h => nomatch h
    · rw [fracDigitsLoop_succ hr] at hend ⊢
      obtain ⟨hnumber, -⟩ := numberOf_fracDigitsLoop (b := b) n (Nat.mod_lt (r * b) (Nat.two_pow_pos F))
      have hlast := ih _ hend
      generalize fracDigitsLoop F b n (r * b % 2 ^ F) = rest at hend hnumber hlast ⊢
      obtain ⟨ds, rem⟩ := rest
      cases ds with
      | cons d ds => exact hlast
      | nil =>
        have hzero : r * b % 2 ^ F = 0 := by simpa [eq_comm, show rem = 0 from hend] using hnumber
        have hdiv := Nat.div_add_mod' (r * b) (2 ^ F)
        intro h
        have hdigit : r * b / 2 ^ F = 0 := Option.some.inj h
        rw [hzero, hdigit, Nat.zero_mul] at hdiv
        exact (Nat.mul_pos (Nat.pos_of_ne_zero hr) hb).ne hdiv

end

section
variable (F : Nat) {f : Nat}

/-- What R186's loop leaves over is below one unit of the last digit; it is what the cut reports, and nothing unless the loop ran
out of digits. -/
theorem numberOf_fracDigits (hf : f < 2 ^ F) : ∃ r < 2 ^ F,
    numberOf b (fracDigits F f b).1 * 2 ^ F + r = f * b ^ (fracDigits F f b).1.length
      ∧ ((fracDigits F f b).2 = true ↔ r ≠ 0) ∧ (r ≠ 0 → (fracDigits F f b).1.length = F) := by
  obtain ⟨heq, hlt⟩ := numberOf_fracDigitsLoop (b := b) F hf
  exact ⟨_, hlt, heq, bne_iff_ne, (length_fracDigitsLoop F f).2⟩

theorem length_fracDigits_le (f : Nat) : (fracDigits F f b).1.length ≤ F := (length_fracDigitsLoop F f).1

theorem digitsBelow_fracDigits (hb : 0 < b) (hf : f < 2 ^ F) : DigitsBelow b (fracDigits F f b).1 :=
  digitsBelow_fracDigitsLoop hb F hf

theorem fracDigits_eq_nil_iff (hf : f < 2 ^ F) : (fracDigits F f b).1 = [] ↔ f = 0 := by
  rw [fracDigits]
  cases F with
  | zero => simp_all [fracDigitsLoop]
  | succ F =>
    obtain rfl | hf0 := eq_or_ne f 0
    · rw [fracDigitsLoop_zero_right, eq_self, eq_self]
    · rw [fracDigitsLoop_succ hf0]
      exact iff_of_false (List.cons_ne_nil _ _) hf0

/-- An even base runs to the end: after `F` digits the scale `b^F` is a multiple of `2^F`, and so is what is left over. -/
theorem fracDigits_not_cut_of_even (hb : Even b) (hf : f < 2 ^ F) : (fracDigits F f b).2 = false := by
  obtain ⟨r, hr, hnumber, hcut, hlen⟩ := numberOf_fracDigits (b := b) F hf
  rw [← Bool.not_eq_true, hcut, not_not]
  by_contra hr0
  rw [hlen hr0] at hnumber
  have hscale : 2 ^ F ∣ f * b ^ F := Dvd.dvd.mul_left (pow_dvd_pow_of_dvd hb.two_dvd F) f
  rw [← hnumber, Nat.dvd_add_right (Nat.dvd_mul_left _ _)] at hscale
  exact hr0 (Nat.eq_zero_of_dvd_of_lt hscale hr)

/-- An odd base never ends: a power of it has no factor 2 to take from `2^F`. -/
theorem fracDigits_cut_of_odd (hb : Odd b) (hf : f < 2 ^ F) (hf0 : f ≠ 0) : (fracDigits F f b).2 = true := by
  obtain ⟨r, -, hnumber, hcut, -⟩ := numberOf_fracDigits (b := b) F hf
  rw [hcut]
  rintro rfl
  have hscale : 2 ^ F ∣ f * b ^ (fracDigits F f b).1.length := ⟨_, by rw [← hnumber, Nat.add_zero, Nat.mul_comm]⟩
  have hcoprime : Nat.Coprime (2 ^ F) (b ^ (fracDigits F f b).1.length) := (Nat.coprime_two_left.2 hb).pow _ _
  exact hf0 (Nat.eq_zero_of_dvd_of_lt (hcoprime.dvd_of_dvd_mul_right hscale) hf)

end

end

/-- Settles O42: the digits of a positive number are Mathlib's, reversed. -/
theorem integerDigitsAreTheNumeral : Obligations.IntegerDigitsAreTheNumeral := by
  intro n b hb
  refine ⟨digitsBelow_intDigits hb n, numberOf_intDigits hb n, ?zero, fun hn => ⟨?leading, length_intDigits hb n⟩⟩
  case zero =>
    rintro rfl
    exact intDigits_zero
  case leading =>
    have hne : Nat.digits b n ≠ [] := Nat.digits_ne_nil_iff_ne_zero.2 hn
    rw [intDigits_of_pos hb (Nat.pos_of_ne_zero hn), ← List.dropLast_append_getLast hne, List.reverse_append]
    exact ⟨_, _, rfl, Nat.getLast_digit_ne_zero b hn⟩

/-- Settles O43: the expansion is the long division's equation, and the parity of the base decides whether it ends. -/
theorem fractionDigitsAreExactOrCut : Obligations.FractionDigitsAreExactOrCut := by
  intro F f b hb hf
  obtain ⟨r, hr, hnumber, hcut, hlen⟩ := numberOf_fracDigits (b := b) F hf
  have hbpos : 0 < b := by omega
  refine ⟨digitsBelow_fracDigits F hbpos hf, length_fracDigits_le F f, fracDigits_eq_nil_iff F hf, ?expansion,
    fun heven => ?even, fun hodd hf0 => ?odd⟩
  case expansion =>
    rw [← hnumber, Nat.mul_comm, Nat.mul_add_div (Nat.two_pow_pos F), Nat.div_eq_of_lt hr, Nat.add_zero]
  case even =>
    have hnot := fracDigits_not_cut_of_even F heven hf
    have hr0 : r = 0 := not_not.1 (hcut.not.1 (Bool.not_eq_true _ ▸ hnot))
    exact ⟨hnot, by rw [← hnumber, hr0, Nat.add_zero], getLast?_fracDigitsLoop_ne_zero hbpos F f (bne_eq_false_iff_eq.1 hnot)⟩
  case odd =>
    have hreported := fracDigits_cut_of_odd F hodd hf hf0
    exact ⟨hreported, hlen (hcut.1 hreported)⟩

/-! The text of a value (R185) and its length (R187). -/

theorem valueText_eq_numeral (w : Width) (b a : Nat) :
    valueText w b a = numeral (signBit (bits w) a) (intDigits (mag (bits w) a / 2 ^ fracBits w) b)
      (fracDigits (fracBits w) (mag (bits w) a % 2 ^ fracBits w) b).1 := by
  rw [← Nat.shiftRight_eq_div_pow]
  rfl

theorem length_signText (neg : Bool) : (signText neg).length = neg.toNat := by cases neg <;> rfl

theorem length_fractionText_le (fs : List Nat) : (fractionText fs).length ≤ fs.length + 1 := by
  rw [fractionText]
  split
  · exact Nat.zero_le _
  · rw [List.length_cons, List.length_map]

theorem length_numeral (neg : Bool) (ds fs : List Nat) :
    (numeral neg ds fs).length = neg.toNat + ds.length + (fractionText fs).length := by
  rw [numeral, List.length_append, List.length_append, length_signText, List.length_map]

section
variable {b : Nat} (w : Width)

theorem length_intDigits_two_pow_le (hb : 2 ≤ b) : (intDigits (2 ^ (intBits w - 1)) b).length ≤ intBits w :=
  length_intDigits_le hb (intBits_pos w) (Nat.pow_lt_pow_right (by decide) (Nat.sub_lt (intBits_pos w) one_pos))

/-- The minimum value is the one magnitude of full length, and has no fraction. -/
theorem length_valueText_of_mag_eq {a : Nat} (hm : mag (bits w) a = 2 ^ (bits w - 1)) :
    (valueText w b a).length = (signBit (bits w) a).toNat + (intDigits (2 ^ (intBits w - 1)) b).length := by
  have hI := intBits_pos w
  have hscale : 2 ^ (bits w - 1) = 2 ^ (intBits w - 1) * 2 ^ fracBits w := by
    rw [← pow_add, bits_eq_fracBits_add_intBits]
    congr 1
    omega
  rw [valueText_eq_numeral, length_numeral, hm, hscale, Nat.mul_div_left _ (Nat.two_pow_pos _), Nat.mul_mod_left,
    (fracDigits_eq_nil_iff (fracBits w) (Nat.two_pow_pos _)).2 rfl]
  rfl

/-- A smaller magnitude has at most `I - 1` integer digits, a point and `F` fraction digits. -/
theorem length_valueText_le_of_mag_lt (hb : 2 ≤ b) {a : Nat} (hm : mag (bits w) a < 2 ^ (bits w - 1)) :
    (valueText w b a).length ≤ (signBit (bits w) a).toNat + bits w := by
  have hI : 1 < intBits w := by cases w <;> decide
  have hbits := bits_eq_fracBits_add_intBits w
  have hint : (intDigits (mag (bits w) a / 2 ^ fracBits w) b).length ≤ intBits w - 1 := by
    refine length_intDigits_le hb (Nat.sub_pos_of_lt hI) (Nat.div_lt_of_lt_mul ?_)
    rwa [← pow_add, ← Nat.add_sub_assoc hI.le, ← hbits]
  have hfrac := length_fractionText_le (fracDigits (fracBits w) (mag (bits w) a % 2 ^ fracBits w) b).1
  have hcut := length_fracDigits_le (b := b) (fracBits w) (mag (bits w) a % 2 ^ fracBits w)
  rw [valueText_eq_numeral, length_numeral]
  omega

theorem length_valueText_le (hb : 2 ≤ b) {a : Nat} (ha : a < 2 ^ bits w) :
    (valueText w b a).length ≤ (signBit (bits w) a).toNat + bits w := by
  obtain hm | hm := (mag_le (bits w) a ha (bits_pos w)).lt_or_eq
  · exact length_valueText_le_of_mag_lt w hb hm
  · rw [length_valueText_of_mag_eq w hm]
    have hint := length_intDigits_two_pow_le w hb
    have hbits := bits_eq_fracBits_add_intBits w
    omega

theorem mag_two_pow_pred {B : Nat} (hB : 0 < B) : mag B (2 ^ (B - 1)) = 2 ^ (B - 1) := by
  have hhalf := two_pow_eq_two_mul hB
  have hpos := Nat.two_pow_pos (B - 1)
  rw [mag, if_pos ((signBit_iff (by omega) hB).2 le_rfl), negPat_of_pos hpos]
  omega

end

/-! TOSTR. -/

theorem baseLegal_of_le {base : BitVec 6} (hlo : 2 ≤ base.toNat) (hhi : base.toNat ≤ 36) : baseLegal base = true :=
  decide_eq_true ⟨hlo, hhi⟩

/-- A length register holds a length of the text buffer whole. -/
theorem toNat_ofNat10 {n : Nat} (hn : n ≤ 512) : (BitVec.ofNat 10 n).toNat = n := Nat.mod_eq_of_lt (by omega)

section
variable (s : State) (w : Width) (ra : VReg) {base : BitVec 6} (hlo : 2 ≤ base.toNat)
include hlo

theorem length_valueText_readW_le : (valueText w base.toNat (readW s w ra)).length ≤ bits w + 1 := by
  have hlen := length_valueText_le w hlo (readW_lt s w ra)
  have hsign := (signBit (bits w) (readW s w ra)).toNat_le
  omega

theorem valueText_readW_fits : (valueText w base.toNat (readW s w ra)).length ≤ 512 :=
  (length_valueText_readW_le s w ra hlo).trans ((Nat.succ_le_succ (bits_le w)).trans (by decide))

/-- In a legal base TOSTR always completes: its text fits the buffer. -/
theorem exec_tostr_eq (hhi : base.toNat ≤ 36) : exec (.tostr w ra base) s
    = complete (setTrunc (setTlen (setText s (storeBytes s.tb 0 (valueText w base.toNat (readW s w ra))))
        (valueText w base.toNat (readW s w ra)).length) (valueTextCut w base.toNat (readW s w ra))) 0 := by
  change execTostr w ra base s = _
  rw [execTostr, if_pos (baseLegal_of_le hlo hhi)]
  simp only [placeText_spec s _ (valueText_readW_fits s w ra hlo)]

end

/-- A text stored at address 0 of a buffer in canonical form is the string there, with its length in TLEN. -/
theorem textIs_storeBytes {s t : State} {text : List Byte} (hwf : Memory.wf s.tb = true) (hlen : text.length ≤ 512)
    (htb : t.tb = storeBytes s.tb 0 text) (htlen : t.tlen.toNat = text.length) : TextIs t text := by
  refine ⟨hlen, htlen, fun k hk => ?_⟩
  have hbyte := loadByte_storeBytes_in text s.tb 0 k ((Memory.wf_iff _).1 hwf).1 hk
  rwa [Nat.zero_add, ← htb] at hbyte

/-- Settles O44: the text TOSTR stores is the numeral, and the stores keep all beyond it. -/
theorem tostrPlacesTheText : Obligations.TostrPlacesTheText := by
  rintro s w ra base _ _ _ _ hwf rfl hlo hhi rfl rfl rfl
  rw [← valueText_eq_numeral]
  have hfits := valueText_readW_fits s w ra hlo
  exact ⟨_, exec_tostr_eq s w ra hlo hhi, textIs_storeBytes hwf hfits rfl (toNat_ofNat10 hfits),
    fun k hk => loadByte_storeBytes_out _ _ _ _ (.inr (by rwa [Nat.zero_add])), rfl, fun _ => rfl, rfl, rfl, rfl,
    ⟨rfl, rfl⟩, rfl⟩

/-- Settles O45: a sign only below zero, and only the minimum value has a magnitude of `2^(B-1)`. -/
theorem tostrLengthBound : Obligations.TostrLengthBound := by
  intro s w ra base hlo hhi
  have hsign := signBit_iff (readW_lt s w ra) (bits_pos w)
  have hlen := length_valueText_le w hlo (readW_lt s w ra)
  have htlen := toNat_ofNat10 (valueText_readW_fits s w ra hlo)
  refine ⟨_, exec_tostr_eq s w ra hlo hhi, rfl, htlen.trans_le (length_valueText_readW_le s w ra hlo),
    Nat.succ_le_succ (bits_le w), fun k hk => ?frame, fun hpos => htlen.trans_le ?nonneg, fun hmin => ?minimum⟩
  case frame => exact loadByte_storeBytes_out _ _ _ _ (.inr (by rw [Nat.zero_add, ← htlen]; exact hk))
  case nonneg =>
    rwa [Bool.eq_false_iff.2 (hsign.not.2 (Nat.not_le.2 hpos)), Bool.toNat_false, Nat.zero_add] at hlen
  case minimum =>
    have hexact := length_valueText_of_mag_eq (b := base.toNat) w (a := readW s w ra) (hmin ▸ mag_two_pow_pred (bits_pos w))
    rw [hsign.2 hmin.ge, Bool.toNat_true, Nat.add_comm] at hexact
    refine ⟨(htlen.trans hexact).trans_le (Nat.succ_le_succ (length_intDigits_two_pow_le w hlo)), ?_⟩
    rintro rfl
    have hlog : Nat.log 2 (2 ^ (intBits w - 1)) + 1 = intBits w := by
      rw [Nat.log_pow one_lt_two, Nat.sub_add_cancel (intBits_pos w)]
    rw [length_intDigits hlo, show (2 : BitVec 6).toNat = 2 from rfl, hlog] at hexact
    exact htlen.trans hexact

end Sys2Proof.Machine
end

section
/-! PROOFS. FROMSTR and the round trip through text (43_radix.md R188 to R192). First what the parts of the scan do on the parts
of a text: sign, integer digits, fraction; then the scan as a whole, on a numeral with anything after it and on the texts it
refuses; then the command; then the one rounding, which undoes the cut of TOSTR. -/

namespace Sys2Proof.Machine

/-! Characters (R181, R182). -/

theorem digitValue_digitChar {d : Nat} (h : d < 36) : digitValue (digitChar d) = some d := by
  have hall : ∀ d : Fin 36, digitValue (digitChar d) = some d.val := by decide
  exact hall ⟨d, h⟩

theorem digitValue_pointCode : digitValue pointCode = none := by decide

theorem digitValue_minusCode : digitValue minusCode = none := by decide

theorem ne_minusCode_of_digitValue {c : Byte} {v : Nat} (h : digitValue c = some v) : c ≠ minusCode := by
  rintro rfl
  exact Option.some_ne_none v (h.symm.trans digitValue_minusCode)

/-! The digit loops (R189). -/

section
variable {b : Nat}

/-- The first of the digits of a base, as a character. -/
theorem digitValue_digitChar_head (hb : b ≤ 36) {d : Nat} {ds : List Nat} (hds : DigitsBelow b (d :: ds)) :
    digitValue (digitChar d) = some d := by
  obtain ⟨hd, -⟩ := digitsBelow_cons.1 hds
  exact digitValue_digitChar (hd.trans_le hb)

/-- No digit stands at the start of the text. -/
def NoDigitFirst (rest : List Byte) : Prop := ∀ c ∈ rest.head?, digitValue c = none

theorem noDigitFirst_cons {c : Byte} {cs : List Byte} : NoDigitFirst (c :: cs) ↔ digitValue c = none := by
  simp [NoDigitFirst]

theorem scanDigits_of_noDigitFirst {rest : List Byte} (h : NoDigitFirst rest) (pos value den : Nat) :
    scanDigits b pos value den rest = .ok ⟨value, den, pos, rest⟩ := by
  cases rest with
  | nil => rfl
  | cons c cs => rw [scanDigits, noDigitFirst_cons.1 h]

theorem scanDigits_digit_out_of_range {c : Byte} {v : Nat} (hc : digitValue c = some v) (hv : b ≤ v) (pos value den : Nat)
    (rest : List Byte) : scanDigits b pos value den (c :: rest) = .error pos := by
  rw [scanDigits, hc]
  exact if_pos hv

/-- A loop reads digits of the base as a numeral, and goes on behind them. -/
theorem scanDigits_map_digitChar_append (hb : b ≤ 36) {ds : List Nat} (hds : DigitsBelow b ds) (pos value den : Nat)
    (rest : List Byte) : scanDigits b pos value den (ds.map digitChar ++ rest)
      = scanDigits b (pos + ds.length) (value * b ^ ds.length + numberOf b ds) (den * b ^ ds.length) rest := by
  induction ds generalizing pos value den with
  | nil => simp
  | cons d ds ih =>
    obtain ⟨hd, hds⟩ := digitsBelow_cons.1 hds
    rw [List.map_cons, List.cons_append, scanDigits, digitValue_digitChar (hd.trans_le hb)]
    dsimp only
    rw [if_neg (Nat.not_le.2 hd), ih hds, numberOf_cons, List.length_cons, pow_succ']
    congr 1 <;> ring

theorem scanDigits_map_digitChar (hb : b ≤ 36) {ds : List Nat} (hds : DigitsBelow b ds) {rest : List Byte}
    (hrest : NoDigitFirst rest) (pos : Nat) : scanDigits b pos 0 1 (ds.map digitChar ++ rest)
      = .ok ⟨numberOf b ds, b ^ ds.length, pos + ds.length, rest⟩ := by
  rw [scanDigits_map_digitChar_append hb hds, scanDigits_of_noDigitFirst hrest, Nat.zero_mul, Nat.zero_add, Nat.one_mul]

theorem scanDigits_map_digitChar_out_of_range (hb : b ≤ 36) {ds : List Nat} (hds : DigitsBelow b ds) {c : Byte} {v : Nat}
    (hc : digitValue c = some v) (hv : b ≤ v) (pos : Nat) (rest : List Byte) :
    scanDigits b pos 0 1 (ds.map digitChar ++ c :: rest) = .error (pos + ds.length) := by
  rw [scanDigits_map_digitChar_append hb hds, scanDigits_digit_out_of_range hc hv]

/-! The sign and the fraction. -/

theorem scanSign_signText_append {neg : Bool} {body : List Byte} (h : neg = false → ∀ c ∈ body.head?, c ≠ minusCode) :
    scanSign (signText neg ++ body) = (neg, body) := by
  cases neg with
  | true => rfl
  | false =>
    cases body with
    | nil => rfl
    | cons c cs => exact if_neg (h rfl c rfl)

/-- The bytes after a numeral with fraction digits `fs`: no digit first, and no point that would start a fraction where there
is none. -/
def EndsNumeral (fs : List Nat) (rest : List Byte) : Prop :=
  NoDigitFirst rest ∧ (fs = [] → rest.head? = some pointCode → NoDigitFirst rest.tail)

theorem endsNumeral_nil (fs : List Nat) : EndsNumeral fs [] := ⟨fun _ h => (nomatch h), fun _ h => nomatch h⟩

theorem endsNumeral_cons {fs : List Nat} {c : Byte} {rest : List Byte} (hc : digitValue c = none)
    (hrest : fs = [] → c = pointCode → NoDigitFirst rest) : EndsNumeral fs (c :: rest) :=
  ⟨noDigitFirst_cons.2 hc, fun hfs hpoint => hrest hfs (Option.some.inj hpoint)⟩

/-- A point before a byte of the digit alphabet starts the digits of a fraction. -/
theorem scanFraction_point_cons {c : Byte} {v : Nat} (hc : digitValue c = some v) (pos : Nat) (cs : List Byte) :
    scanFraction b pos (pointCode :: c :: cs) = scanDigits b (pos + 1) 0 1 (c :: cs) :=
  if_pos ⟨rfl, Option.isSome_iff_exists.2 ⟨v, hc⟩⟩

/-- Anything else is no fraction. -/
theorem scanFraction_of_endsNumeral {rest : List Byte} (h : EndsNumeral [] rest) (pos : Nat) :
    scanFraction b pos rest = .ok ⟨0, 1, pos, rest⟩ := by
  match rest with
  | [] => rfl
  | [_] => rfl
  | p :: c :: cs =>
    refine if_neg ?_
    rintro ⟨rfl, hc⟩
    rw [noDigitFirst_cons.1 (h.2 rfl rfl)] at hc
    exact Bool.false_ne_true hc

theorem scanFraction_fractionText (hb : b ≤ 36) {fs : List Nat} (hfs : DigitsBelow b fs) {rest : List Byte}
    (hrest : EndsNumeral fs rest) (pos : Nat) : scanFraction b pos (fractionText fs ++ rest)
      = .ok ⟨numberOf b fs, b ^ fs.length, pos + (fractionText fs).length, rest⟩ := by
  cases fs with
  | nil => exact scanFraction_of_endsNumeral hrest pos
  | cons f fs =>
    refine (scanFraction_point_cons (digitValue_digitChar_head hb hfs) pos _).trans ?_
    refine (scanDigits_map_digitChar hb hfs hrest.1 (pos + 1)).trans ?_
    simp only [fractionText, if_neg (List.cons_ne_nil f fs), List.length_cons, List.length_map, Nat.add_assoc, Nat.add_comm 1]

/-- Behind the integer digits a fraction starts with no digit, and so does what may follow a numeral. -/
theorem noDigitFirst_fractionText_append {fs : List Nat} {rest : List Byte} (hrest : NoDigitFirst rest) :
    NoDigitFirst (fractionText fs ++ rest) := by
  rw [fractionText]
  split
  · exact hrest
  · exact noDigitFirst_cons.2 digitValue_pointCode

theorem scanFraction_digit_out_of_range (hb : b ≤ 36) {fs : List Nat} (hfs : DigitsBelow b fs) {c : Byte} {v : Nat}
    (hc : digitValue c = some v) (hv : b ≤ v) (pos : Nat) (rest : List Byte) :
    scanFraction b pos (pointCode :: fs.map digitChar ++ c :: rest) = .error (pos + 1 + fs.length) := by
  refine Eq.trans ?_ (scanDigits_map_digitChar_out_of_range hb hfs hc hv (pos + 1) rest)
  cases fs with
  | nil => exact scanFraction_point_cons hc pos rest
  | cons f fs => exact scanFraction_point_cons (digitValue_digitChar_head hb hfs) pos _

/-! The scan as a whole, by what its parts give. -/

section
variable {e neg : Bool} {text body : List Byte} {int frac : DigitRun} {p : Nat}

theorem scan_of_scanDigits_error (hsign : scanSign text = (neg, body)) (hint : scanDigits b neg.toNat 0 1 body = .error p) :
    scan b e text = .error p := by
  simp only [scan, hsign, hint]

theorem scan_without_digits (hsign : scanSign text = (neg, body)) (hbody : NoDigitFirst body) :
    scan b e text = .error neg.toNat := by
  simp only [scan, hsign, scanDigits_of_noDigitFirst hbody, if_true]

theorem scan_of_scanFraction_error (hsign : scanSign text = (neg, body)) (hint : scanDigits b neg.toNat 0 1 body = .ok int)
    (hpos : int.pos ≠ neg.toNat) (hfrac : scanFraction b int.pos int.rest = .error p) : scan b e text = .error p := by
  simp only [scan, hsign, hint, if_neg hpos, hfrac]

theorem scan_of_scanFraction_ok (hsign : scanSign text = (neg, body)) (hint : scanDigits b neg.toNat 0 1 body = .ok int)
    (hpos : int.pos ≠ neg.toNat) (hfrac : scanFraction b int.pos int.rest = .ok frac) :
    scan b e text = if e = true ∨ frac.rest = [] then .ok ⟨neg, int.value, frac.value, frac.den, frac.pos⟩
      else .error frac.pos := by
  simp only [scan, hsign, hint, if_neg hpos, hfrac]
  cases e <;> cases frac.rest <;> rfl

end

section
variable {neg : Bool} {ds fs : List Nat} (hb : b ≤ 36) (hds : DigitsBelow b ds)
include hb hds

/-- Digits of a base carry no sign. -/
theorem scanSign_signText_digits {tail : List Byte} (htail : ds = [] → ∀ c ∈ tail.head?, c ≠ minusCode) :
    scanSign (signText neg ++ (ds.map digitChar ++ tail)) = (neg, ds.map digitChar ++ tail) := by
  refine scanSign_signText_append fun _ => ?_
  cases ds with
  | nil => exact htail rfl
  | cons d ds =>
    rintro c ⟨⟩
    exact ne_minusCode_of_digitValue (digitValue_digitChar_head hb hds)

/-- A numeral is read whole; what follows it is left, which only `e` allows (R189). -/
theorem scan_numeral_append (hne : ds ≠ []) (hfs : DigitsBelow b fs) {rest : List Byte} (hrest : EndsNumeral fs rest)
    (e : Bool) : scan b e (numeral neg ds fs ++ rest) = if e = true ∨ rest = []
      then .ok ⟨neg, numberOf b ds, numberOf b fs, b ^ fs.length, (numeral neg ds fs).length⟩
      else .error (numeral neg ds fs).length := by
  rw [length_numeral, numeral, List.append_assoc, List.append_assoc]
  have hpos : 0 < ds.length := List.length_pos_iff.2 hne
  exact scan_of_scanFraction_ok (scanSign_signText_digits hb hds fun h => absurd h hne)
    (scanDigits_map_digitChar hb hds (noDigitFirst_fractionText_append hrest.1) _) (by dsimp only; omega)
    (scanFraction_fractionText hb hfs hrest _)

variable {c : Byte} {v : Nat} (hc : digitValue c = some v) (hv : b ≤ v)
include hc hv

theorem scan_integer_digit_out_of_range (rest : List Byte) (e : Bool) :
    scan b e (signText neg ++ ds.map digitChar ++ c :: rest) = .error (signText neg ++ ds.map digitChar).length := by
  rw [List.length_append, length_signText, List.length_map, List.append_assoc]
  refine scan_of_scanDigits_error (scanSign_signText_digits hb hds fun _ => ?_)
    (scanDigits_map_digitChar_out_of_range hb hds hc hv _ rest)
  rintro c ⟨⟩
  exact ne_minusCode_of_digitValue hc

theorem scan_fraction_digit_out_of_range (hne : ds ≠ []) (hfs : DigitsBelow b fs) (rest : List Byte) (e : Bool) :
    scan b e (signText neg ++ ds.map digitChar ++ pointCode :: fs.map digitChar ++ c :: rest)
      = .error (signText neg ++ ds.map digitChar ++ pointCode :: fs.map digitChar).length := by
  have hpos : 0 < ds.length := List.length_pos_iff.2 hne
  have hlen : (signText neg ++ ds.map digitChar ++ pointCode :: fs.map digitChar).length
      = neg.toNat + ds.length + 1 + fs.length := by
    rw [List.length_append, List.length_append, length_signText, List.length_cons, List.length_map, List.length_map]
    omega
  rw [hlen, List.append_assoc, List.append_assoc]
  exact scan_of_scanFraction_error (scanSign_signText_digits hb hds fun h => absurd h hne)
    (scanDigits_map_digitChar hb hds (noDigitFirst_cons.2 digitValue_pointCode) _) (by dsimp only; omega)
    (scanFraction_digit_out_of_range hb hfs hc hv _ rest)

end
end

/-! FROMSTR (R190, R191). -/

theorem scannedValue_eq_numeralPattern (w : Width) (b : Nat) (neg : Bool) (ds fs : List Nat) (pos : Nat) :
    scannedValue w ⟨neg, numberOf b ds, numberOf b fs, b ^ fs.length, pos⟩ = numeralPattern w b neg ds fs := by
  rw [scannedValue, Nat.shiftLeft_eq]
  rfl

theorem scannedValue_lt (w : Width) (r : Scanned) : scannedValue w r < 2 ^ bits w :=
  withSign_lt _ _ _ (Nat.mod_lt _ (Nat.two_pow_pos _))

section
variable {s : State} {base : BitVec 6} {e : Bool} {text : List Byte} (w : Width) (rd : VReg) (hlo : 2 ≤ base.toNat)
  (hhi : base.toNat ≤ 36) (htext : TextIs s text)
include hlo hhi htext

/-- A text the scan refuses is a ParseError at the position where it stopped. -/
theorem raisesError_fromstr {p : Nat} (hscan : scan base.toNat e text = .error p) :
    RaisesError (.fromstr w rd base e) s 1 (BitVec.ofNat 10 p) := by
  obtain ⟨t, ht, hentry⟩ := raise_spec s (.parseError p)
  refine ⟨t, Eq.trans ?_ ht, hentry⟩
  change execFromstr w rd base e s = _
  simp only [execFromstr, if_pos (baseLegal_of_le hlo hhi), fetchText_of_textIs s text htext, hscan]

/-- A text the scan accepts gives its value and the bytes consumed, and changes nothing else. -/
theorem exec_fromstr_of_scan_ok {r : Scanned} (hscan : scan base.toNat e text = .ok r) :
    ∃ t, exec (.fromstr w rd base e) s = .next t ∧ (readV t rd).toNat = scannedValue w r ∧ t.tcons.toNat = r.pos
      ∧ t.tlen = s.tlen ∧ SameRegsBut rd s t ∧ SameText s t ∧ SameRecord s t ∧ SamePort s t ∧ Answers t 0 := by
  have hexec : exec (.fromstr w rd base e) s = complete (setTcons (writeW s w rd (scannedValue w r)) r.pos) 0 := by
    change execFromstr w rd base e s = _
    simp only [execFromstr, if_pos (baseLegal_of_le hlo hhi), fetchText_of_textIs s text htext, hscan]
  have hpos : r.pos ≤ 512 := by
    have hwithin := scan_within base.toNat e text
    rw [hscan] at hwithin
    exact hwithin.trans htext.1
  have hvalue : (readV (writeW s w rd (scannedValue w r)) rd).toNat = scannedValue w r :=
    (readV_writeW_toNat s w rd _).trans (Nat.mod_eq_of_lt (scannedValue_lt w r))
  exact ⟨_, hexec, hvalue, toNat_ofNat10 hpos, rfl, fun q hq => readV_writeV_ne s rd q _ hq, fun _ => rfl, ⟨rfl, rfl, rfl⟩,
    ⟨rfl, rfl⟩, rfl⟩

end

/-- FROMSTR on a numeral with nothing unread that `e` does not allow. -/
theorem exec_fromstr_numeral {s : State} {base : BitVec 6} {e neg : Bool} {ds fs : List Nat} {rest : List Byte} (w : Width)
    (rd : VReg) (hlo : 2 ≤ base.toNat) (hhi : base.toNat ≤ 36) (hne : ds ≠ []) (hds : DigitsBelow base.toNat ds)
    (hfs : DigitsBelow base.toNat fs) (hrest : EndsNumeral fs rest) (hall : e = true ∨ rest = [])
    (htext : TextIs s (numeral neg ds fs ++ rest)) :
    ∃ t, exec (.fromstr w rd base e) s = .next t ∧ (readV t rd).toNat = numeralPattern w base.toNat neg ds fs
      ∧ t.tcons.toNat = (numeral neg ds fs).length ∧ t.tlen = s.tlen
      ∧ SameRegsBut rd s t ∧ SameText s t ∧ SameRecord s t ∧ SamePort s t ∧ Answers t 0 := by
  have hscan := (scan_numeral_append (neg := neg) hhi hds hne hfs hrest e).trans (if_pos hall)
  rw [← scannedValue_eq_numeralPattern w _ neg ds fs (numeral neg ds fs).length]
  exact exec_fromstr_of_scan_ok w rd hlo hhi htext hscan

/-- Settles O46: a numeral with nothing after it. -/
theorem fromstrReadsEveryNumeral : Obligations.FromstrReadsEveryNumeral := by
  rintro s w rd base e neg _ ds fs rfl hlo hhi hne hds hfs htext
  exact exec_fromstr_numeral w rd hlo hhi hne hds hfs (endsNumeral_nil fs) (.inr rfl) (by rwa [List.append_nil])

/-- Settles O47: a numeral with something after it, by whether `e` allows that. -/
theorem fromstrStopsAtTrailingBytes : Obligations.FromstrStopsAtTrailingBytes := by
  rintro s w rd base e neg _ ds fs c rest rfl hlo hhi hne hds hfs hc hpoint htext
  have hrest : EndsNumeral fs (c :: rest) := endsNumeral_cons hc hpoint
  split
  case isTrue he => exact exec_fromstr_numeral w rd hlo hhi hne hds hfs hrest (.inl he) htext
  case isFalse he =>
    exact raisesError_fromstr w rd hlo hhi htext
      ((scan_numeral_append hhi hds hne hfs hrest e).trans (if_neg (not_or.2 ⟨he, List.cons_ne_nil _ _⟩)))

/-- Settles O48: the first digit loop stops where it starts, behind the sign. -/
theorem fromstrWithoutDigitsRaisesParseError : Obligations.FromstrWithoutDigitsRaisesParseError := by
  rintro s w rd base e neg text hlo hhi hfirst htext
  have hsign := scanSign_signText_append (neg := neg) fun hneg c hc => (hfirst c hc).2 hneg
  have hraise := raisesError_fromstr (e := e) w rd hlo hhi htext (scan_without_digits hsign fun c hc => (hfirst c hc).1)
  cases neg <;> exact hraise

/-- Settles O49: one of the two digit loops meets the digit. -/
theorem fromstrDigitOutOfRangeRaisesParseError : Obligations.FromstrDigitOutOfRangeRaisesParseError := by
  rintro s w rd base e neg _ v pre ds fs before c rest rfl hlo hhi hpre hne hds hfs hc hv (rfl | rfl) htext
  case inl => exact raisesError_fromstr w rd hlo hhi htext (scan_integer_digit_out_of_range hhi hpre hc hv rest e)
  case inr => exact raisesError_fromstr w rd hlo hhi htext (scan_fraction_digit_out_of_range hhi hds hc hv hne hfs rest e)

/-! The round trip (R192). -/

/-- Rounding half up to the nearest undoes what was cut, if that is at most half a unit of the last digit. -/
theorem round_of_cut {n r f d S : Nat} (hd : 0 < d) (hcut : n * S + r = f * d) (hhalf : 2 * r ≤ d) :
    (2 * n * S + d) / (2 * d) = f := by
  exact Nat.div_eq_of_lt_le (by linarith) (by linarith)

theorem two_mul_two_pow_le_three_pow {n : Nat} (hn : 2 ≤ n) : 2 * 2 ^ n ≤ 3 ^ n := by
  obtain ⟨k, rfl⟩ := Nat.exists_eq_add_of_le hn
  have hk : 2 ^ k ≤ 3 ^ k := Nat.pow_le_pow_left (by decide) k
  rw [pow_add, pow_add]
  omega

/-- The digits of a fraction leave over at most half a unit of the last of them: nothing in an even base, and in an odd one less
than `2^F`, where a unit is at least `3^F`. -/
theorem fracDigits_cut_le_half {F f b : Nat} (hF : 2 ≤ F) (hb : 2 ≤ b) (hf : f < 2 ^ F) : ∃ r,
    numberOf b (fracDigits F f b).1 * 2 ^ F + r = f * b ^ (fracDigits F f b).1.length
      ∧ 2 * r ≤ b ^ (fracDigits F f b).1.length := by
  obtain ⟨r, hr, hnumber, hcut, hlen⟩ := numberOf_fracDigits (b := b) F hf
  refine ⟨r, hnumber, ?_⟩
  obtain rfl | hr0 := eq_or_ne r 0
  · exact Nat.zero_le _
  · have hodd : Odd b := by
      rw [← Nat.not_even_iff_odd]
      intro heven
      exact Bool.false_ne_true ((fracDigits_not_cut_of_even F heven hf).symm.trans (hcut.2 hr0))
    have hthree : 3 ≤ b := by
      obtain ⟨k, rfl⟩ := hodd
      omega
    rw [hlen hr0]
    calc 2 * r ≤ 2 * 2 ^ F := by omega
      _ ≤ 3 ^ F := two_mul_two_pow_le_three_pow hF
      _ ≤ b ^ F := Nat.pow_le_pow_left hthree F

/-- The sign of a pattern put on its magnitude gives the pattern back. -/
theorem withSign_mag {B p : Nat} (h : p < 2 ^ B) (hB : 0 < B) : withSign B (signBit B p) (mag B p) = p := by
  rw [withSign, mag]
  cases hs : signBit B p with
  | false => rfl
  | true =>
    have hp : 0 < p := (Nat.two_pow_pos _).trans_le ((signBit_iff h hB).1 hs)
    rw [if_pos rfl, if_pos rfl, negPat_of_pos hp, negPat_of_pos (Nat.sub_pos_of_lt h), Nat.sub_sub_self h.le]

/-- Reading the digits of a magnitude gives it back. -/
theorem numeralPattern_digits (w : Width) {b a : Nat} (hb : 2 ≤ b) (ha : a < 2 ^ bits w) :
    numeralPattern w b (signBit (bits w) a) (intDigits (mag (bits w) a / 2 ^ fracBits w) b)
      (fracDigits (fracBits w) (mag (bits w) a % 2 ^ fracBits w) b).1 = a := by
  have hF : 2 ≤ fracBits w := by cases w <;> decide
  obtain ⟨r, hcut, hhalf⟩ := fracDigits_cut_le_half hF hb (Nat.mod_lt (mag (bits w) a) (Nat.two_pow_pos (fracBits w)))
  rw [numeralPattern, round_of_cut (Nat.pow_pos (by omega)) hcut hhalf, numberOf_intDigits hb, Nat.div_add_mod',
    Nat.mod_eq_of_lt (mag_lt ha (bits_pos w))]
  exact withSign_mag ha (bits_pos w)

/-- Settles O50: the text of a value is a numeral of it, which FROMSTR reads whole. -/
theorem roundTripThroughText : Obligations.RoundTripThroughText := by
  intro s w rd ra base hwf hlo hhi
  obtain ⟨t, ht, htext, -, -, -, -, -, -, -, ha⟩ := tostrPlacesTheText s w ra base _ _ _ _ hwf rfl hlo hhi rfl rfl rfl
  obtain ⟨u, hu, hv, -, -, -, -, -, -, hau⟩ := fromstrReadsEveryNumeral t w rd base false _ _ _ _ rfl hlo hhi
    (intDigits_ne_nil hlo _) (digitsBelow_intDigits hlo _)
    (digitsBelow_fracDigits _ (by omega) (Nat.mod_lt _ (Nat.two_pow_pos _))) htext
  exact ⟨t, u, ht, ha, hu, hau, hv.trans (numeralPattern_digits w hlo (readW_lt s w ra))⟩

end Sys2Proof.Machine
end

section
/-! PROOFS. The square root (44_sqrt.md R211 to R213). First the scan, which sets the bits of the integer root from the highest
down; then the command, which drops the half ulp. -/

namespace Sys2Proof.Machine

/-! The scan of R211, in units of its lowest position. -/

/-- The test of a scan position: the bits of `r` above position `n`, with bit `n` set, do not exceed `r` just when bit `n` of `r`
is set. -/
theorem keep_or_drop_bit (r n : Nat) :
    (if (2 * (r / 2 ^ (n + 1)) + 1) * 2 ^ n ≤ r then (2 * (r / 2 ^ (n + 1)) + 1) * 2 ^ n
      else 2 * (r / 2 ^ (n + 1)) * 2 ^ n) = r / 2 ^ n * 2 ^ n := by
  have hhigh : r / 2 ^ (n + 1) = r / 2 ^ n / 2 := by rw [pow_succ, Nat.div_div_eq_div_mul]
  simp only [← Nat.le_div_iff_mul_le (Nat.two_pow_pos n), ← ite_mul, hhigh]
  congr 1
  split <;> omega

/-- From the bits of the root above position `n`, the `n` positions left give the whole root. -/
theorem sqrtScan_eq (F m n : Nat) :
    sqrtScan F (m * (2 ^ (F - 1) * 2 ^ (F - 1))) n (m.sqrt / 2 ^ n * 2 ^ n * 2 ^ (F - 1)) = m.sqrt * 2 ^ (F - 1) := by
  induction n with
  | zero => rw [pow_zero, Nat.div_one, Nat.mul_one, sqrtScan]
  | succ n ih =>
    have hunits : m.sqrt / 2 ^ (n + 1) * 2 ^ (n + 1) = 2 * (m.sqrt / 2 ^ (n + 1)) * 2 ^ n := by ring
    have hcand : 2 * (m.sqrt / 2 ^ (n + 1)) * 2 ^ n * 2 ^ (F - 1) + 2 ^ (F - 1 + n)
        = (2 * (m.sqrt / 2 ^ (n + 1)) + 1) * 2 ^ n * 2 ^ (F - 1) := by ring
    have htest (j : Nat) : j * 2 ^ (F - 1) * (j * 2 ^ (F - 1)) ≤ m * (2 ^ (F - 1) * 2 ^ (F - 1)) ↔ j ≤ m.sqrt := by
      rw [Nat.mul_mul_mul_comm, Nat.mul_le_mul_right_iff (Nat.mul_pos (Nat.two_pow_pos _) (Nat.two_pow_pos _)), Nat.le_sqrt]
    simp only [sqrtScan, hunits, hcand, htest]
    rw [← ite_mul, keep_or_drop_bit, ih]

/-- The positions of the scan are as many as the root has bits (R213). -/
theorem sqrt_lt_two_pow (w : Width) {a : Nat} (h : a < 2 ^ (bits w - 1)) :
    (a * 2 ^ (fracBits w + 2)).sqrt < 2 ^ (intBits w / 2 + fracBits w + 1) := by
  rw [Nat.sqrt_lt, ← pow_add]
  calc a * 2 ^ (fracBits w + 2)
      < 2 ^ (bits w - 1) * 2 ^ (fracBits w + 2) := Nat.mul_lt_mul_of_pos_right h (Nat.two_pow_pos _)
    _ = 2 ^ (bits w - 1 + (fracBits w + 2)) := (pow_add ..).symm
    _ ≤ 2 ^ (intBits w / 2 + fracBits w + 1 + (intBits w / 2 + fracBits w + 1)) :=
      Nat.pow_le_pow_right two_pos (by cases w <;> decide)

/-- The target of the scan, in squares of its lowest position. -/
theorem sqrt_target_eq (a : Nat) {F : Nat} (hF : 0 < F) :
    (a <<< F) <<< (2 * F) = a * 2 ^ (F + 2) * (2 ^ (F - 1) * 2 ^ (F - 1)) := by
  rw [Nat.shiftLeft_eq, Nat.shiftLeft_eq, Nat.mul_assoc, Nat.mul_assoc, ← pow_add, ← pow_add, ← pow_add]
  congr 2
  omega

/-- Settles O51: the scan begins above the highest bit of the root. -/
theorem sqrtScanIsTheIntegerRoot : Obligations.SqrtScanIsTheIntegerRoot := by
  intro w a h
  have hscan := sqrtScan_eq (fracBits w) (a * 2 ^ (fracBits w + 2)) (intBits w / 2 + fracBits w + 1)
  rwa [Nat.div_eq_of_lt (sqrt_lt_two_pow w h), Nat.zero_mul, Nat.zero_mul, ← sqrt_target_eq a (fracBits_pos w)] at hscan

/-! The command (R212). -/

/-- A number in units of `2^(F-1)`, brought to units of `2^F`. -/
theorem dropBits_half_units {F : Nat} (hF : 0 < F) (round : Bool) (k : Nat) :
    dropBits F round (k * 2 ^ (F - 1)) = if round then (k + 1) / 2 else k / 2 := by
  have hpos := Nat.two_pow_pos (F - 1)
  have hcut : k * 2 ^ (F - 1) / 2 ^ F = k / 2 := by rw [two_pow_eq_two_mul hF, Nat.mul_div_mul_right _ _ hpos]
  rw [dropBits_eq, hcut, Nat.mul_div_cancel _ hpos]
  split <;> omega

theorem sqrtPat_eq (w : Width) {a : Nat} (h : a < 2 ^ (bits w - 1)) :
    sqrtPat Config.roundWide w a
      = if w = .fx64 then ((a * 2 ^ (fracBits w + 2)).sqrt + 1) / 2 else (a * 2 ^ (fracBits w + 2)).sqrt / 2 := by
  rw [sqrtPat, sqrtScanIsTheIntegerRoot w a h, dropBits_half_units (fracBits_pos w), roundsAt_roundWide]
  simp only [decide_eq_true_eq]

/-- The root needs no reduction (R212). -/
theorem sqrtPat_lt (w : Width) {a : Nat} (h : a < 2 ^ (bits w - 1)) : sqrtPat Config.roundWide w a < 2 ^ bits w := by
  have hroot := sqrt_lt_two_pow w h
  have hfits : 2 ^ (intBits w / 2 + fracBits w) < 2 ^ bits w :=
    Nat.pow_lt_pow_right (by decide) (by cases w <;> decide)
  rw [pow_succ _ (intBits w / 2 + fracBits w)] at hroot
  rw [sqrtPat_eq w h]
  split <;> omega

/-- Settles O52: the sign bit is clear, so the command is the scan, whose lowest bit is the half ulp. -/
theorem sqrtRoundsAtFx64AndCutsElsewhere : Obligations.SqrtRoundsAtFx64AndCutsElsewhere := by
  rintro s w rd ra _ h rfl
  have hsign : ¬ signBit (bits w) (readW s w ra) = true := by
    rw [signBit_iff (readW_lt s w ra) (bits_pos w)]
    exact h.not_ge
  rw [← sqrtPat_eq w h]
  exact completesWith_of_completeW (if_neg hsign) (sqrtPat_lt w h)

end Sys2Proof.Machine
end

section
/-! PROOFS. The double conversions (45_double.md). First what a double is in the model's fields; then FROMDBL, whose shift is the
floor; then TODBL, whose rounding is a quotient rounded half up; then the round trip. -/

namespace Sys2Proof.Machine

/-! The fields of a double (R220, R224). -/

theorem doubleExponent_eq (d : Limb) : doubleExponent d = exponentField d := by
  simp [doubleExponent, exponentField, Nat.shiftRight_eq_div_pow]

theorem doubleFraction_eq (d : Limb) : doubleFraction d = d.toNat % 2 ^ 52 := by
  simp [doubleFraction]

theorem doubleSign_iff (d : Limb) : doubleSign d = true ↔ 2 ^ 63 ≤ d.toNat := signBit_iff (B := 64) d.isLt (by decide)

theorem doubleMantissa_lt (d : Limb) : doubleMantissa d < 2 ^ 53 := by
  have hfraction := Nat.mod_lt d.toNat (Nat.two_pow_pos 52)
  rw [doubleMantissa, doubleFraction_eq]
  split <;> omega

/-- The value of a double is the signed mantissa at the scale that unpacking gives (R224). -/
theorem doubleValue_eq (d : Limb) :
    doubleValue d = signed (doubleSign d) (doubleMantissa d) * (2 : ℚ) ^ doubleScale d := by
  have hmagnitude : (if exponentField d = 0 then (d.toNat % 2 ^ 52 : ℕ) * (2 : ℚ) ^ (-1074 : ℤ)
      else (2 ^ 52 + d.toNat % 2 ^ 52 : ℕ) * (2 : ℚ) ^ ((exponentField d : ℤ) - 1075))
      = doubleMantissa d * (2 : ℚ) ^ doubleScale d := by
    rw [doubleMantissa, doubleScale, doubleExponent_eq, doubleFraction_eq]
    split <;> rfl
  have hsign := doubleSign_iff d
  rw [doubleValue, hmagnitude]
  by_cases h : d.toNat < 2 ^ 63
  · rw [if_pos h, Bool.eq_false_iff.2 (hsign.not.2 h.not_ge)]
    simp [signed]
  · rw [if_neg h, hsign.2 (Nat.le_of_not_lt h)]
    simp [signed]

theorem natAbs_signed (neg : Bool) (n : Nat) : (signed neg n).natAbs = n := by cases neg <;> simp [signed]

theorem abs_signed (neg : Bool) (n : Nat) : |signed neg n| = n := by rw [Int.abs_eq_natAbs, natAbs_signed]

theorem abs_doubleValue (d : Limb) : |doubleValue d| = doubleMantissa d * (2 : ℚ) ^ doubleScale d := by
  rw [doubleValue_eq, abs_mul, ← Int.cast_abs, abs_signed, abs_of_pos (zpow_pos two_pos _), Int.cast_natCast]

theorem abs_mul_two_pow (x : ℚ) (n : Nat) : |x * 2 ^ n| = |x| * 2 ^ n := by
  rw [abs_mul, abs_pow, Nat.abs_ofNat]

theorem abs_sub_mul_two_pow (x y : ℚ) (n : Nat) : |x - y| * 2 ^ n = |x * 2 ^ n - y * 2 ^ n| := by
  rw [← sub_mul, abs_mul_two_pow]

/-! FROMDBL (R225). -/

/-- A number shifted left, or right with its low bits cut, is the floor of the scaled number. -/
theorem floor_mul_two_zpow (n : Nat) (k : Int) :
    ⌊(n : ℚ) * 2 ^ k⌋₊ = if 0 ≤ k then n <<< k.toNat else n >>> (-k).toNat := by
  split
  case isTrue h =>
    obtain ⟨j, rfl⟩ := Int.eq_ofNat_of_zero_le h
    rw [Int.toNat_natCast, Nat.shiftLeft_eq, zpow_natCast, ← Nat.floor_natCast (R := ℚ) (n * 2 ^ j)]
    push_cast
    rfl
  case isFalse h =>
    obtain ⟨j, hj⟩ := Int.eq_ofNat_of_zero_le (Int.neg_nonneg.2 (le_of_not_ge h))
    rw [hj, Int.toNat_natCast, Nat.shiftRight_eq_div_pow, ← Nat.floor_div_eq_div (K := ℚ), ← neg_neg k, hj, zpow_neg,
      zpow_natCast, div_eq_mul_inv]
    push_cast
    rfl

theorem abs_doubleValue_mul_two_pow (w : Width) (d : Limb) :
    |doubleValue d| * 2 ^ fracBits w = doubleMantissa d * (2 : ℚ) ^ (doubleScale d + fracBits w) := by
  rw [abs_doubleValue, mul_assoc, ← zpow_natCast, ← zpow_add₀ two_ne_zero]

theorem fromdblPat_eq (w : Width) (d : Limb) :
    fromdblPat w d = withSign (bits w) (doubleSign d) (⌊|doubleValue d| * 2 ^ fracBits w⌋₊ % 2 ^ bits w) := by
  rw [fromdblPat, abs_doubleValue_mul_two_pow, floor_mul_two_zpow]

theorem fromdblPat_lt (w : Width) (d : Limb) : fromdblPat w d < 2 ^ bits w := by
  rw [fromdblPat_eq]
  exact withSign_lt _ _ _ (Nat.mod_lt _ (Nat.two_pow_pos _))

theorem withSign_doubleSign (B : Nat) (d : Limb) (r : Nat) :
    withSign B (doubleSign d) r = if d.toNat < 2 ^ 63 then r else negPat B r := by
  simp only [withSign, doubleSign_iff, ← not_lt, ite_not]

/-- FROMDBL of a finite double completes with its pattern. -/
theorem completesWith_fromdbl {s : State} (w : Width) (rd : VReg) {ra : VReg} (h : exponentField (readLimb s ra 0) ≠ 2047) :
    CompletesWith (.fromdbl w rd ra) s rd (fromdblPat w (readLimb s ra 0)) :=
  completesWith_of_completeW (if_neg ((doubleExponent_eq _).trans_ne h)) (fromdblPat_lt w _)

/-- Settles O55: the shift of the mantissa is the floor, and the sign bit decides the negation. -/
theorem fromdblCutsTowardZero : Obligations.FromdblCutsTowardZero := by
  rintro s w rd ra _ _ rfl hfinite rfl
  rw [← negPat, ← withSign_doubleSign, ← fromdblPat_eq]
  exact completesWith_fromdbl w rd hfinite

/-! TODBL: packing (R221). -/

/-- `d` is a normal double: its sign, and `n * 2^e` for its magnitude. -/
structure NormalDouble (d : Limb) (neg : Bool) (n : Nat) (e : Int) : Prop where
  sign : doubleSign d = neg
  exponent_pos : 1 ≤ exponentField d
  exponent_le : exponentField d ≤ 2046
  value : doubleValue d = signed neg n * (2 : ℚ) ^ e

/-- The three fields side by side are the double that they describe (R220). -/
theorem normalDouble_of_fields {d : Limb} {neg : Bool} {ex fr : Nat} (hex : 1 ≤ ex) (hex' : ex ≤ 2046) (hfr : fr < 2 ^ 52)
    (hd : d.toNat = neg.toNat * 2 ^ 63 + ex * 2 ^ 52 + fr) : NormalDouble d neg (2 ^ 52 + fr) (ex - 1075) := by
  have hsign : doubleSign d = neg := by
    rw [Bool.eq_iff_iff, doubleSign_iff, hd]
    cases neg <;> simp <;> omega
  have hexponent : exponentField d = ex := by
    rw [exponentField, hd]
    omega
  have hfraction : d.toNat % 2 ^ 52 = fr := by omega
  have hnonzero : ex ≠ 0 := by omega
  refine ⟨hsign, hexponent ▸ hex, hexponent ▸ hex', ?value⟩
  rw [doubleValue_eq, hsign, doubleMantissa, doubleScale, doubleExponent_eq, doubleFraction_eq, hexponent, hfraction,
    if_neg hnonzero, if_neg hnonzero]

theorem packDouble_of_lt (neg : Bool) {mn : Nat} (e : Int) (h : mn < 2 ^ 53) :
    packDouble neg mn e = neg.toNat * 2 ^ 63 + (e + 1023).toNat * 2 ^ 52 + (mn - 2 ^ 52) := by
  unfold packDouble
  simp only [decide_eq_true_eq, if_neg h.ne]

theorem packDouble_carry (neg : Bool) (e : Int) : packDouble neg (2 ^ 53) e = packDouble neg (2 ^ 52) (e + 1) := by
  rw [packDouble_of_lt neg (e + 1) (by decide)]
  unfold packDouble
  simp only [decide_true, if_true]

theorem normalDouble_packDouble_of_lt (neg : Bool) {mn : Nat} {e : Int} (hmn : 2 ^ 52 ≤ mn) (hmn' : mn < 2 ^ 53)
    (he : -1022 ≤ e) (he' : e ≤ 1023) : NormalDouble (BitVec.ofNat 64 (packDouble neg mn e)) neg mn (e - 52) := by
  have hneg := neg.toNat_le
  have hfits : neg.toNat * 2 ^ 63 + (e + 1023).toNat * 2 ^ 52 + (mn - 2 ^ 52) < 2 ^ 64 := by omega
  have hfields : NormalDouble (BitVec.ofNat 64 (packDouble neg mn e)) neg (2 ^ 52 + (mn - 2 ^ 52))
      ((e + 1023).toNat - 1075) :=
    normalDouble_of_fields (by omega) (by omega) (by omega)
      (by rw [packDouble_of_lt neg e hmn', BitVec.toNat_ofNat, Nat.mod_eq_of_lt hfits])
  have hscale : ((e + 1023).toNat : Int) - 1075 = e - 52 := by omega
  rwa [Nat.add_sub_cancel' hmn, hscale] at hfields

/-- Packing keeps the value, with or without the carry out of the significand (R221). -/
theorem normalDouble_packDouble (neg : Bool) {mn : Nat} {e : Int} (hmn : 2 ^ 52 ≤ mn) (hmn' : mn ≤ 2 ^ 53) (he : -1022 ≤ e)
    (he' : e ≤ 1022) : NormalDouble (BitVec.ofNat 64 (packDouble neg mn e)) neg mn (e - 52) := by
  obtain hlt | rfl := hmn'.lt_or_eq
  · exact normalDouble_packDouble_of_lt neg hmn hlt he (by omega)
  · have hcarried : NormalDouble (BitVec.ofNat 64 (packDouble neg (2 ^ 52) (e + 1))) neg (2 ^ 52) (e + 1 - 52) :=
      normalDouble_packDouble_of_lt neg le_rfl (by decide) (by omega) (by omega)
    have hvalue : (signed neg (2 ^ 52) : ℚ) * 2 ^ (e + 1 - 52) = signed neg (2 ^ 53) * 2 ^ (e - 52) := by
      rw [add_sub_right_comm, zpow_add_one₀ two_ne_zero, pow_succ 2 52, ← signed_mul_natCast]
      push_cast
      ring
    rw [packDouble_carry]
    exact { hcarried with value := hcarried.value.trans hvalue }

/-! TODBL: rounding to 53 bits (R222). -/

theorem lt_two_pow_bitlen (m : Nat) : m < 2 ^ bitlen m := by
  rw [bitlen]
  split
  case isTrue h => simp [h]
  case isFalse => exact Nat.lt_log2_self

theorem two_pow_bitlen_le {m : Nat} (hm : 0 < m) : 2 ^ bitlen m ≤ 2 * m := by
  rw [bitlen, if_neg hm.ne', pow_succ, Nat.mul_comm]
  exact Nat.mul_le_mul_left 2 (Nat.log2_self_le hm.ne')

theorem bitlen_pos {m : Nat} (hm : 0 < m) : 0 < bitlen m := by
  rw [bitlen, if_neg hm.ne']
  exact Nat.succ_pos _

theorem bitlen_le {m n : Nat} (h : m < 2 ^ n) : bitlen m ≤ n := by
  rw [bitlen]
  split
  case isTrue => exact Nat.zero_le n
  case isFalse hm => exact (Nat.log2_lt hm).2 h

theorem top54_eq (m b : Nat) : top54 m b = m * 2 ^ 54 / 2 ^ b := by
  rw [top54]
  split
  case isTrue h =>
    rw [Nat.shiftLeft_eq, ← Nat.pow_sub_mul_pow 2 h.le, ← Nat.mul_assoc, Nat.mul_div_cancel _ (Nat.two_pow_pos b)]
  case isFalse h =>
    rw [Nat.shiftRight_eq_div_pow, ← Nat.pow_sub_mul_pow 2 (Nat.le_of_not_lt h), Nat.mul_div_mul_right _ _ (Nat.two_pow_pos 54)]

/-- The rounded significand of a magnitude. -/
def significand (m : Nat) : Nat := roundSignificand Config.todblTie m (bitlen m)

/-- The nudge of R222 rounds half up: the significand is the nearest multiple of its unit, `2^(b+1)` on the scale of `m * 2^54`. -/
theorem significand_eq (m : Nat) : significand m = (m * 2 ^ 54 + 2 ^ bitlen m) / (2 * 2 ^ bitlen m) := by
  have hnudge : significand m = (top54 m (bitlen m) + top54 m (bitlen m) % 2) / 2 := by
    rw [significand, Config.todblTie, roundSignificand, Nat.shiftRight_eq_div_pow, pow_one]
  rw [hnudge, top54_eq, Nat.mul_comm 2, ← Nat.div_div_eq_div_mul, Nat.add_div_right _ (Nat.two_pow_pos _)]
  omega

/-- The rounded magnitude, on the scale of `m * 2^54`. -/
def roundedMag (m : Nat) : Nat := significand m * (2 * 2 ^ bitlen m)

section
variable {m : Nat}

theorem le_significand (hm : 0 < m) : 2 ^ 52 ≤ significand m := by
  have hlow := two_pow_bitlen_le hm
  rw [significand_eq, Nat.le_div_iff_mul_le (by positivity)]
  omega

theorem significand_le (m : Nat) : significand m ≤ 2 ^ 53 := by
  have hhigh := lt_two_pow_bitlen m
  rw [significand_eq, ← Nat.lt_succ_iff, Nat.div_lt_iff_lt_mul (by positivity)]
  omega

/-- Rounding moves a magnitude by at most half a unit. -/
theorem abs_roundedMag_sub_le (m : Nat) : |(roundedMag m : Int) - (m * 2 ^ 54 : Nat)| ≤ (2 ^ bitlen m : Nat) := by
  have hnear := abs_round_sub_le (Nat.two_pow_pos (bitlen m)) (m * 2 ^ 54)
  rw [← significand_eq, ← Nat.cast_mul, ← roundedMag] at hnear
  omega

/-- At exactly half a unit the magnitude is rounded up. -/
theorem le_roundedMag_of_tie (h : |(roundedMag m : Int) - (m * 2 ^ 54 : Nat)| = (2 ^ bitlen m : Nat)) :
    m * 2 ^ 54 ≤ roundedMag m := by
  have hpos := Nat.two_pow_pos (bitlen m)
  have hbelow := Nat.lt_div_mul_add (a := m * 2 ^ 54 + 2 ^ bitlen m) (b := 2 * 2 ^ bitlen m) (by omega)
  rw [← significand_eq, ← roundedMag] at hbelow
  obtain habove | hunder := (abs_eq (Int.natCast_nonneg _)).1 h <;> omega

/-- A magnitude of at most 53 significant bits is a multiple of the unit, so its guard bit is 0 (R226). -/
theorem roundedMag_exact {k j : Nat} (hk : k < 2 ^ 53) (hm : m = k * 2 ^ j) : roundedMag m = m * 2 ^ 54 := by
  have hlen : bitlen m ≤ 53 + j := by
    refine bitlen_le ?_
    rw [hm, pow_add]
    exact Nat.mul_lt_mul_of_pos_right hk (Nat.two_pow_pos j)
  obtain ⟨c, hc⟩ : 2 * 2 ^ bitlen m ∣ m * 2 ^ 54 := by
    rw [← pow_succ']
    nth_rw 2 [hm]
    rw [Nat.mul_assoc, ← pow_add]
    exact (pow_dvd_pow 2 (by omega)).mul_left k
  have hhalf : 2 ^ bitlen m / (2 * 2 ^ bitlen m) = 0 := Nat.div_eq_of_lt (by have := Nat.two_pow_pos (bitlen m); omega)
  rw [roundedMag, significand_eq, hc, Nat.mul_add_div (by positivity), hhalf, Nat.add_zero, Nat.mul_comm]

end

/-! TODBL: the command (R222). -/

/-- The double that TODBL gives for the pattern `a`. -/
def toDouble (w : Width) (a : Nat) : Limb := BitVec.ofNat 64 (todblPat Config.todblTie w a)

section
variable {w : Width} {a : Nat}

/-- TODBL of a non-zero pattern is a normal double. -/
theorem normalDouble_toDouble (ha : a < 2 ^ bits w) (h0 : a ≠ 0) :
    NormalDouble (toDouble w a) (signBit (bits w) a)
      (significand (mag (bits w) a)) (bitlen (mag (bits w) a) - 1 - fracBits w - 52) := by
  have hpos := mag_pos ha h0
  have hlen := bitlen_le (mag_lt ha (bits_pos w))
  have hlen' := bitlen_pos hpos
  have hwidth := bits_le w
  have hfrac := bits_eq_fracBits_add_intBits w
  rw [toDouble, todblPat, if_neg h0]
  exact normalDouble_packDouble _ (le_significand hpos) (significand_le _) (by omega) (by omega)

/-- The value of the double, at the scale where the rounding is a quotient of natural numbers. -/
theorem doubleValue_toDouble (ha : a < 2 ^ bits w) (h0 : a ≠ 0) :
    doubleValue (toDouble w a) * 2 ^ fracBits w * 2 ^ 54 = signed (signBit (bits w) a) (roundedMag (mag (bits w) a)) := by
  have hscale : (2 : ℚ) ^ ((bitlen (mag (bits w) a) : Int) - 1 - fracBits w - 52) * 2 ^ fracBits w * 2 ^ 54
      = (2 * 2 ^ bitlen (mag (bits w) a) : Nat) := by
    push_cast
    rw [← pow_succ']
    simp only [← zpow_natCast, ← zpow_add₀ (two_ne_zero (α := ℚ))]
    congr 1
    push_cast
    ring
  rw [(normalDouble_toDouble ha h0).value, mul_assoc, mul_assoc, ← mul_assoc (_ ^ (_ : Int)), hscale, roundedMag,
    ← signed_mul_natCast]
  push_cast
  rfl

/-- The distance from the value, at that scale. -/
theorem abs_doubleValue_toDouble_sub (ha : a < 2 ^ bits w) (h0 : a ≠ 0) :
    |doubleValue (toDouble w a) * 2 ^ fracBits w - sval (bits w) a| * 2 ^ 54
      = |(roundedMag (mag (bits w) a) : Int) - (mag (bits w) a * 2 ^ 54 : Nat)| := by
  rw [← abs_signed_sub (signBit (bits w) a), abs_sub_mul_two_pow, doubleValue_toDouble ha h0, sval_eq_signed ha (bits_pos w),
    ← signed_mul_natCast _ (mag (bits w) a)]
  push_cast
  rfl

/-- TODBL of a value of at most 53 significant bits keeps it (R226). -/
theorem doubleValue_toDouble_exact {k j : Nat} (ha : a < 2 ^ bits w) (hk : k < 2 ^ 53) (hm : mag (bits w) a = k * 2 ^ j) :
    doubleValue (toDouble w a) * 2 ^ fracBits w = sval (bits w) a := by
  by_cases h0 : a = 0
  · have hzero : doubleValue 0#64 = 0 := by simp [doubleValue, exponentField]
    simp [h0, toDouble, todblPat, sval, signBit, hzero]
  · have hdist := abs_doubleValue_toDouble_sub ha h0
    rw [roundedMag_exact hk hm, sub_self, abs_zero, Int.cast_zero] at hdist
    exact sub_eq_zero.1 (abs_eq_zero.1 ((mul_eq_zero.1 hdist).resolve_right (by norm_num)))

end

/-- TODBL completes with its double. -/
theorem completesWith_todbl (s : State) (w : Width) (rd ra : VReg) :
    CompletesWith (.todbl w rd ra) s rd (toDouble w (readW s w ra)).toNat := by
  obtain ⟨t, ht, hv, hw⟩ := completePair_spec s rd 0 (toDouble w (readW s w ra))
  exact ⟨t, ht, by simpa using hv, hw⟩

/-- Settles O54: a quotient rounded half up is within one half of the exact one, and above it at a half. -/
theorem todblIsNearestTiesAway : Obligations.TodblIsNearestTiesAway := by
  rintro s w rd ra _ _ _ rfl rfl rfl
  obtain ⟨t, ht, hv, hw, hans⟩ := completesWith_todbl s w rd ra
  refine ⟨t, _, ht, hv, hw, hans, fun h => by rw [h]; rfl, fun h0 => ?_⟩
  have hlt := readW_lt s w ra
  generalize readW s w ra = a at h0 hlt
  have hnormal := normalDouble_toDouble hlt h0
  refine ⟨hnormal.exponent_pos, hnormal.exponent_le, by rw [← hnormal.sign, doubleSign_iff], ?near, ?tie⟩
  all_goals rw [abs_doubleValue_toDouble_sub hlt h0]
  case near => exact_mod_cast abs_roundedMag_sub_le (mag (bits w) a)
  case tie =>
    intro htie
    have hup := le_roundedMag_of_tie (m := mag (bits w) a) (by exact_mod_cast htie)
    have hvalue := congrArg abs (doubleValue_toDouble hlt h0)
    rw [← Int.cast_abs, abs_signed, abs_mul_two_pow, abs_mul_two_pow] at hvalue
    refine le_of_mul_le_mul_right ?_ (show (0 : ℚ) < 2 ^ 54 by positivity)
    rw [hvalue]
    exact_mod_cast hup

/-! The round trip (R226). -/

theorem mag_eq_natAbs_sval {B p : Nat} (h : p < 2 ^ B) (hB : 0 < B) : mag B p = (sval B p).natAbs := by
  rw [sval_eq_signed h hB, natAbs_signed]

/-- Cutting low bits off a 53-bit significand adds none. -/
theorem floor_eq_mul_two_pow (w : Width) (d : Limb) :
    ∃ k j, k < 2 ^ 53 ∧ ⌊|doubleValue d| * 2 ^ fracBits w⌋₊ = k * 2 ^ j := by
  have hmantissa := doubleMantissa_lt d
  rw [abs_doubleValue_mul_two_pow, floor_mul_two_zpow]
  split
  case isTrue => exact ⟨_, _, hmantissa, Nat.shiftLeft_eq _ _⟩
  case isFalse =>
    rw [Nat.shiftRight_eq_div_pow]
    exact ⟨_, 0, (Nat.div_le_self _ _).trans_lt hmantissa, (Nat.mul_one _).symm⟩

/-- In range, FROMDBL keeps the sign and cuts the magnitude. -/
theorem sval_fromdblPat {w : Width} {d : Limb} (h : |doubleValue d| < 2 ^ (intBits w - 1)) :
    sval (bits w) (fromdblPat w d) = signed (doubleSign d) ⌊|doubleValue d| * 2 ^ fracBits w⌋₊ := by
  have hwidth : bits w - 1 = intBits w - 1 + fracBits w := by
    have := bits_eq_fracBits_add_intBits w
    have := intBits_pos w
    omega
  have hfloor : ⌊|doubleValue d| * 2 ^ fracBits w⌋₊ < 2 ^ (bits w - 1) := by
    rw [Nat.floor_lt (by positivity), hwidth, pow_add]
    push_cast
    exact mul_lt_mul_of_pos_right h (by positivity)
  have hfits := hfloor.trans_le (Nat.le_add_right _ (doubleSign d).toNat)
  rw [fromdblPat_eq, Nat.mod_eq_of_lt (lt_two_pow_of_lt_half (bits_pos w) hfits), sval_withSign (bits_pos w) hfits]

/-- In range, TODBL of FROMDBL's pattern is the cut value, since nothing is left to round. -/
theorem doubleValue_toDouble_fromdblPat {w : Width} {d : Limb} (h : |doubleValue d| < 2 ^ (intBits w - 1)) :
    doubleValue (toDouble w (fromdblPat w d)) * 2 ^ fracBits w
      = signed (doubleSign d) ⌊|doubleValue d| * 2 ^ fracBits w⌋₊ := by
  obtain ⟨k, j, hk, hkj⟩ := floor_eq_mul_two_pow w d
  have hlt := fromdblPat_lt w d
  have hmag : mag (bits w) (fromdblPat w d) = k * 2 ^ j := by
    rw [mag_eq_natAbs_sval hlt (bits_pos w), sval_fromdblPat h, natAbs_signed, hkj]
  rw [doubleValue_toDouble_exact hlt hk hmag, sval_fromdblPat h]

/-- Two numbers of the double's sign are as far apart as their magnitudes. -/
theorem abs_signed_sub_doubleValue (d : Limb) (n : Nat) (c : ℚ) :
    |(signed (doubleSign d) n : ℚ) - doubleValue d * c| = |n - |doubleValue d| * c| := by
  rw [abs_doubleValue, doubleValue_eq]
  cases doubleSign d
  · simp [signed]
  · rw [abs_sub_comm (n : ℚ)]
    simp [signed, neg_add_eq_sub]

/-- Settles O57: FROMDBL cuts less than one ulp off the magnitude and TODBL gives the cut value exactly. -/
theorem doubleRoundTripBound : Obligations.DoubleRoundTripBound := by
  rintro s w rv rd ra _ rfl hfinite hsmall
  obtain ⟨t, ht, -, -, hat⟩ := completesWith_fromdbl w rv hfinite
  obtain ⟨u, hu, hvu, -, hau⟩ := completesWith_todbl t w rd rv
  refine ⟨t, u, ht, hat, hu, hau, ?_⟩
  have hlimb : readLimb u rd 0 = toDouble w (fromdblPat w (readLimb s ra 0)) := by
    refine BitVec.eq_of_toNat_eq ?_
    rw [readLimb_zero_toNat, hvu, Nat.mod_eq_of_lt (BitVec.isLt _),
      readW_of_completesWith (completesWith_fromdbl w rv hfinite) ht (fromdblPat_lt w _)]
  generalize readLimb s ra 0 = x at hsmall hlimb ⊢
  have hfloor := Nat.floor_le (a := |doubleValue x| * 2 ^ fracBits w) (by positivity)
  have hceil := Nat.lt_floor_add_one (|doubleValue x| * 2 ^ fracBits w)
  rw [hlimb, abs_sub_mul_two_pow, doubleValue_toDouble_fromdblPat hsmall, abs_signed_sub_doubleValue, abs_sub_lt_iff]
  constructor <;> linarith

end Sys2Proof.Machine
end

section
/-! PROOFS. The system commands (46_system.md). First the words that CSRR answers, as numbers; then CSRW, register by register; then
TST and TLD. -/

namespace Sys2Proof.Machine

/-! CSRR (R242): each register as a number in the answered word. -/

/-- TRUNC stands one place above the three bits of ERR (10_state.md R30). -/
theorem statusWord_toNat (s : State) : (statusWord s).toNat = s.err.toNat + 8 * s.trunc.toNat := by
  rw [statusWord, BitVec.toNat_setWidth_of_le (by decide), toNat_append_add, BitVec.toNat_ofBool]
  omega

/-- Settles O58: CSRR only answers, and the word answered is each register's number. -/
theorem csrrAnswersTheRegister : Obligations.CsrrAnswersTheRegister := by
  intro s c
  obtain ⟨t, ht, hw, ha⟩ := complete_spec s (csrWord s c)
  refine ⟨t, _, ht, hw, ha, ?_⟩
  cases c with
  | status => exact statusWord_toNat s
  | epos | tlen | tcons => exact BitVec.toNat_setWidth_of_le (by decide)

/-! CSRW (R243): STATUS and TLEN; the two read-only registers stand in no legal word. -/

section
variable {s : State}

/-- The clearing of the error record, whatever the data word. -/
theorem execCsrw_status_spec (s : State) :
    ∃ t, exec (.csrw .status) s = .next t ∧ t.err = 0 ∧ t.trunc = false ∧ t.epos = 0 ∧ SameRegs s t ∧ SameText s t
      ∧ SameLengths s t ∧ SamePort s t ∧ Answers t 0 := by
  obtain ⟨herr, htrunc, hepos, hv, htb, htlen, htcons, hport, hdin⟩ := clearRecord_fields s
  exact ⟨_, complete_eq (clearRecord s) 0, herr, htrunc, hepos, fun r => congrArg (Vector.get · r) hv,
    fun a => congrArg (loadByte · a) htb, ⟨htlen, htcons⟩, ⟨hport, hdin⟩, rfl⟩

/-- A data word of at most 512 fits the ten bits of TLEN. -/
theorem execCsrw_tlen_spec (h : s.din.toNat ≤ 512) :
    ∃ t, exec (.csrw .tlen) s = .next t ∧ t.tlen.toNat = s.din.toNat ∧ t.tcons = s.tcons
      ∧ SameRegs s t ∧ SameText s t ∧ SameRecord s t ∧ SamePort s t ∧ Answers t 0 := by
  have hexec : exec (.csrw .tlen) s = complete (setTlen s s.din.toNat) 0 := if_pos h
  have htlen : (BitVec.ofNat 10 s.din.toNat).toNat = s.din.toNat := by
    rw [BitVec.toNat_ofNat, Nat.mod_eq_of_lt (by omega)]
  exact ⟨_, hexec, htlen, rfl, fun _ => rfl, fun _ => rfl, ⟨rfl, rfl, rfl⟩, ⟨rfl, rfl⟩, rfl⟩

/-- A data word above 512 is refused. -/
theorem raisesError_csrw_tlen (h : 512 < s.din.toNat) : RaisesError (.csrw .tlen) s 4 0 := by
  have hexec : exec (.csrw .tlen) s = raise s .illegalCommand := if_neg (Nat.not_le.2 h)
  rw [RaisesError, hexec]
  exact raise_spec s .illegalCommand

end

/-- Settles O59: each register in turn; CSRW to EPOS and to TCONS are commands that no legal word spells. -/
theorem csrwWritesStatusAndTlenOnly : Obligations.CsrwWritesStatusAndTlenOnly := fun s =>
  ⟨execCsrw_status_spec s, execCsrw_tlen_spec, raisesError_csrw_tlen,
    illFormedCommandRaisesIllegalCommand (.csrw .epos) s rfl, illFormedCommandRaisesIllegalCommand (.csrw .tcons) s rfl⟩

/-! TST and TLD (R244, R245). -/

/-- A command that stores one byte of the text buffer and completes. -/
theorem complete_storeByte_spec (s : State) (a : Nat) (b : Byte) (hwf : Memory.wf s.tb = true) :
    ∃ t, complete (setText s (storeByte s.tb a b)) 0 = .next t ∧ loadByte t.tb a = b
      ∧ (∀ k, k ≠ a → loadByte t.tb k = loadByte s.tb k)
      ∧ SameRegs s t ∧ SameRecord s t ∧ SameLengths s t ∧ SamePort s t ∧ Answers t 0 := by
  obtain ⟨hrising, -⟩ := (Memory.wf_iff s.tb).1 hwf
  exact ⟨_, rfl, loadByte_storeByte_eq s.tb a b hrising, loadByte_storeByte_ne s.tb a b, fun _ => rfl, ⟨rfl, rfl, rfl⟩,
    ⟨rfl, rfl⟩, ⟨rfl, rfl⟩, rfl⟩

/-- Settles O60: the byte stored is the data word modulo 256, and the byte loaded is extended by zeros. -/
theorem textBytesAreStoredAndLoaded : Obligations.TextBytesAreStoredAndLoaded := by
  intro s a
  constructor
  · intro hwf
    obtain ⟨t, ht, hbyte, hframe⟩ := complete_storeByte_spec s a.toNat (s.din.setWidth 8) hwf
    exact ⟨t, ht, by rw [hbyte, BitVec.toNat_setWidth], hframe⟩
  · obtain ⟨t, ht, hw, ha⟩ := complete_spec s ((loadByte s.tb a.toNat).setWidth 64)
    exact ⟨t, _, ht, hw, ha, BitVec.toNat_setWidth_of_le (by decide)⟩

end Sys2Proof.Machine
end

section
/-! PROOFS. The errors (60_exceptions.md) and the step (70_reset_and_hazards.md R290 to R297). First which command raises which error
and the three ways a command ends, with what decides each; then what every transaction gets; then the conditions of the single
errors. -/

namespace Sys2Proof.Machine

/-! How a command ends (R260, R262). -/

/-- The error is one that R260 gives the command. -/
inductive RaisedBy : UnitError → Instr → Prop
  | fromstr {pos : Nat} {w : Width} {rd : VReg} {base : BitVec 6} {e : Bool} :
      RaisedBy (.parseError pos) (.fromstr w rd base e)
  | div {w : Width} {rd ra rb : VReg} : RaisedBy .divideByZero (.div w rd ra rb)
  | sqrt {w : Width} {rd ra : VReg} : RaisedBy .domainError (.sqrt w rd ra)
  | fromdbl {w : Width} {rd ra : VReg} : RaisedBy .domainError (.fromdbl w rd ra)
  | illFormed {i : Instr} (h : i.wellFormed = false) : RaisedBy .illegalCommand i
  | csrwTlen : RaisedBy .illegalCommand (.csrw .tlen)

/-- The command completes, raises one of its errors, or stops on a string that would reach above the text buffer. -/
inductive EndsAs (i : Instr) (s : State) : Result → Prop
  | completes {u : State} {d : Limb} (hport : SamePort s u) : EndsAs i s (complete u d)
  | raises {e : UnitError} (he : RaisedBy e i) : EndsAs i s (raise s e)
  | stops {f : Fault} (htlen : 512 < s.tlen.toNat) : EndsAs i s (.fault f)

theorem endsAs_ite {i : Instr} {s : State} {c : Prop} [Decidable c] {p q : Result} (hp : EndsAs i s p) (hq : EndsAs i s q) :
    EndsAs i s (if c then p else q) := by
  split
  · exact hp
  · exact hq

/-- FROMSTR in a legal base: only a string longer than the text buffer cannot be fetched. -/
theorem execFromstr_endsAs (s : State) (w : Width) (rd : VReg) {base : BitVec 6} (e : Bool) (h : baseLegal base = true) :
    EndsAs (.fromstr w rd base e) s (execFromstr w rd base e s) := by
  rw [execFromstr, if_pos h, fetchText]
  by_cases htlen : s.tlen.toNat ≤ 512
  · simp only [if_pos htlen]
    cases scan base.toNat e (loadBytes s.tb s.tlen.toNat) with
    | error pos => exact .raises .fromstr
    | ok r => exact .completes ⟨rfl, rfl⟩
  · simp only [if_neg htlen]
    exact .stops (Nat.not_le.1 htlen)

theorem exec_endsAs (i : Instr) (s : State) : EndsAs i s (exec i s) := by
  cases hwf : i.wellFormed with
  | false =>
    rw [exec_of_not_wellFormed s hwf]
    exact .raises (.illFormed hwf)
  | true =>
    cases i with
    | div => exact endsAs_ite (.raises .div) (.completes ⟨rfl, rfl⟩)
    | sqrt => exact endsAs_ite (.raises .sqrt) (.completes ⟨rfl, rfl⟩)
    | fromdbl => exact endsAs_ite (.raises .fromdbl) (.completes ⟨rfl, rfl⟩)
    | tostr w ra base =>
      obtain ⟨hlo, hhi⟩ := of_decide_eq_true hwf
      rw [exec_tostr_eq s w ra hlo hhi]
      exact .completes ⟨rfl, rfl⟩
    | fromstr w rd base e => exact execFromstr_endsAs s w rd e hwf
    | csrw csr =>
      cases csr with
      | status => exact .completes ⟨rfl, rfl⟩
      | tlen => exact endsAs_ite (.completes ⟨rfl, rfl⟩) (.raises .csrwTlen)
      | epos | tcons => cases hwf
    | put64 | put32 | get64 | get32 | mov | and | or | xor | shl | shr | laddc | lsubb | lmulw | add | sub | neg | mul | square
    | lt | gt | le | ge | eq | ne | ltu | gtu | leu | geu | fromint | todbl | csrr | tld | tst =>
      exact .completes ⟨rfl, rfl⟩

/-! Every transaction is answered (R297). -/

/-- The outcome is a next state, with the host's events as in `s` and a response that carries a code of R260. -/
def Answered (s : State) (r : Result) : Prop :=
  ∃ t, r = .next t ∧ t.port = s.port ∧ ∃ a, t.response = some a ∧ a.err.toNat ≤ 4

section
variable {s : State} {rest : List HostEvent}

theorem answered_complete {u : State} {d : Limb} (hport : SamePort s u) : Answered s (complete u d) :=
  ⟨_, rfl, hport.1, _, rfl, Nat.zero_le _⟩

theorem answered_raise (s : State) (e : UnitError) : Answered s (raise s e) := by
  obtain ⟨t, ht, -, -, -, ⟨hport, -⟩, -, hresponse, -⟩ := raise_spec s e
  exact ⟨t, ht, hport, _, hresponse, errorCode_toNat_le e⟩

/-- With TLEN within the text buffer no command stops. -/
theorem answered_of_endsAs {i : Instr} {r : Result} (hr : EndsAs i s r) (htlen : s.tlen.toNat ≤ 512) : Answered s r := by
  cases hr with
  | completes hport => exact answered_complete hport
  | raises _ => exact answered_raise s _
  | stops hbeyond => exact absurd htlen (Nat.not_le.2 hbeyond)

theorem step_of_idle (hport : s.port = []) : step s = .next s := by
  simp only [step, hport]

theorem step_of_reset (hport : s.port = .reset :: rest) : step s = .next (applyReset rest) := by
  simp only [step, hport]

theorem step_answered {cmd : CmdWord} {din : Limb} (hport : s.port = .command cmd din :: rest) (htlen : s.tlen.toNat ≤ 512) :
    Answered (acceptCommand s rest din) (step s) := by
  cases hdecode : decode cmd with
  | error reason =>
    rw [step_of_decode_error hport hdecode]
    exact answered_raise _ _
  | ok i =>
    rw [step_of_decode_ok hport hdecode]
    exact answered_of_endsAs (exec_endsAs i _) htlen

end

/-- Settles O12, by the host's next event: of the invariant only the bound on TLEN is needed, where FROMSTR fetches its string. -/
theorem everyStepGoesOnAndAnswers : Obligations.EveryStepGoesOnAndAnswers := by
  rintro s ⟨-, htlen, -⟩
  cases hport : s.port with
  | nil => exact ⟨s, step_of_idle hport, nofun⟩
  | cons event rest =>
    cases event with
    | reset => exact ⟨applyReset rest, step_of_reset hport, nofun⟩
    | command cmd din =>
      obtain ⟨t, ht, hrest, hanswer⟩ := step_answered hport htlen
      refine ⟨t, ht, fun _ _ _ hevent => ?_⟩
      cases hevent
      exact ⟨hrest, hanswer⟩

/-- Settles O9: the state after the event is the reset state, with the events the host has left. -/
theorem resetEventClearsEverything : Obligations.ResetEventClearsEverything := by
  intro s rest hport
  obtain ⟨hregs, htext, herr, htrunc, hepos, htlen, htcons⟩ := resetStateIsAllZero
  exact ⟨applyReset rest, step_of_reset hport, hregs, htext, herr, htrunc, hepos, htlen, htcons, rfl, reset_response⟩

/-! What an error changes, and who raises it (R260, R262). -/

section
variable {s t : State} {d : Limb} {code : BitVec 3}

theorem errorEntry_of_raise {e : UnitError} (ht : raise s e = .next t) (hresponse : t.response = some ⟨d, code⟩) :
    ∃ pos, ErrorEntry s t code pos ∧ (code ≠ 1 → pos = 0) := by
  obtain ⟨u, hu, hentry⟩ := raise_spec s e
  cases hu.symm.trans ht
  cases hu
  cases hresponse
  exact ⟨errorPos e, hentry, errorPos_eq_zero⟩

/-- A response with a non-zero code comes from raising an error. -/
theorem errorEntry_of_endsAs {i : Instr} {r : Result} (hr : EndsAs i s r) (ht : r = .next t)
    (hresponse : t.response = some ⟨d, code⟩) (hcode : code ≠ 0) : ∃ pos, ErrorEntry s t code pos ∧ (code ≠ 1 → pos = 0) := by
  cases hr with
  | completes _ =>
    cases ht
    cases hresponse
    exact absurd rfl hcode
  | raises _ => exact errorEntry_of_raise ht hresponse
  | stops _ => cases ht

end

/-- Settles O13: a refused word raises an error, and a command that answers a code has raised it. -/
theorem raisingCommandChangesOnlyTheRecord : Obligations.RaisingCommandChangesOnlyTheRecord := by
  intro s t cmd din rest d code hport ht hresponse hcode
  cases hdecode : decode cmd with
  | error reason =>
    rw [step_of_decode_error hport hdecode] at ht
    exact errorEntry_of_raise ht hresponse
  | ok i =>
    rw [step_of_decode_ok hport hdecode] at ht
    exact errorEntry_of_endsAs (exec_endsAs i _) ht hresponse hcode

/-- R260 read off the response: each code names the commands that raise its error. -/
theorem raisedBy_of_errorCode {e : UnitError} {i : Instr} (h : RaisedBy e i) :
    (errorCode e = 1 → ∃ w rd b e, i = .fromstr w rd b e)
      ∧ (errorCode e = 2 → ∃ w rd ra rb, i = .div w rd ra rb)
      ∧ (errorCode e = 3 → (∃ w rd ra, i = .sqrt w rd ra) ∨ ∃ w rd ra, i = .fromdbl w rd ra)
      ∧ (errorCode e = 4 → i.wellFormed = false ∨ i = .csrw .tlen) := by
  cases h with
  | fromstr => exact ⟨fun _ => ⟨_, _, _, _, rfl⟩, nofun, nofun, nofun⟩
  | div => exact ⟨nofun, fun _ => ⟨_, _, _, _, rfl⟩, nofun, nofun⟩
  | sqrt => exact ⟨nofun, nofun, fun _ => .inl ⟨_, _, _, rfl⟩, nofun⟩
  | fromdbl => exact ⟨nofun, nofun, fun _ => .inr ⟨_, _, _, rfl⟩, nofun⟩
  | illFormed hwf => exact ⟨nofun, nofun, nofun, fun _ => .inl hwf⟩
  | csrwTlen => exact ⟨nofun, nofun, nofun, fun _ => .inr rfl⟩

/-- Settles O15: a command that completes answers 0, and one that raises an error the code of that error. -/
theorem errorCodesComeFromTheirCommands : Obligations.ErrorCodesComeFromTheirCommands := by
  intro i s t r ht hresponse
  have hends := exec_endsAs i s
  generalize exec i s = result at hends ht
  cases hends with
  | completes _ =>
    cases ht
    cases hresponse
    exact ⟨nofun, nofun, nofun, nofun, Nat.zero_le _⟩
  | @raises e he =>
    cases ht
    cases hresponse
    obtain ⟨hparse, hdivide, hdomain, hillegal⟩ := raisedBy_of_errorCode he
    exact ⟨hparse, hdivide, hdomain, hillegal, errorCode_toNat_le e⟩
  | stops _ => cases ht

/-! The conditions of the single errors (R264, R266, R267). -/

theorem exists_decode_error_of_no_row {w : CmdWord} (h : ∀ r ∈ opcodeTable, r.accepts w = false) : ∃ e, decode w = .error e := by
  cases hdecode : decode w with
  | error e => exact ⟨e, rfl⟩
  | ok i =>
    obtain ⟨hwf, rfl⟩ := decode_eq_ok_iff.1 hdecode
    obtain ⟨r, hr, -, haccepts⟩ := encodingFitsRow i hwf
    exact absurd haccepts (ne_true_of_eq_false (h r hr))

/-- Settles O6: a word of no row is refused by the decoder, and CSRW to TLEN refuses its data word. -/
theorem illegalWordRaisesIllegalCommand : Obligations.IllegalWordRaisesIllegalCommand := by
  rintro s cmd din rest hport (hnorow | ⟨hword, hdin⟩)
  · obtain ⟨reason, hdecode⟩ := exists_decode_error_of_no_row hnorow
    rw [step_of_decode_error hport hdecode]
    exact raise_spec (acceptCommand s rest din) .illegalCommand
  · rw [step_of_decode_ok hport (decode_eq_csrw_tlen_iff.2 hword)]
    exact raisesError_csrw_tlen (s := acceptCommand s rest din) hdin

/-- A command that raises an error on a condition and else gives a pattern of width `w`. -/
theorem raises_or_completes_of_exec_eq_ite {i : Instr} {s : State} {c : Prop} [Decidable c] {e : UnitError} {w : Width} {rd : VReg}
    {n : Nat} (hexec : exec i s = if c then raise s e else completeW s w rd n) :
    (c → RaisesError i s (errorCode e) (errorPos e)) ∧ (¬ c → ∃ t, exec i s = .next t ∧ Answers t 0) := by
  constructor
  · intro hc
    rw [RaisesError, hexec, if_pos hc]
    exact raise_spec s e
  · intro hc
    obtain ⟨t, ht, -, -, hanswer⟩ := completeW_spec s w rd n
    exact ⟨t, (hexec.trans (if_neg hc)).trans ht, hanswer⟩

/-- Settles O37: the test of the divisor is the whole condition. -/
theorem divideByZeroIsDecidedByTheDivisor : Obligations.DivideByZeroIsDecidedByTheDivisor :=
  fun _ _ _ _ _ => raises_or_completes_of_exec_eq_ite (e := .divideByZero) rfl

/-- The sign of a pattern is bit B-1 of its register. -/
theorem signBit_readW (s : State) (w : Width) (r : VReg) : signBit (bits w) (readW s w r) = (readV s r).getLsbD (bits w - 1) := by
  rw [signBit, testBit_readW, decide_eq_true (Nat.sub_one_lt (bits_pos w).ne'), Bool.true_and]

/-- Settles O56: SQRT tests the sign bit of its operand, FROMDBL the exponent field. -/
theorem domainErrorIsDecidedByTheOperand : Obligations.DomainErrorIsDecidedByTheOperand := by
  intro s w rd ra
  obtain ⟨hnegative, hroot⟩ : ((readV s ra).getLsbD (bits w - 1) = true → RaisesError (.sqrt w rd ra) s 3 0) ∧ _ :=
    raises_or_completes_of_exec_eq_ite (e := .domainError) (by rw [← signBit_readW]; rfl)
  obtain ⟨hinfinite, hfinite⟩ : (exponentField (readLimb s ra 0) = 2047 → RaisesError (.fromdbl w rd ra) s 3 0) ∧ _ :=
    raises_or_completes_of_exec_eq_ite (e := .domainError) (by rw [← doubleExponent_eq]; rfl)
  exact ⟨hnegative, fun h => hroot (ne_true_of_eq_false h), hinfinite, hfinite⟩

end Sys2Proof.Machine
end

section
/-! PROOFS. The square root of an exact square (90_conflicts.md C4). -/

namespace Sys2Proof.Machine

/-- Settles O53: in units of half an ulp the root is exact and even, so neither rounding nor cutting moves it. -/
theorem sqrtOfExactSquareIsTheRoot : Obligations.SqrtOfExactSquareIsTheRoot := by
  intro s w rd ra r hsquare hpos
  have hexact : readW s w ra * 2 ^ (fracBits w + 2) = 2 * r * (2 * r) := by
    rw [pow_add, ← Nat.mul_assoc, ← hsquare]
    ring
  have hroot := sqrtRoundsAtFx64AndCutsElsewhere s w rd ra (2 * r) hpos (by rw [hexact, Nat.sqrt_eq])
  have hcut : (if w = .fx64 then (2 * r + 1) / 2 else 2 * r / 2) = r := by split <;> omega
  rwa [hcut] at hroot

end Sys2Proof.Machine
end

section
/-! PROOFS. The error record does not steer (60_exceptions.md R268, 10_state.md R30). First what is read of two states that differ at
most there, and which updates keep them so; then how each way of ending a command keeps it; then the commands. -/

namespace Sys2Proof.Machine

/-! Two states that differ at most in the error record and the last response. -/

section
variable {s s' : State}

theorem SameButRecord.readV_eq (h : SameButRecord s s') (r : VReg) : readV s' r = readV s r := congrArg (Vector.get · r) h.1

theorem SameButRecord.readW_eq (h : SameButRecord s s') (w : Width) (r : VReg) : readW s' w r = readW s w r := by
  rw [readW, readW, h.readV_eq]

theorem SameButRecord.readLimb_eq (h : SameButRecord s s') (r : VReg) (k : Nat) : readLimb s' r k = readLimb s r k := by
  rw [readLimb, readLimb, h.readV_eq]

theorem SameButRecord.fetchText_eq (h : SameButRecord s s') : fetchText s' = fetchText s := by
  obtain ⟨-, htb, htlen, -⟩ := h
  rw [fetchText, fetchText, htb, htlen]

theorem SameButRecord.writeV (h : SameButRecord s s') {rd : VReg} {x x' : Value} (hx : x' = x) :
    SameButRecord (writeV s rd x) (writeV s' rd x') := by
  obtain ⟨hv, hrest⟩ := h
  exact ⟨by rw [writeV_v, writeV_v, hv, hx], hrest⟩

theorem SameButRecord.setText (h : SameButRecord s s') {m m' : Memory} (hm : m' = m) :
    SameButRecord (setText s m) (setText s' m') := by
  obtain ⟨hv, -, hrest⟩ := h
  exact ⟨hv, hm, hrest⟩

theorem SameButRecord.setTlen (h : SameButRecord s s') {n n' : Nat} (hn : n' = n) :
    SameButRecord (setTlen s n) (setTlen s' n') := by
  obtain ⟨hv, htb, -, hrest⟩ := h
  exact ⟨hv, htb, congrArg (BitVec.ofNat 10) hn, hrest⟩

theorem SameButRecord.setTcons (h : SameButRecord s s') (n : Nat) : SameButRecord (setTcons s n) (setTcons s' n) := by
  obtain ⟨hv, htb, htlen, -, hrest⟩ := h
  exact ⟨hv, htb, htlen, rfl, hrest⟩

theorem SameButRecord.setTrunc (h : SameButRecord s s') (b b' : Bool) : SameButRecord (setTrunc s b) (setTrunc s' b') := h

theorem SameButRecord.clearRecord (h : SameButRecord s s') : SameButRecord (clearRecord s) (clearRecord s') := h

/-- Recording an error writes the record alone, whether or not one is held already. -/
theorem recordError_fields (s : State) (e : UnitError) :
    (recordError s e).v = s.v ∧ (recordError s e).tb = s.tb ∧ (recordError s e).tlen = s.tlen
      ∧ (recordError s e).tcons = s.tcons ∧ (recordError s e).port = s.port ∧ (recordError s e).din = s.din := by
  unfold recordError
  split <;> exact ⟨rfl, rfl, rfl, rfl, rfl, rfl⟩

theorem SameButRecord.recordError (h : SameButRecord s s') (e : UnitError) :
    SameButRecord (recordError s e) (recordError s' e) := by
  simpa only [SameButRecord, recordError_fields] using h

end

/-! The ways a command ends, from two such states. -/

/-- When the first outcome is a next state, so is the second; they differ at most in the record, and carry the same response. -/
def SameOutcome (r r' : Result) : Prop :=
  ∀ t, r = .next t → ∃ t', r' = .next t' ∧ SameButRecord t t' ∧ t'.response = t.response

section
variable {s s' : State}

theorem sameOutcome_fault (f : Fault) (r' : Result) : SameOutcome (.fault f) r' := nofun

theorem sameOutcome_raise (h : SameButRecord s s') (e : UnitError) : SameOutcome (raise s e) (raise s' e) := by
  rintro t ⟨⟩
  exact ⟨_, rfl, h.recordError e, rfl⟩

theorem sameOutcome_complete (h : SameButRecord s s') {d d' : Limb} (hd : d' = d) :
    SameOutcome (complete s d) (complete s' d') := by
  rintro t ⟨⟩
  exact ⟨_, rfl, h, by rw [respond_response, respond_response, hd]⟩

theorem sameOutcome_writeV (h : SameButRecord s s') {rd : VReg} {x x' : Value} (hx : x' = x) :
    SameOutcome (complete (writeV s rd x) 0) (complete (writeV s' rd x') 0) :=
  sameOutcome_complete (h.writeV hx) rfl

/-- Two commands that branch on the same condition. -/
theorem sameOutcome_ite {c c' : Prop} [Decidable c] [Decidable c'] {p p' q q' : Result} (hc : c' = c)
    (hp : SameOutcome p p') (hq : SameOutcome q q') : SameOutcome (if c then p else q) (if c' then p' else q') := by
  subst hc
  by_cases h : c'
  · rwa [if_pos h, if_pos h]
  · rwa [if_neg h, if_neg h]

/-! The commands that read or write more than value registers. -/

/-- In a legal base TOSTR stores the same text over the same buffer; TRUNC is of the record. -/
theorem execTostr_sameOutcome (h : SameButRecord s s') (w : Width) (ra : VReg) (base : BitVec 6) :
    SameOutcome (exec (.tostr w ra base) s) (exec (.tostr w ra base) s') := by
  cases hbase : (Instr.tostr w ra base).wellFormed with
  | false =>
    rw [exec_of_not_wellFormed s hbase, exec_of_not_wellFormed s' hbase]
    exact sameOutcome_raise h _
  | true =>
    obtain ⟨hlo, hhi⟩ := of_decide_eq_true hbase
    have ⟨_, htb, _⟩ := h
    rw [exec_tostr_eq s w ra hlo hhi, exec_tostr_eq s' w ra hlo hhi, h.readW_eq, htb]
    exact sameOutcome_complete (((h.setText rfl).setTlen rfl).setTrunc _ _) rfl

theorem execFromstr_sameOutcome (h : SameButRecord s s') (w : Width) (rd : VReg) (base : BitVec 6) (e : Bool) :
    SameOutcome (execFromstr w rd base e s) (execFromstr w rd base e s') := by
  unfold execFromstr
  rw [h.fetchText_eq]
  refine sameOutcome_ite rfl ?_ (sameOutcome_raise h _)
  cases fetchText s with
  | none => exact sameOutcome_fault _ _
  | some text =>
    dsimp only
    cases scan base.toNat e text with
    | error pos => exact sameOutcome_raise h _
    | ok r => exact sameOutcome_complete ((h.writeV rfl).setTcons r.pos) rfl

/-- CSRR of TLEN and TCONS. -/
theorem execCsrr_sameOutcome (h : SameButRecord s s') {csr : Csr} (hstatus : csr ≠ .status) (hepos : csr ≠ .epos) :
    SameOutcome (execCsrr csr s) (execCsrr csr s') := by
  have ⟨_, _, htlen, htcons, _⟩ := h
  cases csr with
  | status => exact absurd rfl hstatus
  | epos => exact absurd rfl hepos
  | tlen => exact sameOutcome_complete h (congrArg (BitVec.setWidth 64) htlen)
  | tcons => exact sameOutcome_complete h (congrArg (BitVec.setWidth 64) htcons)

theorem execCsrw_sameOutcome (h : SameButRecord s s') (csr : Csr) : SameOutcome (execCsrw csr s) (execCsrw csr s') := by
  have ⟨_, _, _, _, _, hdin⟩ := h
  cases csr with
  | status => exact sameOutcome_complete h.clearRecord rfl
  | tlen =>
    exact sameOutcome_ite (by rw [hdin]) (sameOutcome_complete (h.setTlen (by rw [hdin])) rfl) (sameOutcome_raise h _)
  | epos | tcons => exact sameOutcome_raise h _

end

/-! Every command. -/

/-- No command but CSRR of STATUS and EPOS reads what the two states do not share. -/
theorem exec_sameOutcome {s s' : State} {i : Instr} (h : SameButRecord s s') (hstatus : i ≠ .csrr .status)
    (hepos : i ≠ .csrr .epos) : SameOutcome (exec i s) (exec i s') := by
  have ⟨_, htb, _, _, _, hdin⟩ := h
  cases i with
  | put64 | put32 => exact sameOutcome_writeV h (by rw [h.readV_eq, hdin])
  | get64 => exact sameOutcome_complete h (h.readLimb_eq _ _)
  | get32 => exact sameOutcome_complete h (by rw [h.readV_eq])
  | mov | and | or | xor | shl | shr | add | sub | neg | mul | square | lt | gt | le | ge | eq | ne | ltu | gtu | leu | geu
  | todbl => exact sameOutcome_writeV h (by simp only [h.readW_eq])
  | laddc | lsubb | lmulw | fromint => exact sameOutcome_writeV h (by simp only [h.readLimb_eq])
  | div | sqrt =>
    exact sameOutcome_ite (by rw [h.readW_eq]) (sameOutcome_raise h _) (sameOutcome_writeV h (by simp only [h.readW_eq]))
  | fromdbl =>
    exact sameOutcome_ite (by rw [h.readLimb_eq]) (sameOutcome_raise h _) (sameOutcome_writeV h (by rw [h.readLimb_eq]))
  | tostr w ra base => exact execTostr_sameOutcome h w ra base
  | fromstr w rd base e => exact execFromstr_sameOutcome h w rd base e
  | csrr csr => exact execCsrr_sameOutcome h (fun hc => hstatus (hc ▸ rfl)) (fun hc => hepos (hc ▸ rfl))
  | csrw csr => exact execCsrw_sameOutcome h csr
  | tld => exact sameOutcome_complete h (by rw [htb])
  | tst => exact sameOutcome_complete (h.setText (by rw [htb, hdin])) rfl

/-- Settles O17: every other command reads and branches on what the two states share. -/
theorem errorRecordDoesNotSteer : Obligations.ErrorRecordDoesNotSteer :=
  fun _ _ _ t h hstatus hepos ht => exec_sameOutcome h hstatus hepos t ht

end Sys2Proof.Machine
end
